-- ==== Sys2Proof/Word.lean ====
section
/-! DEFINITION. The word types of the codec block: 32-bit registers, window bytes, and bit sequences. -/

namespace Sys2Proof

/-- A 32-bit register or command word; bit 0 is its least significant bit (R7, R10). -/
abbrev Word := BitVec 32

/-- One byte of a window (R72). -/
abbrev Byte := BitVec 8

/-- A bit vector or bit string as the sequence of its elements: index 0 first, which is the most significant bit and
the first one transmitted. Only the sequence is architectural (R9, R140). -/
abbrev BitSeq := List Bool

end Sys2Proof
end

