-- ==== Sys2Proof/Config.lean ====
section
/-! DEFINITION. What an implementation of the block fixes: the open parameters of R8, and the free value of a read
of a BUSY unit (R421). -/

namespace Sys2Proof

/-- The parameters that R8 leaves open, "which the model takes as arguments". They stand in the machine's state as
plain data that no step writes, so that a statement over every state is a statement over every platform. -/
structure Params where
  /-- `C_BASE`, the address of the CU region (R70, D3). -/
  cBase : Nat
  /-- `D_BASE`, the address of the DU region (R70, D3). -/
  dBase : Nat
  /-- `STREAM_CAP_BYTES`, the implemented bytes of the DU STREAM window (R74, D24). -/
  streamCap : Nat
  /-- `PRE_HISTORY_ZERO`: may the C_t walk of R264 pass D_0 into slots no packet has written (D16)? -/
  preHistoryZero : Bool
  deriving DecidableEq, Repr

/-- The bytes of one region (R70). -/
def regionBytes : Nat := 0x80000

/-- The greatest STREAM capacity: the 393216 bytes of the STREAM window (R74). -/
def streamWindowBytes : Nat := 393216

/-- What R8 and R70 demand of the parameters: bases that are multiples of 0x80000, regions that do not overlap, and a
capacity of 1 to 393216 bytes. -/
def Params.ok (p : Params) : Bool :=
  p.cBase % regionBytes == 0 && p.dBase % regionBytes == 0
    && (p.cBase + regionBytes ≤ p.dBase || p.dBase + regionBytes ≤ p.cBase)
    && 1 ≤ p.streamCap && p.streamCap ≤ streamWindowBytes

/-- The parameters the state after reset carries: the defaults of R8 for `STREAM_CAP_BYTES` and `PRE_HISTORY_ZERO`.
DESIGN CHOICE (notes/assumptions/1.md): R8 gives no default for the bases, and 0 and 0x80000 are the model's. -/
def Params.default : Params :=
  { cBase := 0, dBase := 0x80000, streamCap := streamWindowBytes, preHistoryZero := false }

/-- The arbitrary value a host read of a BUSY unit returns, for every register and window but STATUS (R421, S2). It has
no body: no proof can learn one of its values. It is applied to a counter that each such read advances, so that every
read draws its own value (notes/assumptions/2.md). -/
opaque Config.busyRead : Nat → Word

end Sys2Proof
end

