-- ==== Sys2Proof/Syntax.lean ====
section
/-! DEFINITION. The instructions of the codec block: one constructor per row of spec/opcode_table.json. -/

namespace Sys2Proof

/-- The two command units (R3). -/
inductive CodecUnit where
  /-- the compressor unit -/
  | cu
  /-- the decompressor unit -/
  | du
  deriving DecidableEq, Repr

/-- Every row of the opcode table: the six command words (R101), the 38 micro-operations of the datapath (R120) and the
15 COUNT code words of the wire format (R115, R205). A micro-operation's code has no operand fields: its operands stand
in the state. A COUNT form's `a` is the field of bits after the marker (the table's `a`). -/
inductive Instr where
  /-- C.INIT: initialise a compressor session (R291). -/
  | cInit
  /-- C.PKT: compress one packet (R300), with the manual-mode flag bits NM = w[8], SM = w[9], UC = w[10] (R103). -/
  | cPkt (nm sm uc : Bool)
  /-- D.INIT: initialise a decompressor session (R341). -/
  | dInit
  /-- D.LOAD: load the stream reader (R345). -/
  | dLoad
  /-- D.PKT: decompress one packet (R350). -/
  | dPkt
  /-- D.ALIGN: align the stream reader (R360). -/
  | dAlign
  /-- BV.XOR: exclusive or (R141). -/
  | bvXor
  /-- BV.OR: inclusive or (R142). -/
  | bvOr
  /-- BV.AND: and (R143). -/
  | bvAnd
  /-- BV.NOT: complement (R144). -/
  | bvNot
  /-- BV.SHL1: left shift by one toward index 0 (R145). -/
  | bvShl1
  /-- BV.REV: reverse (R146). -/
  | bvRev
  /-- BV.POPCNT: Hamming weight (R147). -/
  | bvPopcnt
  /-- BV.GET: read one bit (R148). -/
  | bvGet
  /-- BV.SET: write one bit (R149). -/
  | bvSet
  /-- BV.ZERO: clear (R150). -/
  | bvZero
  /-- BV.UNPACK: bytes to vector (R151). -/
  | bvUnpack
  /-- BV.PACK: vector to bytes (R152). -/
  | bvPack
  /-- BB.CLEAR: empty the output buffer (R171). -/
  | bbClear
  /-- BB.PUTBIT: append one bit (R172). -/
  | bbPutbit
  /-- BB.PUTVAL: append the low n bits of an integer (R173). -/
  | bbPutval
  /-- BB.PUTVEC: append a vector in index order (R174). -/
  | bbPutvec
  /-- BB.TOBYTES: the output buffer as bytes (R175). -/
  | bbTobytes
  /-- BR.GETBIT: read one stream bit (R181). -/
  | brGetbit
  /-- BR.GETBITS: read n stream bits as an integer (R182). -/
  | brGetbits
  /-- BR.ALIGN: advance the reader to a byte boundary (R183). -/
  | brAlign
  /-- BR.REMAIN: count the remaining stream bits (R184). -/
  | brRemain
  /-- CNT.ENC: append a COUNT code word (R201). -/
  | cntEnc
  /-- CNT.DEC: read a COUNT code word (R204). -/
  | cntDec
  /-- RLE.ENC: append the run-length list of a vector (R210). -/
  | rleEnc
  /-- RLE.DEC: read a run-length list (R212). -/
  | rleDec
  /-- BE.REV: extract bits, highest index first (R220). -/
  | beRev
  /-- BE.FWD: extract bits, lowest index first (R221). -/
  | beFwd
  /-- BI.REV: insert bits, highest index first (R222). -/
  | biRev
  /-- BI.FWD: insert bits, lowest index first (R223). -/
  | biFwd
  /-- MU.BUILD: update the build vector (R241). -/
  | muBuild
  /-- MU.MASK: update the mask (R242). -/
  | muMask
  /-- MU.CHANGE: compute the change vector (R243). -/
  | muChange
  /-- HW.PUSH: store the change vector (R261). -/
  | hwPush
  /-- HW.XWIN: compute the robustness window (R262). -/
  | hwXwin
  /-- HW.VEFF: compute the effective robustness (R264). -/
  | hwVeff
  /-- HW.CT: compute the multiple-update flag (R266). -/
  | hwCt
  /-- HW.FPUSH: record the new-mask flag (R267). -/
  | hwFpush
  /-- AP.NEXT: compute the automatic parameters (R295). -/
  | apNext
  /-- COUNT_ONE: the code word '0', value 1 (R115). -/
  | countOne
  /-- COUNT_TERM: the code word '10', the terminator 0 (R115). -/
  | countTerm
  /-- COUNT_SHORT: '110' and five bits, value a + 2 (R115). -/
  | countShort (a : Nat)
  /-- COUNT_LONG_E6: '111', 0 zeros, a one and 5 bits, value 2^5 + a + 2, which is 34..65 (R202, R204). -/
  | countLongE6 (a : Nat)
  /-- COUNT_LONG_E8: '111', 1 zeros, a one and 6 bits, value 2^6 + a + 2, which is 66..129 (R202, R204). -/
  | countLongE8 (a : Nat)
  /-- COUNT_LONG_E10: '111', 2 zeros, a one and 7 bits, value 2^7 + a + 2, which is 130..257 (R202, R204). -/
  | countLongE10 (a : Nat)
  /-- COUNT_LONG_E12: '111', 3 zeros, a one and 8 bits, value 2^8 + a + 2, which is 258..513 (R202, R204). -/
  | countLongE12 (a : Nat)
  /-- COUNT_LONG_E14: '111', 4 zeros, a one and 9 bits, value 2^9 + a + 2, which is 514..1025 (R202, R204). -/
  | countLongE14 (a : Nat)
  /-- COUNT_LONG_E16: '111', 5 zeros, a one and 10 bits, value 2^10 + a + 2, which is 1026..2049 (R202, R204). -/
  | countLongE16 (a : Nat)
  /-- COUNT_LONG_E18: '111', 6 zeros, a one and 11 bits, value 2^11 + a + 2, which is 2050..4097 (R202, R204). -/
  | countLongE18 (a : Nat)
  /-- COUNT_LONG_E20: '111', 7 zeros, a one and 12 bits, value 2^12 + a + 2, which is 4098..8193 (R202, R204). -/
  | countLongE20 (a : Nat)
  /-- COUNT_LONG_E22: '111', 8 zeros, a one and 13 bits, value 2^13 + a + 2, which is 8194..16385 (R202, R204). -/
  | countLongE22 (a : Nat)
  /-- COUNT_LONG_E24: '111', 9 zeros, a one and 14 bits, value 2^14 + a + 2, which is 16386..32769 (R202, R204). -/
  | countLongE24 (a : Nat)
  /-- COUNT_LONG_E26: '111', 10 zeros, a one and 15 bits, value 2^15 + a + 2, which is 32770..65537 (R202, R204). -/
  | countLongE26 (a : Nat)
  /-- COUNT_MALFORMED: '111' and eleven zeros (R205). -/
  | countMalformed
  deriving DecidableEq, Repr

/-- The three formats of the opcode table. -/
inductive Format where
  /-- a command word of a unit (R100) -/
  | cmd (u : CodecUnit)
  /-- an 8-bit micro-operation code (R120) -/
  | uop
  /-- a COUNT code word of the wire format (R115) -/
  | wire
  deriving DecidableEq, Repr

/-- The format the opcode table gives each instruction. -/
def Instr.format : Instr → Format
  | .cInit => .cmd .cu
  | .cPkt _ _ _ => .cmd .cu
  | .dInit => .cmd .du
  | .dLoad => .cmd .du
  | .dPkt => .cmd .du
  | .dAlign => .cmd .du
  | .bvXor => .uop
  | .bvOr => .uop
  | .bvAnd => .uop
  | .bvNot => .uop
  | .bvShl1 => .uop
  | .bvRev => .uop
  | .bvPopcnt => .uop
  | .bvGet => .uop
  | .bvSet => .uop
  | .bvZero => .uop
  | .bvUnpack => .uop
  | .bvPack => .uop
  | .bbClear => .uop
  | .bbPutbit => .uop
  | .bbPutval => .uop
  | .bbPutvec => .uop
  | .bbTobytes => .uop
  | .brGetbit => .uop
  | .brGetbits => .uop
  | .brAlign => .uop
  | .brRemain => .uop
  | .cntEnc => .uop
  | .cntDec => .uop
  | .rleEnc => .uop
  | .rleDec => .uop
  | .beRev => .uop
  | .beFwd => .uop
  | .biRev => .uop
  | .biFwd => .uop
  | .muBuild => .uop
  | .muMask => .uop
  | .muChange => .uop
  | .hwPush => .uop
  | .hwXwin => .uop
  | .hwVeff => .uop
  | .hwCt => .uop
  | .hwFpush => .uop
  | .apNext => .uop
  | .countOne => .wire
  | .countTerm => .wire
  | .countShort _ => .wire
  | .countLongE6 _ => .wire
  | .countLongE8 _ => .wire
  | .countLongE10 _ => .wire
  | .countLongE12 _ => .wire
  | .countLongE14 _ => .wire
  | .countLongE16 _ => .wire
  | .countLongE18 _ => .wire
  | .countLongE20 _ => .wire
  | .countLongE22 _ => .wire
  | .countLongE24 _ => .wire
  | .countLongE26 _ => .wire
  | .countMalformed => .wire

end Sys2Proof
end

