-- ==== Sys2Proof/WellFormed.lean ====
section
/-! DEFINITION. Which instructions have an encoding: a COUNT form's field must fit the bits its row gives it. -/

namespace Sys2Proof

/-- An instruction is well formed when every operand fits its field. Only the COUNT forms of the wire format have a
field of a bounded width (R115, R202); the flag bits of C.PKT are Booleans. -/
def wellFormed : Instr → Bool
  | .countShort a => a < 2 ^ 5
  | .countLongE6 a => a < 2 ^ 5
  | .countLongE8 a => a < 2 ^ 6
  | .countLongE10 a => a < 2 ^ 7
  | .countLongE12 a => a < 2 ^ 8
  | .countLongE14 a => a < 2 ^ 9
  | .countLongE16 a => a < 2 ^ 10
  | .countLongE18 a => a < 2 ^ 11
  | .countLongE20 a => a < 2 ^ 12
  | .countLongE22 a => a < 2 ^ 13
  | .countLongE24 a => a < 2 ^ 14
  | .countLongE26 a => a < 2 ^ 15
  | .countOne => true
  | .countTerm => true
  | .countMalformed => true
  | .cInit => true
  | .cPkt _ _ _ => true
  | .dInit => true
  | .dLoad => true
  | .dPkt => true
  | .dAlign => true
  | .bvXor => true
  | .bvOr => true
  | .bvAnd => true
  | .bvNot => true
  | .bvShl1 => true
  | .bvRev => true
  | .bvPopcnt => true
  | .bvGet => true
  | .bvSet => true
  | .bvZero => true
  | .bvUnpack => true
  | .bvPack => true
  | .bbClear => true
  | .bbPutbit => true
  | .bbPutval => true
  | .bbPutvec => true
  | .bbTobytes => true
  | .brGetbit => true
  | .brGetbits => true
  | .brAlign => true
  | .brRemain => true
  | .cntEnc => true
  | .cntDec => true
  | .rleEnc => true
  | .rleDec => true
  | .beRev => true
  | .beFwd => true
  | .biRev => true
  | .biFwd => true
  | .muBuild => true
  | .muMask => true
  | .muChange => true
  | .hwPush => true
  | .hwXwin => true
  | .hwVeff => true
  | .hwCt => true
  | .hwFpush => true
  | .apNext => true

end Sys2Proof
end

