-- ==== Sys2Proof/Decode.lean ====
section
/-! DEFINITION. Decoding: from a command word, a micro-operation code or the bits of the stream to an instruction, or a
rejection by name; and the encoder, from the same tables of the spec (R100 to R104, R115, R116, R120). -/

namespace Sys2Proof

/-! ## Bit strings and numbers (R11) -/

/-- `BIT_n(v)`: the low `n` bits of `v`, most significant first (R11). -/
def bitsMsb : Nat → Nat → BitSeq
  | 0, _ => []
  | n + 1, v => v.testBit n :: bitsMsb n v

/-- The unsigned integer that a bit string spells, most significant bit first, read after `acc` (the loop of `get`,
R181). -/
def natMsbFrom (acc : Nat) : BitSeq → Nat
  | [] => acc
  | b :: r => natMsbFrom (2 * acc + b.toNat) r

/-- The unsigned integer that a bit string spells, most significant bit first (R11). -/
def natMsb (s : BitSeq) : Nat := natMsbFrom 0 s

/-! ## What there is to decode -/

/-- The bits of one instruction where the block holds them: a word written to a unit's CMD register (R100), a
micro-operation code (R120), or the unread bits of the stream, first bit first (R80). -/
inductive Code where
  | command (u : CodecUnit) (w : Word)
  | uop (b : Byte)
  | wire (bits : BitSeq)
  deriving DecidableEq, Repr

/-- Why bits are no instruction. -/
inductive DecodeError where
  /-- An illegal command word of this unit (R102, R104): the unit reports BAD_COMMAND. -/
  | badCommand (u : CodecUnit)
  /-- A micro-operation code that R120 does not list: "Not decodable" (V5). -/
  | unknownUop (b : Byte)
  /-- The stream ends inside a code word (R116): the reader reports UNDERFLOW. -/
  | incomplete
  deriving DecidableEq, Repr

/-! ## Command words -/

/-- The field `w[hi:lo]` as an integer, `n = hi - lo + 1` bits (R10). -/
def wordField (lo n : Nat) (w : Word) : Nat := (w.extractLsb' lo n).toNat

/-- Decode a command word written to unit `u` (R102): `w[7:0]` an opcode of that unit, `w[31:11]` zero, and `w[10:8]`
zero unless the opcode is C.PKT. -/
def decodeCommand (u : CodecUnit) (w : Word) : Except DecodeError Instr :=
  if wordField 11 21 w ≠ 0 then .error (.badCommand u)
  else
    match u, wordField 0 8 w with
    | .cu, 0x02 => .ok (.cPkt (w.getLsbD 8) (w.getLsbD 9) (w.getLsbD 10))
    | u, opc =>
      if wordField 8 3 w ≠ 0 then .error (.badCommand u)
      else
        match u, opc with
        | .cu, 0x01 => .ok .cInit
        | .du, 0x11 => .ok .dInit
        | .du, 0x12 => .ok .dLoad
        | .du, 0x13 => .ok .dPkt
        | .du, 0x14 => .ok .dAlign
        | u, _ => .error (.badCommand u)

/-! ## Micro-operation codes -/

/-- The micro-operation that a code names (R120). -/
def decodeUop (b : Byte) : Except DecodeError Instr :=
  match b.toNat with
  | 0x40 => .ok .bvXor
  | 0x41 => .ok .bvOr
  | 0x42 => .ok .bvAnd
  | 0x43 => .ok .bvNot
  | 0x44 => .ok .bvShl1
  | 0x45 => .ok .bvRev
  | 0x46 => .ok .bvPopcnt
  | 0x47 => .ok .bvGet
  | 0x48 => .ok .bvSet
  | 0x49 => .ok .bvZero
  | 0x4A => .ok .bvUnpack
  | 0x4B => .ok .bvPack
  | 0x50 => .ok .bbClear
  | 0x51 => .ok .bbPutbit
  | 0x52 => .ok .bbPutval
  | 0x53 => .ok .bbPutvec
  | 0x54 => .ok .bbTobytes
  | 0x58 => .ok .brGetbit
  | 0x59 => .ok .brGetbits
  | 0x5A => .ok .brAlign
  | 0x5B => .ok .brRemain
  | 0x60 => .ok .cntEnc
  | 0x61 => .ok .cntDec
  | 0x62 => .ok .rleEnc
  | 0x63 => .ok .rleDec
  | 0x64 => .ok .beRev
  | 0x65 => .ok .beFwd
  | 0x66 => .ok .biRev
  | 0x67 => .ok .biFwd
  | 0x70 => .ok .muBuild
  | 0x71 => .ok .muMask
  | 0x72 => .ok .muChange
  | 0x78 => .ok .hwPush
  | 0x79 => .ok .hwXwin
  | 0x7A => .ok .hwVeff
  | 0x7B => .ok .hwCt
  | 0x7C => .ok .hwFpush
  | 0x7D => .ok .apNext
  | _ => .error (.unknownUop b)

/-! ## COUNT code words -/

/-- The long form with `z` zeros after '111' and the field `a` (R202). -/
def longForm : Nat → Nat → Instr
  | 0, a => .countLongE6 a
  | 1, a => .countLongE8 a
  | 2, a => .countLongE10 a
  | 3, a => .countLongE12 a
  | 4, a => .countLongE14 a
  | 5, a => .countLongE16 a
  | 6, a => .countLongE18 a
  | 7, a => .countLongE20 a
  | 8, a => .countLongE22 a
  | 9, a => .countLongE24 a
  | 10, a => .countLongE26 a
  | _, _ => .countMalformed

/-- Read a field of `n` bits, if so many are there. -/
def takeField (n : Nat) (bits : BitSeq) : Option Nat :=
  if bits.length < n then none else some (natMsb (bits.take n))

/-- Decode what follows '111', after `z` zeros (R116): the zeros before the first one, then `z + 5` bits; eleven zeros
are malformed as soon as the eleventh is read (R205). -/
def decodeLong (z : Nat) : BitSeq → Option Instr
  | [] => none
  | true :: r => (takeField (z + 5) r).map (longForm z)
  | false :: r => if z + 1 = 11 then some .countMalformed else decodeLong (z + 1) r

/-- Decode the COUNT code word that a bit string begins with (R116); nothing where the string ends inside it. -/
def decodeWire : BitSeq → Option Instr
  | false :: _ => some .countOne
  | true :: false :: _ => some .countTerm
  | true :: true :: false :: r => (takeField 5 r).map .countShort
  | true :: true :: true :: r => decodeLong 0 r
  | _ => none

/-- Decode: total on any bits, rejecting by name. -/
def decode : Code → Except DecodeError Instr
  | .command u w => decodeCommand u w
  | .uop b => decodeUop b
  | .wire bits =>
    match decodeWire bits with
    | some i => .ok i
    | none => .error .incomplete

/-! ## The encoder -/

/-- The command word of C.PKT with its flags: 0x00000002 | (nm << 8) | (sm << 9) | (uc << 10) (R106). -/
def cPktWord (nm sm uc : Bool) : Word :=
  BitVec.ofNat 32 (0x02 + 0x100 * nm.toNat + 0x200 * sm.toNat + 0x400 * uc.toNat)

/-- The long COUNT code word with `z` zeros: '111', the zeros, a one and `z + 5` bits (R116). -/
def longBits (z a : Nat) : BitSeq :=
  [true, true, true] ++ List.replicate z false ++ [true] ++ bitsMsb (z + 5) a

/-- The bits of each instruction, from the command words of R106, the codes of R120 and the code words of R115. -/
def encode : Instr → Code
  | .cInit => .command .cu 0x00000001
  | .cPkt nm sm uc => .command .cu (cPktWord nm sm uc)
  | .dInit => .command .du 0x00000011
  | .dLoad => .command .du 0x00000012
  | .dPkt => .command .du 0x00000013
  | .dAlign => .command .du 0x00000014
  | .bvXor => .uop 0x40
  | .bvOr => .uop 0x41
  | .bvAnd => .uop 0x42
  | .bvNot => .uop 0x43
  | .bvShl1 => .uop 0x44
  | .bvRev => .uop 0x45
  | .bvPopcnt => .uop 0x46
  | .bvGet => .uop 0x47
  | .bvSet => .uop 0x48
  | .bvZero => .uop 0x49
  | .bvUnpack => .uop 0x4A
  | .bvPack => .uop 0x4B
  | .bbClear => .uop 0x50
  | .bbPutbit => .uop 0x51
  | .bbPutval => .uop 0x52
  | .bbPutvec => .uop 0x53
  | .bbTobytes => .uop 0x54
  | .brGetbit => .uop 0x58
  | .brGetbits => .uop 0x59
  | .brAlign => .uop 0x5A
  | .brRemain => .uop 0x5B
  | .cntEnc => .uop 0x60
  | .cntDec => .uop 0x61
  | .rleEnc => .uop 0x62
  | .rleDec => .uop 0x63
  | .beRev => .uop 0x64
  | .beFwd => .uop 0x65
  | .biRev => .uop 0x66
  | .biFwd => .uop 0x67
  | .muBuild => .uop 0x70
  | .muMask => .uop 0x71
  | .muChange => .uop 0x72
  | .hwPush => .uop 0x78
  | .hwXwin => .uop 0x79
  | .hwVeff => .uop 0x7A
  | .hwCt => .uop 0x7B
  | .hwFpush => .uop 0x7C
  | .apNext => .uop 0x7D
  | .countOne => .wire [false]
  | .countTerm => .wire [true, false]
  | .countShort a => .wire ([true, true, false] ++ bitsMsb 5 a)
  | .countLongE6 a => .wire (longBits 0 a)
  | .countLongE8 a => .wire (longBits 1 a)
  | .countLongE10 a => .wire (longBits 2 a)
  | .countLongE12 a => .wire (longBits 3 a)
  | .countLongE14 a => .wire (longBits 4 a)
  | .countLongE16 a => .wire (longBits 5 a)
  | .countLongE18 a => .wire (longBits 6 a)
  | .countLongE20 a => .wire (longBits 7 a)
  | .countLongE22 a => .wire (longBits 8 a)
  | .countLongE24 a => .wire (longBits 9 a)
  | .countLongE26 a => .wire (longBits 10 a)
  | .countMalformed => .wire ([true, true, true] ++ List.replicate 11 false)

/-- The bits of a COUNT code word; none for an instruction of another format. -/
def wireBits (i : Instr) : BitSeq :=
  match encode i with
  | .wire bits => bits
  | .command _ _ => []
  | .uop _ => []

/-- The value that a COUNT code word stands for (R115, R204); 0 for an instruction of another format. -/
def countValue : Instr → Nat
  | .countOne => 1
  | .countTerm => 0
  | .countShort a => a + 2
  | .countLongE6 a => 2 ^ 5 + a + 2
  | .countLongE8 a => 2 ^ 6 + a + 2
  | .countLongE10 a => 2 ^ 7 + a + 2
  | .countLongE12 a => 2 ^ 8 + a + 2
  | .countLongE14 a => 2 ^ 9 + a + 2
  | .countLongE16 a => 2 ^ 10 + a + 2
  | .countLongE18 a => 2 ^ 11 + a + 2
  | .countLongE20 a => 2 ^ 12 + a + 2
  | .countLongE22 a => 2 ^ 13 + a + 2
  | .countLongE24 a => 2 ^ 14 + a + 2
  | .countLongE26 a => 2 ^ 15 + a + 2
  | .countMalformed => 0
  | .cInit => 0
  | .cPkt _ _ _ => 0
  | .dInit => 0
  | .dLoad => 0
  | .dPkt => 0
  | .dAlign => 0
  | .bvXor => 0
  | .bvOr => 0
  | .bvAnd => 0
  | .bvNot => 0
  | .bvShl1 => 0
  | .bvRev => 0
  | .bvPopcnt => 0
  | .bvGet => 0
  | .bvSet => 0
  | .bvZero => 0
  | .bvUnpack => 0
  | .bvPack => 0
  | .bbClear => 0
  | .bbPutbit => 0
  | .bbPutval => 0
  | .bbPutvec => 0
  | .bbTobytes => 0
  | .brGetbit => 0
  | .brGetbits => 0
  | .brAlign => 0
  | .brRemain => 0
  | .cntEnc => 0
  | .cntDec => 0
  | .rleEnc => 0
  | .rleDec => 0
  | .beRev => 0
  | .beFwd => 0
  | .biRev => 0
  | .biFwd => 0
  | .muBuild => 0
  | .muMask => 0
  | .muChange => 0
  | .hwPush => 0
  | .hwXwin => 0
  | .hwVeff => 0
  | .hwCt => 0
  | .hwFpush => 0
  | .apNext => 0

/-! ## The opcode table's own numbering -/

/-- The bit string that the table writes as the number `w`: its binary digits, first bit on the left. Every code word but
'0' begins with a one, so the number has the code word's own digits. -/
def wireOfNat (w : Nat) : BitSeq :=
  if w = 0 then [false] else bitsMsb (w.log2 + 1) w

/-- Does this code decode, and is it whole (nothing left over)? -/
def isWhole (c : Code) : Bool :=
  match decode c with
  | .ok i => decide (encode i = c)
  | .error _ => false

/-- The places where an instruction of `nbits` bits may stand: a command word has 32 bits, a micro-operation code 8, and
a code word of the wire format any number (the opcode table's three formats). -/
def tableCandidates (nbits w : Nat) : List Code :=
  (if nbits = 32 then [.command .cu (BitVec.ofNat 32 w), .command .du (BitVec.ofNat 32 w)] else [])
    ++ (if nbits = 8 then [.uop (BitVec.ofNat 8 w)] else [])
    ++ [.wire (wireOfNat w)]

/-- The code that the opcode table's number `w` of `nbits` bits stands for: the first of its possible places where it is
a whole instruction. The three formats never share a number (notes/assumptions/3.md). -/
def tableCode (nbits w : Nat) : Option Code :=
  if w < 2 ^ nbits then (tableCandidates nbits w).find? isWhole else none

/-- The instruction the decoder reads from an instruction whose bits are `w`, numbered as spec/opcode_table.json numbers
them. -/
def decodeTableWord (nbits w : Nat) : Option Instr :=
  match tableCode nbits w with
  | some c =>
    match decode c with
    | .ok i => some i
    | .error _ => none
  | none => none

end Sys2Proof
end

