-- ==== Sys2Proof/Machine/State.lean ====
section
/-! DEFINITION. The state of the codec block: the two command units, the datapath's latches, the host's accesses still to
come, and the state after reset. INVENTORY.md lists every field with the rule that names it. -/

namespace Sys2Proof.Machine

/-- The bytes of one unit's windows, at region offsets (R71), as pairs of offset and byte: offsets strictly rising, no
byte 0x00 listed. An unlisted byte reads 0x00, which is what every window byte resets to (R57). -/
abbrev Memory := List Host.Cell

/-- The result codes of a command (R391). The reserved codes 7 to 15 "are never written" and have no constructor. -/
inductive ErrCode where
  | ok
  | invalidArgument
  | overflow
  | underflow
  | notReady
  | malformed
  | badCommand
  deriving DecidableEq, Repr

/-- The status state both units have (R33). -/
structure Status where
  /-- The accepted command word in execution; the unit is BUSY exactly while there is one (R421). -/
  cmd : Option Word
  /-- READY: a session is initialised and not faulted. -/
  ready : Bool
  /-- FAULT: the session stopped on an error; sticky until the next INIT. -/
  fault : Bool
  /-- HZD: the host wrote to the unit while BUSY; sticky until the next INIT. -/
  hazard : Bool
  /-- ERR: the result of the last command. -/
  err : ErrCode
  deriving DecidableEq, Repr

/-- BUSY: a command is executing (R33). -/
def Status.busy (s : Status) : Bool := s.cmd.isSome

/-- The per-packet values of the compressor's rules (R15, R32), which "exist only during one packet command". A
micro-operation that runs alone takes them as operands and leaves its result in them (notes/assumptions/4.md). -/
structure CuTemps where
  /-- `I`, the input packet I_t (R300). -/
  inp : BitSeq
  /-- `build_prev`, B_(t-1) (R241). -/
  buildPrev : BitSeq
  /-- `D`, the change vector D_t (R243). -/
  change : BitSeq
  /-- `X`, the robustness window X_t (R262). -/
  window : BitSeq
  /-- `V`, the effective robustness V_t, a 4-bit field (R264). -/
  veff : BitVec 4
  /-- `c`, the multiple-update flag c_t (R266). -/
  ct : Bool
  /-- `p`, the new-mask flag p_t. -/
  p : Bool
  /-- `f`, the send-mask flag f_t. -/
  f : Bool
  /-- `r`, the uncompressed flag r_t. -/
  r : Bool
  deriving DecidableEq, Repr

/-- The compressor unit (R21 to R27, R34 to R43). -/
structure Cu where
  /-- CFG_F (R36). -/
  cfgF : Word
  /-- CFG_R (R37). -/
  cfgR : Word
  /-- CFG_PT_LIMIT (R38). -/
  cfgPt : Word
  /-- CFG_FT_LIMIT (R38). -/
  cfgFt : Word
  /-- CFG_RT_LIMIT (R38). -/
  cfgRt : Word
  /-- IN_LEN (R39). -/
  inLen : Word
  /-- BUSY, READY, FAULT, HZD, ERR (R33, R35). -/
  st : Status
  /-- AUTO: the session is in automatic mode (R33, R35). -/
  auto : Bool
  /-- `F_s`, the latched packet length (R21). -/
  fs : BitVec 16
  /-- `R_s`, the latched robustness, 0..7 (R21). -/
  rs : BitVec 3
  /-- `PT_L` (R21). -/
  ptL : Word
  /-- `FT_L` (R21). -/
  ftL : Word
  /-- `RT_L` (R21). -/
  rtL : Word
  /-- `mask`, M_t (R22). -/
  mask : BitSeq
  /-- `prev_mask`, M_(t-1) (R22). -/
  prevMask : BitSeq
  /-- `build`, B_t (R22). -/
  build : BitSeq
  /-- `prev_input`, I_(t-1) (R22). -/
  prevInput : BitSeq
  /-- `hist[0..15]`, the change-vector ring (R23). -/
  hist : Vector BitSeq 16
  /-- `hidx`, the slot that receives the current change vector (R23). -/
  hidx : BitVec 4
  /-- `fhist[0..15]`, the new-mask-flag ring (R23). -/
  fhist : Vector Bool 16
  /-- `fidx`, the slot that receives the current flag (R23). -/
  fidx : BitVec 4
  /-- T: the packets compressed in the session, saturating (R24, R40). -/
  t : Word
  /-- PT_CNT (R25, R42). -/
  ptCnt : Word
  /-- FT_CNT (R25, R42). -/
  ftCnt : Word
  /-- RT_CNT (R25, R42). -/
  rtCnt : Word
  /-- `obuf`, the output bit buffer (R26, R170); its `size` is its length. -/
  obuf : BitSeq
  /-- OUT_BITS (R41). -/
  outBits : Word
  /-- PKT_INFO (R43). -/
  pktInfo : Word
  /-- The windows INMASK, IN and OUT (R73). -/
  win : Memory
  /-- The per-packet values. -/
  tmp : CuTemps
  deriving DecidableEq, Repr

/-- The decompressor unit (R21, R28 to R31, R44 to R54). -/
structure Du where
  /-- CFG_F (R46). -/
  cfgF : Word
  /-- CFG_R (R46). -/
  cfgR : Word
  /-- CTRL.AUTO_ALIGN; the other bits of CTRL read 0 and ignore writes (R47). -/
  autoAlign : Bool
  /-- STREAM_LEN (R48). -/
  streamLen : Word
  /-- BUSY, READY, FAULT, HZD, ERR (R33, R45). -/
  st : Status
  /-- `F_s` (R21). -/
  fs : BitVec 16
  /-- `R_s`, which no DU rule reads (R21, R359). -/
  rs : BitVec 3
  /-- `dmask` (R28). -/
  dmask : BitSeq
  /-- `prev_output` (R28). -/
  prevOutput : BitSeq
  /-- `pos`, the positive changes of the last packet (R28). -/
  pos : BitSeq
  /-- T: the packets decompressed in the session, saturating (R30, R51). -/
  t : Word
  /-- BIT_POS, the reader's cursor (R31, R49). -/
  bitPos : Word
  /-- NUM_BITS, the valid bits of the stream (R31, R50). -/
  numBits : Word
  /-- PKT_INFO (R53). -/
  pktInfo : Word
  /-- LAST_COUNT_F (R54). -/
  lastCountF : Word
  /-- The windows OUT and STREAM (R74). -/
  win : Memory
  deriving DecidableEq, Repr

/-- The operand and result latches of the micro-operations (the model's own: R120 gives a micro-operation a code and no
operand fields, so its operands must stand somewhere; notes/assumptions/4.md). -/
structure Datapath where
  /-- Whose session length F the bit_vector_alu works with (R153). -/
  user : CodecUnit
  /-- The vector operand a. -/
  opA : BitSeq
  /-- The vector operand b, or the mask m. -/
  opB : BitSeq
  /-- The bit index i of BV.GET and BV.SET. -/
  opIndex : Nat
  /-- The bit operand of BV.SET and BB.PUTBIT. -/
  opBit : Bool
  /-- The integer operand v of BB.PUTVAL (R173); its 32 bits hold every v below 2^n. -/
  opVal : Word
  /-- The width operand n of BB.PUTVAL and BR.GETBITS: 0 to 32 (R173, R182). -/
  opWidth : Fin 33
  /-- The count operand A of CNT.ENC: 0 to 65535 (R201). -/
  opCount : BitVec 16
  /-- The byte sequence operand of BV.UNPACK. -/
  opBytes : List Byte
  /-- A vector result. -/
  resVec : BitSeq
  /-- An integer result. -/
  resNum : Nat
  /-- A bit result. -/
  resBit : Bool
  /-- A byte sequence result. -/
  resBytes : List Byte
  deriving DecidableEq, Repr

/-- A micro-operation or code word that stands before the datapath, to run in the next step. -/
inductive Micro where
  /-- the micro-operation with this code (R120) -/
  | uop (code : Byte)
  /-- the COUNT code word at the reader's cursor (R115) -/
  | wire
  deriving DecidableEq, Repr

/-- The width of a host access (R76): 8, 16 or 32 bits, or any other. -/
inductive Width where
  | byte
  | half
  | word
  | other
  deriving DecidableEq, Repr

/-- What the host does to the block: an access at a platform address (R76), or the reset input (R420). -/
inductive HostAction where
  | read (width : Width) (addr : Nat)
  | write (width : Width) (addr : Nat) (value : Word)
  | reset
  deriving DecidableEq, Repr

/-- Which agent moves in a step (R3). -/
inductive Turn where
  | host
  | unit (u : CodecUnit)
  deriving DecidableEq, Repr

/-- The machine: the block, and what the host will still do to it. -/
structure State where
  /-- The open parameters of R8; no step writes them. -/
  params : Params
  /-- The compressor unit. -/
  cu : Cu
  /-- The decompressor unit. -/
  du : Du
  /-- The datapath's latches (the model's own). -/
  dp : Datapath
  /-- The micro-operation to run next, if any (the model's own). -/
  micro : Option Micro
  /-- The host's accesses still to come, in program order: the program (R390; the model's own queue). -/
  host : List HostAction
  /-- Who moves in the next steps; when the list is empty a BUSY unit moves before the host (the model's own;
  notes/assumptions/5.md). -/
  turns : List Turn
  /-- The value the host's last read returned (the model's own). -/
  readData : Word
  /-- How many arbitrary values have been drawn (R421; the model's own, see `Config.busyRead`). -/
  drawn : Nat
  deriving DecidableEq, Repr

/-- Why the machine stops with a fault. The errors of R391 are no faults of this kind: a command that meets one leaves a
next state with the error in STATUS (R394). -/
inductive Fault where
  /-- Raised by a host access whose address lies in neither region: the block "has exactly two address regions" (R70), so
  nothing answers there. Safe: the model stops where a platform would route the access elsewhere. -/
  | outsideRegions
  deriving DecidableEq, Repr

/-- Why the machine gives an instruction no meaning. -/
inductive Refusal where
  /-- Raised by an arm of `exec` that has no meaning yet. Safe. -/
  | notModelled (mnemonic : String)
  /-- Raised by a micro-operation one of whose vector operands has not the session's F bits (or whose byte operand has not
  ceil(F/8) bytes): "Operands of different lengths never occur" (R153), treatment "refuse" (U2). Safe. -/
  | operandLength
  /-- Raised by a step whose micro-operation code R120 does not list: "Not decodable" (V5). Safe. -/
  | unknownUop
  deriving DecidableEq, Repr

/-- Status after reset: all 0 (R57). -/
def Status.reset : Status :=
  { cmd := none, ready := false, fault := false, hazard := false, err := .ok }

/-- The per-packet values before any packet (DESIGN CHOICE, notes/assumptions/6.md: no packet, no value). -/
def CuTemps.reset : CuTemps :=
  { inp := [false], buildPrev := [false], change := [false], window := [false], veff := 0, ct := false, p := false,
    f := false, r := false }

/-- The CU after reset (R57). DESIGN CHOICE (notes/assumptions/6.md): what R57 leaves "unspecified" is a session of the
least legal packet length F = 1, all zero. -/
def Cu.reset : Cu :=
  { cfgF := 0, cfgR := 0, cfgPt := 0, cfgFt := 0, cfgRt := 0, inLen := 0, st := Status.reset, auto := false,
    fs := 1, rs := 0, ptL := 0, ftL := 0, rtL := 0,
    mask := [false], prevMask := [false], build := [false], prevInput := [false],
    hist := Vector.replicate 16 [false], hidx := 0, fhist := Vector.replicate 16 false, fidx := 0,
    t := 0, ptCnt := 0, ftCnt := 0, rtCnt := 0, obuf := [], outBits := 0, pktInfo := 0, win := [],
    tmp := CuTemps.reset }

/-- The DU after reset (R57): CTRL is 0x00000001. DESIGN CHOICE (notes/assumptions/6.md): as for the CU. -/
def Du.reset : Du :=
  { cfgF := 0, cfgR := 0, autoAlign := true, streamLen := 0, st := Status.reset, fs := 1, rs := 0,
    dmask := [false], prevOutput := [false], pos := [false], t := 0, bitPos := 0, numBits := 0, pktInfo := 0,
    lastCountF := 0, win := [] }

/-- The datapath's latches after reset (DESIGN CHOICE, notes/assumptions/6.md). -/
def Datapath.reset : Datapath :=
  { user := .cu, opA := [false], opB := [false], opIndex := 0, opBit := false, opVal := 0, opWidth := 0, opCount := 0,
    opBytes := [0], resVec := [false], resNum := 0, resBit := false, resBytes := [] }

/-- The machine right after reset (R57, R420), with no host access to come: "The first thing a unit does after reset is
wait for a CMD write" (R420). -/
def State.reset : State :=
  { params := Params.default, cu := Cu.reset, du := Du.reset, dp := Datapath.reset, micro := none, host := [],
    turns := [], readData := 0, drawn := 0 }

end Sys2Proof.Machine
end

