-- ==== Sys2Proof/Machine/Operands.lean ====
section
/-! DEFINITION. Bit sequences as operands: the operators of R12, the byte order of R72, and the checks on an operand's
length (R153). -/

namespace Sys2Proof.Machine

/-! ## Operators on bit sequences (R12) -/

/-- `0^N` (R9). -/
def zeros (n : Nat) : BitSeq := List.replicate n false

/-- `a ^ b` (R12, R141). -/
def vXor (a b : BitSeq) : BitSeq := List.zipWith xor a b

/-- `a | b` (R12, R142). -/
def vOr (a b : BitSeq) : BitSeq := List.zipWith or a b

/-- `a & b` (R12, R143). -/
def vAnd (a b : BitSeq) : BitSeq := List.zipWith and a b

/-- `~a` (R12, R144). -/
def vNot (a : BitSeq) : BitSeq := a.map not

/-- `a << 1`: one position toward index 0; the last element becomes 0 (R12, R145). -/
def vShl1 : BitSeq → BitSeq
  | [] => []
  | _ :: r => r ++ [false]

/-- `rev(a)` (R12, R146). -/
def vRev (a : BitSeq) : BitSeq := a.reverse

/-- `popcount(a)`: the number of one bits (R12, R147). -/
def popcount (a : BitSeq) : Nat := a.count true

/-- `any(a)`: some bit is one (R12). -/
def anySet (a : BitSeq) : Bool := a.any id

/-- `a[i]`, and 0 past the end (R148). -/
def vGet (a : BitSeq) (i : Nat) : Bool := a.getD i false

/-- `a` with `a[i]` set to `v`, and `a` itself past the end (R149). -/
def vSet (a : BitSeq) (i : Nat) (v : Bool) : BitSeq := a.set i v

/-! ## Bytes (R72) -/

/-- The eight bits of a byte in the order of R72: byte bit 7 first. -/
def byteBits (b : Byte) : BitSeq :=
  [b.getMsbD 0, b.getMsbD 1, b.getMsbD 2, b.getMsbD 3, b.getMsbD 4, b.getMsbD 5, b.getMsbD 6, b.getMsbD 7]

/-- The byte whose bits, byte bit 7 first, are the first eight of `s`; missing bits are 0 (R152, R175). -/
def byteOf (s : BitSeq) : Byte := BitVec.ofNat 8 (natMsb ((s ++ zeros 8).take 8))

/-- `ceil(n/8)`, the bytes that hold `n` bits (R13). -/
def byteCount (n : Nat) : Nat := (n + 7) / 8

/-- The first `n` bytes of a bit sequence, zero-padded. -/
def bytesOf : Nat → BitSeq → List Byte
  | 0, _ => []
  | n + 1, s => byteOf (s.take 8) :: bytesOf n (s.drop 8)

/-- A bit sequence as ceil(len/8) bytes, the last one zero-padded (R79, R152, R175). -/
def packBits (s : BitSeq) : List Byte := bytesOf (byteCount s.length) s

/-- The first `n` bits of a byte sequence; the rest of the last byte is ignored (R78, R151). -/
def unpackBits (n : Nat) (bytes : List Byte) : BitSeq := (bytes.flatMap byteBits).take n

/-! ## Operand lengths (R153) -/

/-- Every one of these vectors has `n` bits. -/
def haveLength (n : Nat) (vs : List BitSeq) : Bool := vs.all fun v => v.length == n

/-- Go on only where the operands have the length their rule gives them; operands of other lengths "never occur" (R153)
and get no meaning (U2). -/
def whenLengths (ok : Bool) (o : Host.Outcome State Fault Refusal) : Host.Outcome State Fault Refusal :=
  if ok then o else .refused .operandLength

/-- The session length F of a unit (R21). -/
def State.lengthOf (s : State) : CodecUnit → Nat
  | .cu => s.cu.fs.toNat
  | .du => s.du.fs.toNat

/-- The session length F that the bit_vector_alu works with (R153). -/
def State.aluLength (s : State) : Nat := s.lengthOf s.dp.user

end Sys2Proof.Machine
end

