-- ==== Sys2Proof/Machine/Ops.lean ====
section
/-! DEFINITION. The operations the meanings share: window bytes, the stream's bits, the output buffer, the outcome of a
command in STATUS (the block's whole exception mechanism, R394 to R402), and the counters. -/

namespace Sys2Proof.Machine

/-! ## Window bytes -/

/-- The byte at an offset; an unlisted one is 0x00 (R57). -/
def readByte : Memory → Nat → Byte
  | [], _ => 0
  | (k, v) :: m, a => if k = a then v else readByte m a

/-- The list without the byte at an offset. -/
def eraseByte (m : Memory) (a : Nat) : Memory := m.filter fun c => c.1 != a

/-- Put a byte in its place of the rising offsets. -/
def insertByte : Memory → Nat → Byte → Memory
  | [], a, b => [(a, b)]
  | (k, v) :: m, a, b => if a < k then (a, b) :: (k, v) :: m else (k, v) :: insertByte m a b

/-- Store one byte, keeping offsets rising and no byte 0x00 listed. -/
def writeByte (m : Memory) (a : Nat) (b : Byte) : Memory :=
  if b = 0 then eraseByte m a else insertByte (eraseByte m a) a b

/-- Store bytes at rising offsets from `a`. -/
def writeBytes : Memory → Nat → List Byte → Memory
  | m, _, [] => m
  | m, a, b :: r => writeBytes (writeByte m a b) (a + 1) r

/-- The `n` bytes from offset `a`. -/
def readBytes (m : Memory) (a n : Nat) : List Byte := (List.range n).map fun j => readByte m (a + j)

/-- The canonical form: offsets strictly rising, no byte 0x00 listed. -/
abbrev Memory.wf (m : Memory) : Prop :=
  List.Pairwise (fun c d => c.1 < d.1) m ∧ ∀ c ∈ m, c.2 ≠ 0

/-- A 32-bit window access: the byte at the lowest offset in bits [7:0] (R76). -/
def readWordLe (m : Memory) (a : Nat) : Word :=
  readByte m (a + 3) ++ readByte m (a + 2) ++ readByte m (a + 1) ++ readByte m a

/-- The four bytes of a word, lowest offset first (R76). -/
def wordBytesLe (w : Word) : List Byte :=
  [w.extractLsb' 0 8, w.extractLsb' 8 8, w.extractLsb' 16 8, w.extractLsb' 24 8]

/-! ## The windows (R73, R74), by region offset -/

/-- CU INMASK (R73). -/
def cuInmask : Nat := 0x01000
/-- CU IN (R73). -/
def cuIn : Nat := 0x03000
/-- CU OUT (R73). -/
def cuOut : Nat := 0x10000
/-- DU OUT (R74). -/
def duOut : Nat := 0x03000
/-- DU STREAM (R74). -/
def duStream : Nat := 0x10000

/-- `unpack_F(W)` of the window at offset `a` (R78). -/
def windowVector (m : Memory) (a n : Nat) : BitSeq := unpackBits n (readBytes m a (byteCount n))

/-! ## The stream (R80) -/

/-- Stream bit k: bit 7 - (k mod 8) of STREAM byte floor(k/8) (R80). -/
def streamBit (u : Du) (k : Nat) : Bool := (readByte u.win (duStream + k / 8)).getMsbD (k % 8)

/-- How many bits remain, NUM_BITS - BIT_POS (R184). -/
def remaining (u : Du) : Nat := u.numBits.toNat - u.bitPos.toNat

/-- The unread bits of the stream, from BIT_POS up to NUM_BITS (R80, R180). -/
def unreadBits (u : Du) : BitSeq := (List.range (remaining u)).map fun k => streamBit u (u.bitPos.toNat + k)

/-- The reader after it has read all of the unread bits but `rest` (R181: BIT_POS grows by one a bit). -/
def Du.readTo (u : Du) (rest : BitSeq) : Du :=
  { u with bitPos := u.bitPos + BitVec.ofNat 32 ((unreadBits u).length - rest.length) }

/-- BIT_POS <- 8 * ceil(BIT_POS / 8) (R183). -/
def Du.align (u : Du) : Du := { u with bitPos := BitVec.ofNat 32 (8 * byteCount u.bitPos.toNat) }

/-! ## The output buffer (R170 to R172) -/

/-- CAP = 48 x F bits (R170). -/
def obufCap (u : Cu) : Nat := 48 * u.fs.toNat

/-- `put(s)`: the capacity is checked once, then the bits are appended in order (R172). -/
def put (s : BitSeq) (u : Cu) : Except ErrCode Cu :=
  if u.obuf.length + s.length > obufCap u then .error .overflow else .ok { u with obuf := u.obuf ++ s }

/-! ## Command outcomes in STATUS -/

/-- A packet command raises an error: READY <- 0, FAULT <- 1, ERR <- code (R394). This is the block's exception entry;
what it records beside the code is that nothing else has changed (R402). -/
def Status.raise (e : ErrCode) (s : Status) : Status := { s with ready := false, fault := true, err := e }

/-- Only ERR changes: BAD_COMMAND (R393), NOT_READY (R398), a failed D_LOAD (R396), and OK at the end of a command. -/
def Status.report (e : ErrCode) (s : Status) : Status := { s with err := e }

/-- An INIT that fails (R396). -/
def Status.initFailed (s : Status) : Status :=
  { s with ready := false, fault := false, hazard := false, err := .invalidArgument }

/-- An INIT that succeeds (R291, R341), the one way out of a fault (R397): the return from the error state (R402). -/
def Status.initDone (s : Status) : Status :=
  { s with ready := true, fault := false, hazard := false, err := .ok }

/-- The CU raises an error: every element but STATUS keeps its value (R394). -/
def Cu.raise (e : ErrCode) (u : Cu) : Cu := { u with st := u.st.raise e }

/-- The DU raises an error: every element but STATUS keeps its value, BIT_POS included (R394). -/
def Du.raise (e : ErrCode) (u : Du) : Du := { u with st := u.st.raise e }

/-- A unit's status after an illegal command word: only ERR changes (R393). -/
def State.badCommand (s : State) : CodecUnit → State
  | .cu => { s with cu := { s.cu with st := s.cu.st.report .badCommand } }
  | .du => { s with du := { s.du with st := s.du.st.report .badCommand } }

/-- What a compressor operation that may raise an error leaves: its result, or the unit as it was with the error (R394). -/
def Cu.orRaise (u : Cu) : Except ErrCode Cu → Cu
  | .ok u' => u'
  | .error e => u.raise e

/-- A micro-operation of the CU's that may raise an error, as a step of the machine. -/
def State.runCu (s : State) (r : Except ErrCode Cu) : State := { s with cu := s.cu.orRaise r }

/-! ## Counters -/

/-- `min(t + 1, 2^32 - 1)` (R24, R30). -/
def satInc (t : Word) : Word := if t = BitVec.allOnes 32 then t else t + 1

end Sys2Proof.Machine
end

