-- ==== Sys2Proof/Machine/Flags.lean ====
section
/-! DEFINITION. The status and packet-information words: STATUS (R35, R45) and PKT_INFO (R43, R53). -/

namespace Sys2Proof.Machine

/-- The number of each result code (R391). -/
def ErrCode.number : ErrCode → Nat
  | .ok => 0
  | .invalidArgument => 1
  | .overflow => 2
  | .underflow => 3
  | .notReady => 4
  | .malformed => 5
  | .badCommand => 6

/-- A flag in its place of a register word. -/
def flagAt (k : Nat) (b : Bool) : Nat := if b then 2 ^ k else 0

/-- Bits 7 to 0 of STATUS: BUSY, READY, FAULT, HZD and ERR (R35, R45). -/
def Status.low (s : Status) : Nat :=
  flagAt 0 s.busy + flagAt 1 s.ready + flagAt 2 s.fault + flagAt 3 s.hazard + 16 * s.err.number

/-- CU STATUS: AUTO is bit 8, bits [31:9] read 0 (R35). -/
def Cu.statusWord (u : Cu) : Word := BitVec.ofNat 32 (u.st.low + flagAt 8 u.auto)

/-- DU STATUS: bits [31:8] read 0 (R45). -/
def Du.statusWord (u : Du) : Word := BitVec.ofNat 32 u.st.low

/-- PKT_INFO: V in [3:0], E_PRESENT, E, C, D, P, FT and RT in bits 4 to 10; bits [31:11] read 0 (R43, R53). -/
def pktInfoWord (v : BitVec 4) (ePresent e c d p ft rt : Bool) : Word :=
  BitVec.ofNat 32 (v.toNat + flagAt 4 ePresent + flagAt 5 e + flagAt 6 c + flagAt 7 d + flagAt 8 p + flagAt 9 ft
    + flagAt 10 rt)

end Sys2Proof.Machine
end

