-- ==== Sys2Proof/Machine/BitVectorAlu.lean ====
section
/-! DEFINITION. The bit_vector_alu micro-operations (R140 to R154): operands a and b, an index, a bit and bytes from the
datapath's latches, the result into them. -/

namespace Sys2Proof.Machine

/-- An operation on the vector operand a (R153: it has F bits). -/
def State.alu1 (s : State) (r : Datapath → Datapath) : Host.Outcome State Fault Refusal :=
  whenLengths (haveLength s.aluLength [s.dp.opA]) (.next { s with dp := r s.dp })

/-- An operation on the vector operands a and b (R153: both have F bits). -/
def State.alu2 (s : State) (f : BitSeq → BitSeq → BitSeq) : Host.Outcome State Fault Refusal :=
  whenLengths (haveLength s.aluLength [s.dp.opA, s.dp.opB])
    (.next { s with dp := { s.dp with resVec := f s.dp.opA s.dp.opB } })

/-- BV.XOR (R141). -/
def execBvXor (s : State) : Host.Outcome State Fault Refusal := s.alu2 vXor

/-- BV.OR (R142). -/
def execBvOr (s : State) : Host.Outcome State Fault Refusal := s.alu2 vOr

/-- BV.AND (R143). -/
def execBvAnd (s : State) : Host.Outcome State Fault Refusal := s.alu2 vAnd

/-- BV.NOT (R144). -/
def execBvNot (s : State) : Host.Outcome State Fault Refusal := s.alu1 fun d => { d with resVec := vNot d.opA }

/-- BV.SHL1 (R145). -/
def execBvShl1 (s : State) : Host.Outcome State Fault Refusal := s.alu1 fun d => { d with resVec := vShl1 d.opA }

/-- BV.REV (R146). -/
def execBvRev (s : State) : Host.Outcome State Fault Refusal := s.alu1 fun d => { d with resVec := vRev d.opA }

/-- BV.POPCNT (R147). -/
def execBvPopcnt (s : State) : Host.Outcome State Fault Refusal := s.alu1 fun d => { d with resNum := popcount d.opA }

/-- BV.GET: 0 for an index past the end (R148). -/
def execBvGet (s : State) : Host.Outcome State Fault Refusal :=
  s.alu1 fun d => { d with resBit := vGet d.opA d.opIndex }

/-- BV.SET: a itself for an index past the end (R149). -/
def execBvSet (s : State) : Host.Outcome State Fault Refusal :=
  s.alu1 fun d => { d with resVec := vSet d.opA d.opIndex d.opBit }

/-- BV.ZERO (R150). -/
def execBvZero (s : State) : Host.Outcome State Fault Refusal :=
  .next { s with dp := { s.dp with resVec := zeros s.aluLength } }

/-- BV.UNPACK: the operand is a byte sequence of ceil(F/8) bytes (R151). -/
def execBvUnpack (s : State) : Host.Outcome State Fault Refusal :=
  whenLengths (s.dp.opBytes.length == byteCount s.aluLength)
    (.next { s with dp := { s.dp with resVec := unpackBits s.aluLength s.dp.opBytes } })

/-- BV.PACK (R152). -/
def execBvPack (s : State) : Host.Outcome State Fault Refusal :=
  s.alu1 fun d => { d with resBytes := packBits d.opA }

end Sys2Proof.Machine
end

