-- ==== Sys2Proof/Machine/BitPacker.lean ====
section
/-! DEFINITION. The variable_length_bit_packer (R170 to R185): the BitBuffer operations on the CU's output buffer and the
BitReader operations on the DU's stream. -/

namespace Sys2Proof.Machine

/-! ## Reading bits

A reader takes the unread bits and answers what it read and the bits left, or the error of R181. -/

/-- BR.GETBIT on the unread bits (R181). -/
def getBit : BitSeq → Except ErrCode (Bool × BitSeq)
  | [] => .error .underflow
  | b :: r => .ok (b, r)

/-- The loop of `get(n)`: `v <- 2*v + BR.GETBIT`, n times, from `acc` (R181). -/
def getNumFrom (acc : Nat) : Nat → BitSeq → Except ErrCode (Nat × BitSeq)
  | 0, bits => .ok (acc, bits)
  | n + 1, bits => do
    let (b, rest) ← getBit bits
    getNumFrom (2 * acc + b.toNat) n rest

/-- `get(n)`: the next n bits as an unsigned integer (R14, R181). -/
def getNum (n : Nat) (bits : BitSeq) : Except ErrCode (Nat × BitSeq) := getNumFrom 0 n bits

/-- n bits read one at a time into a vector, index 0 first (R355). -/
def getVec : Nat → BitSeq → Except ErrCode (BitSeq × BitSeq)
  | 0, bits => .ok ([], bits)
  | n + 1, bits => do
    let (b, rest) ← getBit bits
    let (v, rest) ← getVec n rest
    .ok (b :: v, rest)

/-- BR.GETBITS on the unread bits: UNDERFLOW at once where fewer than n remain (R182). -/
def getBits (n : Nat) (bits : BitSeq) : Except ErrCode (Nat × BitSeq) :=
  if n > bits.length then .error .underflow else getNum n bits

/-- A micro-operation that reads the stream: BIT_POS moves past what was read and `k` keeps the result; on an error the
DU raises it and BIT_POS stays (R181, R394). -/
def State.runReader {α : Type} (s : State) (r : Except ErrCode (α × BitSeq)) (k : α → Datapath → Datapath) : State :=
  match r with
  | .ok (v, rest) => { s with du := s.du.readTo rest, dp := k v s.dp }
  | .error e => { s with du := s.du.raise e }

/-! ## BitBuffer -/

/-- The buffer is emptied (R171). -/
def Cu.clear (u : Cu) : Cu := { u with obuf := [] }

/-- BB.CLEAR (R171). -/
def execBbClear (s : State) : Host.Outcome State Fault Refusal := .next { s with cu := s.cu.clear }

/-- BB.PUTBIT (R172). -/
def execBbPutbit (s : State) : Host.Outcome State Fault Refusal := .next (s.runCu (put [s.dp.opBit] s.cu))

/-- BB.PUTVAL: `put(BIT_n(v))`, the low n bits of v, the most significant first (R173). -/
def execBbPutval (s : State) : Host.Outcome State Fault Refusal :=
  .next (s.runCu (put (bitsMsb s.dp.opWidth.val s.dp.opVal.toNat) s.cu))

/-- BB.PUTVEC (R174). -/
def execBbPutvec (s : State) : Host.Outcome State Fault Refusal :=
  whenLengths (haveLength s.cu.fs.toNat [s.dp.opA]) (.next (s.runCu (put s.dp.opA s.cu)))

/-- BB.TOBYTES: the buffer is not changed (R175). -/
def execBbTobytes (s : State) : Host.Outcome State Fault Refusal :=
  .next { s with dp := { s.dp with resBytes := packBits s.cu.obuf } }

/-! ## BitReader -/

/-- BR.GETBIT (R181). -/
def execBrGetbit (s : State) : Host.Outcome State Fault Refusal :=
  .next (s.runReader (getBit (unreadBits s.du)) fun b d => { d with resBit := b })

/-- BR.GETBITS, for 0 <= n <= 32 (R182). -/
def execBrGetbits (s : State) : Host.Outcome State Fault Refusal :=
  .next (s.runReader (getBits s.dp.opWidth.val (unreadBits s.du)) fun v d => { d with resNum := v })

/-- BR.ALIGN (R183). -/
def execBrAlign (s : State) : Host.Outcome State Fault Refusal := .next { s with du := s.du.align }

/-- BR.REMAIN (R184). -/
def execBrRemain (s : State) : Host.Outcome State Fault Refusal :=
  .next { s with dp := { s.dp with resNum := remaining s.du } }

end Sys2Proof.Machine
end

