-- ==== Sys2Proof/Machine/CountRle.lean ====
section
/-! DEFINITION. The COUNT_RLE_encoder (R200 to R224): the COUNT code, run-length lists, bit extraction and insertion. -/

namespace Sys2Proof.Machine

/-! ## COUNT -/

/-- The code word of a count value A (R201), `floor(log2(A - 2)) + 1` bits of A - 2 in a field of
`2 * (floor(log2(A - 2)) + 1) - 6` in the long form. -/
def cntBits (a : Nat) : BitSeq :=
  if a = 0 then [true, false]
  else if a = 1 then [false]
  else if a ≤ 33 then [true, true, false] ++ bitsMsb 5 (a - 2)
  else [true, true, true] ++ bitsMsb (2 * ((a - 2).log2 + 1) - 6) (a - 2)

/-- The zeros after '111' before the first one, from `z` on; MALFORMED as soon as the eleventh is read (R204, R205). -/
def zeroRun (z : Nat) : BitSeq → Except ErrCode (Nat × BitSeq)
  | [] => .error .underflow
  | true :: r => .ok (z, r)
  | false :: r => if z + 1 = 11 then .error .malformed else zeroRun (z + 1) r

/-- CNT.DEC on the unread bits (R204). -/
def cntDec (bits : BitSeq) : Except ErrCode (Nat × BitSeq) := do
  let (b, r) ← getBit bits
  if b = false then .ok (1, r)
  else
    let (b, r) ← getBit r
    if b = false then .ok (0, r)
    else
      let (b, r) ← getBit r
      if b = false then
        let (v, r) ← getNum 5 r
        .ok (v + 2, r)
      else
        let (z, r) ← zeroRun 0 r
        let (v, r) ← getNum (z + 5) r
        .ok (2 ^ (z + 5) + v + 2, r)

/-- CNT.ENC: A is 0 to 65535 (R201). -/
def execCntEnc (s : State) : Host.Outcome State Fault Refusal :=
  .next (s.runCu (put (cntBits s.dp.opCount.toNat) s.cu))

/-- CNT.DEC (R204). -/
def execCntDec (s : State) : Host.Outcome State Fault Refusal :=
  .next (s.runReader (cntDec (unreadBits s.du)) fun v d => { d with resNum := v })

/-! ## Run-length lists -/

/-- The distances of R210 from the highest index down: `gap` is the distance from the last one bit (or from index F) to
the bit at hand. -/
def rleFrom (gap : Nat) : BitSeq → BitSeq
  | [] => cntBits 0
  | true :: r => cntBits gap ++ rleFrom 1 r
  | false :: r => rleFrom (gap + 1) r

/-- `RLE(v)` (R114, R210): the scan runs from the highest index to the lowest. -/
def rleBits (v : BitSeq) : BitSeq := rleFrom 1 v.reverse

/-- The loop of R212 with the vector held as its bits from `pos` on (those below are still 0). A distance is at least 1,
so `pos + 1` rounds suffice (`fuel`). -/
def rleDecFrom : Nat → Nat → BitSeq → BitSeq → Except ErrCode (BitSeq × BitSeq)
  | 0, _, _, _ => .error .malformed
  | fuel + 1, pos, acc, bits => do
    let (a, r) ← cntDec bits
    if a = 0 then .ok (zeros pos ++ acc, r)
    else if a > pos then .error .malformed
    else rleDecFrom fuel (pos - a) (true :: zeros (a - 1) ++ acc) r

/-- RLE.DEC of an F-bit vector (R212). -/
def rleDec (n : Nat) (bits : BitSeq) : Except ErrCode (BitSeq × BitSeq) := rleDecFrom (n + 1) n [] bits

/-- RLE.ENC (R210). -/
def execRleEnc (s : State) : Host.Outcome State Fault Refusal :=
  whenLengths (haveLength s.cu.fs.toNat [s.dp.opA]) (.next (s.runCu (put (rleBits s.dp.opA) s.cu)))

/-- RLE.DEC (R212). -/
def execRleDec (s : State) : Host.Outcome State Fault Refusal :=
  .next (s.runReader (rleDec s.du.fs.toNat (unreadBits s.du)) fun x d => { d with resVec := x })

/-! ## Bit extraction and insertion -/

/-- `BE.FWD(a, m)`: the bits of a at the set positions of m, lowest index first (R221). -/
def beFwd : BitSeq → BitSeq → BitSeq
  | x :: a, true :: m => x :: beFwd a m
  | _ :: a, false :: m => beFwd a m
  | _, _ => []

/-- `BE.REV(a, m)`: highest index first (R220). -/
def beRev (a m : BitSeq) : BitSeq := beFwd a.reverse m.reverse

/-- BI.FWD: `for i in asc(m): a[i] <- get(1)` (R223). -/
def biFwd : BitSeq → BitSeq → BitSeq → Except ErrCode (BitSeq × BitSeq)
  | _ :: a, true :: m, bits => do
    let (b, r) ← getBit bits
    let (a', r) ← biFwd a m r
    .ok (b :: a', r)
  | x :: a, false :: m, bits => do
    let (a', r) ← biFwd a m bits
    .ok (x :: a', r)
  | a, _, bits => .ok (a, bits)

/-- BI.REV: `for i in desc(m): a[i] <- get(1)` (R222). -/
def biRev (a m bits : BitSeq) : Except ErrCode (BitSeq × BitSeq) := do
  let (a', r) ← biFwd a.reverse m.reverse bits
  .ok (a'.reverse, r)

/-- BE.REV: data a, mask b (R220). -/
def execBeRev (s : State) : Host.Outcome State Fault Refusal :=
  whenLengths (haveLength s.cu.fs.toNat [s.dp.opA, s.dp.opB]) (.next (s.runCu (put (beRev s.dp.opA s.dp.opB) s.cu)))

/-- BE.FWD: data a, mask b (R221). -/
def execBeFwd (s : State) : Host.Outcome State Fault Refusal :=
  whenLengths (haveLength s.cu.fs.toNat [s.dp.opA, s.dp.opB]) (.next (s.runCu (put (beFwd s.dp.opA s.dp.opB) s.cu)))

/-- BI.REV: the vector a is read and written, mask b (R222). -/
def execBiRev (s : State) : Host.Outcome State Fault Refusal :=
  whenLengths (haveLength s.du.fs.toNat [s.dp.opA, s.dp.opB])
    (.next (s.runReader (biRev s.dp.opA s.dp.opB (unreadBits s.du)) fun v d => { d with opA := v }))

/-- BI.FWD: the vector a is read and written, mask b (R223). -/
def execBiFwd (s : State) : Host.Outcome State Fault Refusal :=
  whenLengths (haveLength s.du.fs.toNat [s.dp.opA, s.dp.opB])
    (.next (s.runReader (biFwd s.dp.opA s.dp.opB (unreadBits s.du)) fun v d => { d with opA := v }))

end Sys2Proof.Machine
end

