-- ==== Sys2Proof/Machine/HistoryWindow.lean ====
section
/-! DEFINITION. The packet_history_sliding_window (R260 to R268): the two rings, the robustness window X_t, the effective
robustness V_t and the flag c_t. -/

namespace Sys2Proof.Machine

/-- `hist[(hidx - i) mod 16]` (R260). -/
def histBack (u : Cu) (i : Nat) : BitSeq :=
  u.hist.get ⟨(u.hidx - BitVec.ofNat 4 i).toNat, (u.hidx - BitVec.ofNat 4 i).isLt⟩

/-- `fhist[(fidx - i) mod 16]` (R260). -/
def fhistBack (u : Cu) (i : Nat) : Bool :=
  u.fhist.get ⟨(u.fidx - BitVec.ofNat 4 i).toNat, (u.fidx - BitVec.ofNat 4 i).isLt⟩

/-- HW.PUSH: `hist[hidx] <- D` (R261). -/
def hwPush (u : Cu) : Cu := { u with hist := u.hist.set u.hidx.toNat u.tmp.change u.hidx.isLt }

/-- `hist[(hidx - 0) mod 16] | ... | hist[(hidx - n) mod 16]`, or-ed onto 0^F in that order (R262). -/
def windowOr (u : Cu) (n : Nat) : BitSeq :=
  (List.range (n + 1)).foldl (fun x i => vOr x (histBack u i)) (zeros u.fs.toNat)

/-- HW.XWIN (R262): the last min(t, R) + 1 change vectors. -/
def hwXwin (u : Cu) : Cu :=
  { u with tmp := { u.tmp with window := windowOr u (min u.t.toNat u.rs.toNat) } }

/-- The walk of R264 from i = 16 - fuel up to i = 15: the empty change vectors before the first that is not, or before the
walk passes D_0 where PRE_HISTORY_ZERO is false. -/
def emptyRun (preHistoryZero : Bool) (u : Cu) : Nat → Nat
  | 0 => 0
  | fuel + 1 =>
    if (15 - fuel ≤ u.t.toNat ∨ preHistoryZero = true) ∧ anySet (histBack u (15 - fuel)) = false then
      1 + emptyRun preHistoryZero u fuel
    else 0

/-- The effective robustness V_t (R264): the walk starts at i = R + 1. -/
def effectiveRobustness (preHistoryZero : Bool) (u : Cu) : Nat :=
  if u.t.toNat ≤ u.rs.toNat then u.rs.toNat
  else u.rs.toNat + emptyRun preHistoryZero u (15 - u.rs.toNat)

/-- HW.VEFF (R264). -/
def hwVeff (preHistoryZero : Bool) (u : Cu) : Cu :=
  { u with tmp := { u.tmp with veff := BitVec.ofNat 4 (effectiveRobustness preHistoryZero u) } }

/-- The new-mask flags of the current packet and of the previous V packets (R266). -/
def newMaskCount (u : Cu) : Nat :=
  u.tmp.p.toNat
    + (((List.range u.tmp.veff.toNat).map (· + 1)).filter fun i => i ≤ u.t.toNat && fhistBack u i).length

/-- HW.CT (R266). -/
def hwCt (u : Cu) : Cu := { u with tmp := { u.tmp with ct := 2 ≤ newMaskCount u } }

/-- HW.FPUSH: `fhist[fidx] <- p` (R267). -/
def hwFpush (u : Cu) : Cu := { u with fhist := u.fhist.set u.fidx.toNat u.tmp.p u.fidx.isLt }

/-- Every slot of the change-vector ring has F bits. -/
def histLengths (u : Cu) : Bool := haveLength u.fs.toNat u.hist.toList

/-- HW.PUSH (R261). -/
def execHwPush (s : State) : Host.Outcome State Fault Refusal :=
  whenLengths (haveLength s.cu.fs.toNat [s.cu.tmp.change]) (.next { s with cu := hwPush s.cu })

/-- HW.XWIN (R262). -/
def execHwXwin (s : State) : Host.Outcome State Fault Refusal :=
  whenLengths (histLengths s.cu) (.next { s with cu := hwXwin s.cu })

/-- HW.VEFF (R264). -/
def execHwVeff (s : State) : Host.Outcome State Fault Refusal :=
  whenLengths (histLengths s.cu) (.next { s with cu := hwVeff s.params.preHistoryZero s.cu })

/-- HW.CT (R266). -/
def execHwCt (s : State) : Host.Outcome State Fault Refusal := .next { s with cu := hwCt s.cu }

/-- HW.FPUSH (R267). -/
def execHwFpush (s : State) : Host.Outcome State Fault Refusal := .next { s with cu := hwFpush s.cu }

end Sys2Proof.Machine
end

