-- ==== Sys2Proof/Machine/MaskUpdate.lean ====
section
/-! DEFINITION. The adaptive_mask_state_machine (R240 to R245): the build, mask and change vectors of the CU. -/

namespace Sys2Proof.Machine

/-- MU.BUILD (R241): the old build vector is kept in `build_prev`. -/
def muBuild (u : Cu) : Cu :=
  { u with
    tmp := { u.tmp with buildPrev := u.build }
    build :=
      if u.t = 0 ∨ u.tmp.p = true then zeros u.fs.toNat else vOr u.build (vXor u.tmp.inp u.prevInput) }

/-- MU.MASK (R242). -/
def muMask (u : Cu) : Cu :=
  { u with
    mask :=
      if u.tmp.p = true then vOr (vXor u.tmp.inp u.prevInput) u.tmp.buildPrev
      else vOr u.mask (vXor u.tmp.inp u.prevInput) }

/-- MU.CHANGE (R243). -/
def muChange (u : Cu) : Cu :=
  { u with tmp := { u.tmp with change := if u.t = 0 then u.mask else vXor u.mask u.prevMask } }

/-- MU.BUILD (R241). -/
def execMuBuild (s : State) : Host.Outcome State Fault Refusal :=
  whenLengths (haveLength s.cu.fs.toNat [s.cu.build, s.cu.tmp.inp, s.cu.prevInput]) (.next { s with cu := muBuild s.cu })

/-- MU.MASK (R242). -/
def execMuMask (s : State) : Host.Outcome State Fault Refusal :=
  whenLengths (haveLength s.cu.fs.toNat [s.cu.mask, s.cu.tmp.inp, s.cu.prevInput, s.cu.tmp.buildPrev])
    (.next { s with cu := muMask s.cu })

/-- MU.CHANGE (R243). -/
def execMuChange (s : State) : Host.Outcome State Fault Refusal :=
  whenLengths (haveLength s.cu.fs.toNat [s.cu.mask, s.cu.prevMask]) (.next { s with cu := muChange s.cu })

end Sys2Proof.Machine
end

