-- ==== Sys2Proof/Machine/Compressor.lean ====
section
/-! DEFINITION. The compressor unit's commands C.INIT and C.PKT, and AP.NEXT (R290 to R313). -/

namespace Sys2Proof.Machine

/-! ## C.INIT -/

/-- The check of R291: F, R, and limits all zero or all nonzero (R293). -/
def cInitOk (u : Cu) : Bool :=
  1 ≤ u.cfgF.toNat && u.cfgF.toNat ≤ 65535 && u.cfgR.toNat ≤ 7
    && ((u.cfgPt = 0 && u.cfgFt = 0 && u.cfgRt = 0) || (u.cfgPt ≠ 0 && u.cfgFt ≠ 0 && u.cfgRt ≠ 0))

/-- The session that a successful C_INIT begins (R291, R292). -/
def cInitSession (u : Cu) : Cu :=
  let n := u.cfgF.toNat
  let auto := u.cfgPt ≠ 0
  { u with
    st := u.st.initDone
    auto := auto
    fs := u.cfgF.setWidth 16
    rs := u.cfgR.setWidth 3
    ptL := u.cfgPt
    ftL := u.cfgFt
    rtL := u.cfgRt
    mask := windowVector u.win cuInmask n
    prevMask := zeros n
    build := zeros n
    prevInput := zeros n
    hist := Vector.replicate 16 (zeros n)
    fhist := Vector.replicate 16 false
    hidx := 0
    fidx := 0
    t := 0
    ptCnt := if auto then u.cfgPt else 0
    ftCnt := if auto then u.cfgFt else 0
    rtCnt := if auto then u.cfgRt else 0
    obuf := []
    outBits := 0
    pktInfo := 0 }

/-- C_INIT (R291): a failed one changes only STATUS (R396). -/
def cInit (u : Cu) : Cu :=
  if cInitOk u then cInitSession u else { u with st := u.st.initFailed, auto := false }

/-- C.INIT (R291). -/
def execCInit (s : State) : Host.Outcome State Fault Refusal := .next { s with cu := cInit s.cu }

/-! ## Per-packet flags -/

/-- One countdown counter of R295: whether it fires, and its value after. -/
def countdown (cnt limit : Word) : Bool × Word := if cnt = 1 then (true, limit) else (false, cnt - 1)

/-- AP.NEXT (R295). -/
def apNext (u : Cu) : Cu :=
  if u.t.toNat ≤ u.rs.toNat then { u with tmp := { u.tmp with p := false, f := true, r := true } }
  else
    { u with
      tmp :=
        { u.tmp with
          p := (countdown u.ptCnt u.ptL).1
          f := (countdown u.ftCnt u.ftL).1
          r := (countdown u.rtCnt u.rtL).1 }
      ptCnt := (countdown u.ptCnt u.ptL).2
      ftCnt := (countdown u.ftCnt u.ftL).2
      rtCnt := (countdown u.rtCnt u.rtL).2 }

/-- AP.NEXT (R295), run alone. DESIGN CHOICE (notes/assumptions/20.md): it does not test AUTO, so in manual mode, where no
C_PKT calls it and the counters are 0 (R25), it takes them to 2^32 - 1. -/
def execApNext (s : State) : Host.Outcome State Fault Refusal := .next { s with cu := apNext s.cu }

/-- The flags of a packet: AP.NEXT in automatic mode, the command word's bits in manual mode (R296). -/
def packetFlags (nm sm uc : Bool) (u : Cu) : Cu :=
  if u.auto then apNext u else { u with tmp := { u.tmp with p := nm, f := sm, r := uc } }

/-! ## The packet's fields -/

/-- `d_t` (R302). -/
def dFlag (u : Cu) : Bool := !u.tmp.f && !u.tmp.r

/-- `e_t` where it is present, that is where V_t > 0 and X_t has a set bit (R111, R304). -/
def eFlag (u : Cu) : Option Bool :=
  if 0 < u.tmp.veff.toNat ∧ anySet u.tmp.window = true then some (anySet (vAnd u.tmp.window (vNot u.mask))) else none

/-- The optional part of h_t: e_t, and k_t and c_t where e_t is 1 (R304). -/
def directionBits (u : Cu) : BitSeq :=
  match eFlag u with
  | none => []
  | some false => [false]
  | some true => [true] ++ beFwd (vNot u.mask) u.tmp.window ++ [u.tmp.ct]

/-- `h_t` (R111, R303, R304). -/
def headerBits (u : Cu) : BitSeq :=
  rleBits u.tmp.window ++ bitsMsb 4 u.tmp.veff.toNat ++ directionBits u ++ [dFlag u]

/-- `q_t` (R112, R305). -/
def maskBits (u : Cu) : BitSeq :=
  if dFlag u then [] else if u.tmp.f then [true] ++ rleBits (vXor u.mask (vShl1 u.mask)) else [false]

/-- The extraction mask of a compressed u_t (R306). -/
def extractionMask (u : Cu) : BitSeq :=
  if u.tmp.ct = true ∧ 0 < u.tmp.veff.toNat then vOr u.mask u.tmp.window else u.mask

/-- `u_t` (R113, R307). -/
def dataBits (u : Cu) : BitSeq :=
  if u.tmp.r then [true] ++ cntBits u.fs.toNat ++ u.tmp.inp
  else (if dFlag u then [] else [false]) ++ beRev u.tmp.inp (extractionMask u)

/-! ## C.PKT -/

/-- The mask update of a packet (R240): the mask is saved, and for t > 0 the build vector and the mask are updated. -/
def updateMask (u : Cu) : Cu :=
  let u := { u with prevMask := u.mask }
  if u.t ≠ 0 then muMask (muBuild u) else u

/-- C_PKT up to the emission of the packet (R300): the input, its flags, the mask update, the change vector, the window,
V_t and c_t. -/
def cPktPrepare (preHistoryZero nm sm uc : Bool) (u : Cu) : Cu :=
  let u := { u with tmp := { u.tmp with inp := windowVector u.win cuIn u.fs.toNat } }
  let u := (packetFlags nm sm uc u).clear
  hwCt (hwVeff preHistoryZero (hwXwin (hwPush (muChange (updateMask u)))))

/-- Emit h_t, q_t and u_t (R110, R300). -/
def cPktEmit (u : Cu) : Except ErrCode Cu := do
  let u ← put (headerBits u) u
  let u ← put (maskBits u) u
  put (dataBits u) u

/-- The commit of a packet (R308). -/
def cPktCommit (u : Cu) : Cu :=
  let u := { u with
    win := writeBytes u.win cuOut (packBits u.obuf)
    outBits := BitVec.ofNat 32 u.obuf.length
    prevInput := u.tmp.inp }
  let u := hwFpush u
  { u with
    hidx := u.hidx + 1
    fidx := u.fidx + 1
    t := satInc u.t
    pktInfo :=
      pktInfoWord u.tmp.veff (eFlag u).isSome ((eFlag u).getD false) u.tmp.ct (dFlag u) u.tmp.p u.tmp.f u.tmp.r
    st := u.st.report .ok }

/-- C_PKT on a ready unit with the right IN_LEN (R300). -/
def cPktRun (preHistoryZero nm sm uc : Bool) (u : Cu) : Except ErrCode Cu := do
  let u ← cPktEmit (cPktPrepare preHistoryZero nm sm uc u)
  .ok (cPktCommit u)

/-- C_PKT (R300), its checks in the order of R395: NOT_READY changes only ERR (R398), any later error faults the session
and leaves everything else as it was (R394). -/
def cPkt (preHistoryZero nm sm uc : Bool) (u : Cu) : Cu :=
  if u.st.ready = false then { u with st := u.st.report .notReady }
  else if u.inLen.toNat ≠ byteCount u.fs.toNat then u.raise .invalidArgument
  else u.orRaise (cPktRun preHistoryZero nm sm uc u)

/-- C.PKT (R300). -/
def execCPkt (nm sm uc : Bool) (s : State) : Host.Outcome State Fault Refusal :=
  .next { s with cu := cPkt s.params.preHistoryZero nm sm uc s.cu }

end Sys2Proof.Machine
end

