-- ==== Sys2Proof/Machine/Decompressor.lean ====
section
/-! DEFINITION. The decompressor unit's commands D.INIT, D.LOAD, D.PKT and D.ALIGN (R340 to R362). -/

namespace Sys2Proof.Machine

/-! ## D.INIT and the reader's commands -/

/-- The check of R341. -/
def dInitOk (u : Du) : Bool := 1 ≤ u.cfgF.toNat && u.cfgF.toNat ≤ 65535 && u.cfgR.toNat ≤ 7

/-- The session that a successful D_INIT begins (R341): the reader, CTRL and the windows stay. -/
def dInitSession (u : Du) : Du :=
  let n := u.cfgF.toNat
  { u with
    st := u.st.initDone
    fs := u.cfgF.setWidth 16
    rs := u.cfgR.setWidth 3
    dmask := zeros n
    prevOutput := zeros n
    pos := zeros n
    t := 0
    pktInfo := 0
    lastCountF := 0 }

/-- D_INIT (R341): a failed one changes only STATUS (R396). -/
def dInit (u : Du) : Du := if dInitOk u then dInitSession u else { u with st := u.st.initFailed }

/-- D.INIT (R341). -/
def execDInit (s : State) : Host.Outcome State Fault Refusal := .next { s with du := dInit s.du }

/-- D_LOAD (R345): a STREAM_LEN over the capacity is reported and changes nothing else. -/
def dLoad (cap : Nat) (u : Du) : Du :=
  if u.streamLen.toNat > cap then { u with st := u.st.report .invalidArgument }
  else
    { u with
      numBits := BitVec.ofNat 32 (8 * u.streamLen.toNat)
      bitPos := 0
      st := u.st.report .ok }

/-- D.LOAD (R345). -/
def execDLoad (s : State) : Host.Outcome State Fault Refusal := .next { s with du := dLoad s.params.streamCap s.du }

/-- D.ALIGN (R360). -/
def execDAlign (s : State) : Host.Outcome State Fault Refusal :=
  .next { s with du := { s.du.align with st := s.du.st.report .ok } }

/-! ## The fields of a packet -/

/-- What the direction fields give (R352, R353). -/
structure Direction where
  /-- an e_t bit was read -/
  ePresent : Bool
  /-- that bit, else 0 -/
  e : Bool
  /-- the c_t bit, else 0 -/
  c : Bool
  /-- the mask after them -/
  m : BitSeq
  /-- the positive changes -/
  pos : BitSeq
  deriving DecidableEq, Repr

/-- What the mask field gives (R354). -/
structure MaskField where
  /-- d_t -/
  d : Bool
  /-- the send-mask bit, else 0 -/
  fb : Bool
  /-- the uncompressed bit, else 0 -/
  r : Bool
  /-- the mask after it -/
  m : BitSeq
  deriving DecidableEq, Repr

/-- A packet as D_PKT reads it. -/
structure Packet where
  /-- V_t -/
  v : Nat
  /-- the direction fields -/
  dir : Direction
  /-- the mask field -/
  mf : MaskField
  /-- the value of COUNT(F), where there is one -/
  lcf : Option Nat
  /-- the reconstructed packet -/
  out : BitSeq
  deriving DecidableEq, Repr

/-- The k_t bits, one for every set bit of x in ascending order (R352): 1 clears the mask bit and records the position, 0
sets it. -/
def readDirections : BitSeq → BitSeq → BitSeq → Except ErrCode ((BitSeq × BitSeq) × BitSeq)
  | true :: x, _ :: m, bits => do
    let (k, rest) ← getBit bits
    let ((m', pos), rest) ← readDirections x m rest
    .ok (((!k) :: m', k :: pos), rest)
  | false :: x, b :: m, bits => do
    let ((m', pos), rest) ← readDirections x m bits
    .ok ((b :: m', false :: pos), rest)
  | _, m, bits => .ok ((m, zeros m.length), bits)

/-- The direction fields (R352), or the toggle where V = 0 (R353). -/
def readDirection (v : Nat) (x m bits : BitSeq) : Except ErrCode (Direction × BitSeq) :=
  if 0 < v ∧ anySet x = true then do
    let (e, rest) ← getBit bits
    if e = true then
      let ((m', pos), rest) ← readDirections x m rest
      let (c, rest) ← getBit rest
      .ok ({ ePresent := true, e := true, c := c, m := m', pos := pos }, rest)
    else
      .ok ({ ePresent := true, e := false, c := false, m := vOr m x, pos := zeros m.length }, rest)
  else
    .ok ({ ePresent := false, e := false, c := false, m := if anySet x = true then vXor m x else m,
           pos := zeros m.length }, bits)

/-- The running XOR from the last bit to the first: `m[F-1] = delta[F-1]`, `m[i] = delta[i] ^ m[i+1]` (R354). -/
def undelta : BitSeq → BitSeq
  | [] => []
  | d :: r => (d ^^ (undelta r).headD false) :: undelta r

/-- The mask field (R354). -/
def readMaskField (n : Nat) (m bits : BitSeq) : Except ErrCode (MaskField × BitSeq) := do
  let (d, rest) ← getBit bits
  if d = true then .ok ({ d := true, fb := false, r := false, m := m }, rest)
  else
    let (fb, rest) ← getBit rest
    if fb = true then
      let (delta, rest) ← rleDec n rest
      let (r, rest) ← getBit rest
      .ok ({ d := false, fb := true, r := r, m := undelta delta }, rest)
    else
      let (r, rest) ← getBit rest
      .ok ({ d := false, fb := false, r := r, m := m }, rest)

/-- The decoder's extraction mask (R357). -/
def decoderMask (v : Nat) (c : Bool) (m pos : BitSeq) : BitSeq := if c = true ∧ 0 < v then vOr m pos else m

/-- The data field (R355, R356). -/
def readData (n v : Nat) (dir : Direction) (mf : MaskField) (out bits : BitSeq) :
    Except ErrCode ((Option Nat × BitSeq) × BitSeq) :=
  if mf.r = true then do
    let (lcf, rest) ← cntDec bits
    let (raw, rest) ← getVec n rest
    .ok ((some lcf, raw), rest)
  else do
    let (out', rest) ← biRev out (decoderMask v dir.c mf.m dir.pos) bits
    .ok ((none, out'), rest)

/-- One packet read from the unread bits, from the mask and the last output (R350 to R357). -/
def readPacket (n : Nat) (dmask prevOutput bits : BitSeq) : Except ErrCode (Packet × BitSeq) := do
  let (x, rest) ← rleDec n bits
  let (v, rest) ← getNum 4 rest
  let (dir, rest) ← readDirection v x dmask rest
  let (mf, rest) ← readMaskField n dir.m rest
  let ((lcf, out), rest) ← readData n v dir mf prevOutput rest
  .ok ({ v := v, dir := dir, mf := mf, lcf := lcf, out := out }, rest)

/-! ## D.PKT -/

/-- The commit of a packet (R358); `rest` is what the packet leaves unread. -/
def dPktCommit (u : Du) (k : Packet) (rest : BitSeq) : Du :=
  let u := { u.readTo rest with
    dmask := k.mf.m
    prevOutput := k.out
    pos := k.dir.pos
    win := writeBytes u.win duOut (packBits k.out)
    t := satInc u.t
    pktInfo :=
      pktInfoWord (BitVec.ofNat 4 k.v) k.dir.ePresent k.dir.e k.dir.c k.mf.d false k.mf.fb k.mf.r
    lastCountF :=
      match k.lcf with
      | some n => BitVec.ofNat 32 n
      | none => u.lastCountF
    st := u.st.report .ok }
  if u.autoAlign then u.align else u

/-- D_PKT (R350), its checks in the order of R395. -/
def dPkt (u : Du) : Du :=
  if u.st.ready = false then { u with st := u.st.report .notReady }
  else
    match readPacket u.fs.toNat u.dmask u.prevOutput (unreadBits u) with
    | .ok (k, rest) => dPktCommit u k rest
    | .error e => u.raise e

/-- D.PKT (R350). -/
def execDPkt (s : State) : Host.Outcome State Fault Refusal := .next { s with du := dPkt s.du }

end Sys2Proof.Machine
end

