-- ==== Sys2Proof/Machine/WireForms.lean ====
section
/-! DEFINITION. The COUNT code words of the wire format as instructions of the reader (R115, R116, R202, R205): the code
word at the cursor is read and its value delivered. -/

namespace Sys2Proof.Machine

/-- Read the bits of a code word: UNDERFLOW where the stream ends inside them, and otherwise the reader's cursor moves
past them (R116, R181). -/
def readCode (i : Instr) (bits : BitSeq) : Except ErrCode (Nat × BitSeq) :=
  if (wireBits i).length > bits.length then .error .underflow
  else .ok (countValue i, bits.drop (wireBits i).length)

/-- A COUNT code word with a value (R115, R204). -/
def State.readCount (s : State) (i : Instr) : State :=
  s.runReader (readCode i (unreadBits s.du)) fun v d => { d with resNum := v }

/-- COUNT_ONE (R115). -/
def execCountOne (s : State) : Host.Outcome State Fault Refusal := .next (s.readCount .countOne)

/-- COUNT_TERM (R115). -/
def execCountTerm (s : State) : Host.Outcome State Fault Refusal := .next (s.readCount .countTerm)

/-- COUNT_SHORT (R115). -/
def execCountShort (a : Nat) (s : State) : Host.Outcome State Fault Refusal := .next (s.readCount (.countShort a))

/-- COUNT_LONG_E6 (R202). -/
def execCountLongE6 (a : Nat) (s : State) : Host.Outcome State Fault Refusal := .next (s.readCount (.countLongE6 a))

/-- COUNT_LONG_E8 (R202). -/
def execCountLongE8 (a : Nat) (s : State) : Host.Outcome State Fault Refusal := .next (s.readCount (.countLongE8 a))

/-- COUNT_LONG_E10 (R202). -/
def execCountLongE10 (a : Nat) (s : State) : Host.Outcome State Fault Refusal := .next (s.readCount (.countLongE10 a))

/-- COUNT_LONG_E12 (R202). -/
def execCountLongE12 (a : Nat) (s : State) : Host.Outcome State Fault Refusal := .next (s.readCount (.countLongE12 a))

/-- COUNT_LONG_E14 (R202). -/
def execCountLongE14 (a : Nat) (s : State) : Host.Outcome State Fault Refusal := .next (s.readCount (.countLongE14 a))

/-- COUNT_LONG_E16 (R202). -/
def execCountLongE16 (a : Nat) (s : State) : Host.Outcome State Fault Refusal := .next (s.readCount (.countLongE16 a))

/-- COUNT_LONG_E18 (R202). -/
def execCountLongE18 (a : Nat) (s : State) : Host.Outcome State Fault Refusal := .next (s.readCount (.countLongE18 a))

/-- COUNT_LONG_E20 (R202). -/
def execCountLongE20 (a : Nat) (s : State) : Host.Outcome State Fault Refusal := .next (s.readCount (.countLongE20 a))

/-- COUNT_LONG_E22 (R202). -/
def execCountLongE22 (a : Nat) (s : State) : Host.Outcome State Fault Refusal := .next (s.readCount (.countLongE22 a))

/-- COUNT_LONG_E24 (R202). -/
def execCountLongE24 (a : Nat) (s : State) : Host.Outcome State Fault Refusal := .next (s.readCount (.countLongE24 a))

/-- COUNT_LONG_E26 (R202). -/
def execCountLongE26 (a : Nat) (s : State) : Host.Outcome State Fault Refusal := .next (s.readCount (.countLongE26 a))

/-- COUNT_MALFORMED: the reader raises MALFORMED as soon as it has read the eleventh zero, and UNDERFLOW where the stream
ends before it (R204, R205). -/
def execCountMalformed (s : State) : Host.Outcome State Fault Refusal :=
  if (wireBits .countMalformed).length > remaining s.du then .next { s with du := s.du.raise .underflow }
  else .next { s with du := s.du.raise .malformed }

end Sys2Proof.Machine
end

