-- ==== Sys2Proof/Machine/Dispatch.lean ====
section
/-! DEFINITION. One arm per instruction of the opcode table. -/

namespace Sys2Proof.Machine

/-- What an instruction does. -/
def exec (i : Instr) (s : State) : Host.Outcome State Fault Refusal :=
  match i with
  | .cInit => Sys2Proof.Machine.execCInit s
  | .cPkt nm sm uc => Sys2Proof.Machine.execCPkt nm sm uc s
  | .dInit => Sys2Proof.Machine.execDInit s
  | .dLoad => Sys2Proof.Machine.execDLoad s
  | .dPkt => Sys2Proof.Machine.execDPkt s
  | .dAlign => Sys2Proof.Machine.execDAlign s
  | .bvXor => Sys2Proof.Machine.execBvXor s
  | .bvOr => Sys2Proof.Machine.execBvOr s
  | .bvAnd => Sys2Proof.Machine.execBvAnd s
  | .bvNot => Sys2Proof.Machine.execBvNot s
  | .bvShl1 => Sys2Proof.Machine.execBvShl1 s
  | .bvRev => Sys2Proof.Machine.execBvRev s
  | .bvPopcnt => Sys2Proof.Machine.execBvPopcnt s
  | .bvGet => Sys2Proof.Machine.execBvGet s
  | .bvSet => Sys2Proof.Machine.execBvSet s
  | .bvZero => Sys2Proof.Machine.execBvZero s
  | .bvUnpack => Sys2Proof.Machine.execBvUnpack s
  | .bvPack => Sys2Proof.Machine.execBvPack s
  | .bbClear => Sys2Proof.Machine.execBbClear s
  | .bbPutbit => Sys2Proof.Machine.execBbPutbit s
  | .bbPutval => Sys2Proof.Machine.execBbPutval s
  | .bbPutvec => Sys2Proof.Machine.execBbPutvec s
  | .bbTobytes => Sys2Proof.Machine.execBbTobytes s
  | .brGetbit => Sys2Proof.Machine.execBrGetbit s
  | .brGetbits => Sys2Proof.Machine.execBrGetbits s
  | .brAlign => Sys2Proof.Machine.execBrAlign s
  | .brRemain => Sys2Proof.Machine.execBrRemain s
  | .cntEnc => Sys2Proof.Machine.execCntEnc s
  | .cntDec => Sys2Proof.Machine.execCntDec s
  | .rleEnc => Sys2Proof.Machine.execRleEnc s
  | .rleDec => Sys2Proof.Machine.execRleDec s
  | .beRev => Sys2Proof.Machine.execBeRev s
  | .beFwd => Sys2Proof.Machine.execBeFwd s
  | .biRev => Sys2Proof.Machine.execBiRev s
  | .biFwd => Sys2Proof.Machine.execBiFwd s
  | .muBuild => Sys2Proof.Machine.execMuBuild s
  | .muMask => Sys2Proof.Machine.execMuMask s
  | .muChange => Sys2Proof.Machine.execMuChange s
  | .hwPush => Sys2Proof.Machine.execHwPush s
  | .hwXwin => Sys2Proof.Machine.execHwXwin s
  | .hwVeff => Sys2Proof.Machine.execHwVeff s
  | .hwCt => Sys2Proof.Machine.execHwCt s
  | .hwFpush => Sys2Proof.Machine.execHwFpush s
  | .apNext => Sys2Proof.Machine.execApNext s
  | .countOne => Sys2Proof.Machine.execCountOne s
  | .countTerm => Sys2Proof.Machine.execCountTerm s
  | .countShort a => Sys2Proof.Machine.execCountShort a s
  | .countLongE6 a => Sys2Proof.Machine.execCountLongE6 a s
  | .countLongE8 a => Sys2Proof.Machine.execCountLongE8 a s
  | .countLongE10 a => Sys2Proof.Machine.execCountLongE10 a s
  | .countLongE12 a => Sys2Proof.Machine.execCountLongE12 a s
  | .countLongE14 a => Sys2Proof.Machine.execCountLongE14 a s
  | .countLongE16 a => Sys2Proof.Machine.execCountLongE16 a s
  | .countLongE18 a => Sys2Proof.Machine.execCountLongE18 a s
  | .countLongE20 a => Sys2Proof.Machine.execCountLongE20 a s
  | .countLongE22 a => Sys2Proof.Machine.execCountLongE22 a s
  | .countLongE24 a => Sys2Proof.Machine.execCountLongE24 a s
  | .countLongE26 a => Sys2Proof.Machine.execCountLongE26 a s
  | .countMalformed => Sys2Proof.Machine.execCountMalformed s

end Sys2Proof.Machine
end

