-- ==== Sys2Proof/Machine/HostPort.lean ====
section
/-! DEFINITION. The host interface: the register maps (R34, R44), the address map and access rules (R70 to R77), issuing a
command (R100, R102), the BUSY hazard (R421) and the reset input (R420). -/

namespace Sys2Proof.Machine

/-! ## Registers -/

/-- The CU's registers (R34). -/
inductive CuReg where
  | cmd | status | cfgF | cfgR | cfgPt | cfgFt | cfgRt | inLen | t | outBits | ptCnt | ftCnt | rtCnt | pktInfo
  deriving DecidableEq, Repr

/-- The DU's registers (R44). -/
inductive DuReg where
  | cmd | status | cfgF | cfgR | ctrl | streamLen | bitPos | numBits | t | pktInfo | lastCountF
  deriving DecidableEq, Repr

/-- The CU register at an offset (R34). -/
def cuRegAt : Nat → Option CuReg
  | 0x000 => some .cmd
  | 0x004 => some .status
  | 0x008 => some .cfgF
  | 0x00C => some .cfgR
  | 0x010 => some .cfgPt
  | 0x014 => some .cfgFt
  | 0x018 => some .cfgRt
  | 0x01C => some .inLen
  | 0x020 => some .t
  | 0x024 => some .outBits
  | 0x028 => some .ptCnt
  | 0x02C => some .ftCnt
  | 0x030 => some .rtCnt
  | 0x034 => some .pktInfo
  | _ => none

/-- The DU register at an offset (R44). -/
def duRegAt : Nat → Option DuReg
  | 0x000 => some .cmd
  | 0x004 => some .status
  | 0x008 => some .cfgF
  | 0x00C => some .cfgR
  | 0x010 => some .ctrl
  | 0x014 => some .streamLen
  | 0x018 => some .bitPos
  | 0x01C => some .numBits
  | 0x020 => some .t
  | 0x024 => some .pktInfo
  | 0x028 => some .lastCountF
  | _ => none

/-- What a CU register reads; CMD is write-only and reads 0 (R34). -/
def Cu.readReg (u : Cu) : CuReg → Word
  | .cmd => 0
  | .status => u.statusWord
  | .cfgF => u.cfgF
  | .cfgR => u.cfgR
  | .cfgPt => u.cfgPt
  | .cfgFt => u.cfgFt
  | .cfgRt => u.cfgRt
  | .inLen => u.inLen
  | .t => u.t
  | .outBits => u.outBits
  | .ptCnt => u.ptCnt
  | .ftCnt => u.ftCnt
  | .rtCnt => u.rtCnt
  | .pktInfo => u.pktInfo

/-- What a DU register reads; CTRL bits [31:1] read 0 (R44, R47). -/
def Du.readReg (u : Du) : DuReg → Word
  | .cmd => 0
  | .status => u.statusWord
  | .cfgF => u.cfgF
  | .cfgR => u.cfgR
  | .ctrl => BitVec.ofNat 32 (flagAt 0 u.autoAlign)
  | .streamLen => u.streamLen
  | .bitPos => u.bitPos
  | .numBits => u.numBits
  | .t => u.t
  | .pktInfo => u.pktInfo
  | .lastCountF => u.lastCountF

/-- A write to CMD of a unit that is not BUSY: a legal word starts its command, an illegal one is BAD_COMMAND (R102). -/
def Status.issue (u : CodecUnit) (w : Word) (s : Status) : Status :=
  match decode (.command u w) with
  | .ok _ => { s with cmd := some w }
  | .error _ => s.report .badCommand

/-- A write to a CU register; writes to RO registers are ignored (R34). -/
def Cu.writeReg (u : Cu) (w : Word) : CuReg → Cu
  | .cmd => { u with st := u.st.issue .cu w }
  | .status => u
  | .cfgF => { u with cfgF := w }
  | .cfgR => { u with cfgR := w }
  | .cfgPt => { u with cfgPt := w }
  | .cfgFt => { u with cfgFt := w }
  | .cfgRt => { u with cfgRt := w }
  | .inLen => { u with inLen := w }
  | .t => u
  | .outBits => u
  | .ptCnt => u
  | .ftCnt => u
  | .rtCnt => u
  | .pktInfo => u

/-- A write to a DU register; writes to RO registers and to CTRL's reserved bits are ignored (R44, R47). -/
def Du.writeReg (u : Du) (w : Word) : DuReg → Du
  | .cmd => { u with st := u.st.issue .du w }
  | .status => u
  | .cfgF => { u with cfgF := w }
  | .cfgR => { u with cfgR := w }
  | .ctrl => { u with autoAlign := w.getLsbD 0 }
  | .streamLen => { u with streamLen := w }
  | .bitPos => u
  | .numBits => u
  | .t => u
  | .pktInfo => u
  | .lastCountF => u

/-! ## Windows and targets -/

/-- Whether a CU region offset is a window byte, and whether the host may write it (R73). -/
def cuWindowAt (off : Nat) : Option Bool :=
  if 0x01000 ≤ off ∧ off < 0x05000 then some true
  else if 0x10000 ≤ off ∧ off < 0x70000 then some false
  else none

/-- Whether a DU region offset is a window byte, and whether the host may write it; only the first `cap` bytes of STREAM
exist (R74). -/
def duWindowAt (cap off : Nat) : Option Bool :=
  if 0x03000 ≤ off ∧ off < 0x05000 then some false
  else if 0x10000 ≤ off ∧ off < 0x70000 ∧ off < 0x10000 + cap then some true
  else none

/-- What an access reaches (R76): a register, a byte of a window, four bytes of a window, or nothing at all (R77). -/
inductive Target (ρ : Type) where
  | reg (r : ρ)
  | byte (off : Nat) (writable : Bool)
  | word (off : Nat) (writable : Bool)
  | nowhere
  deriving DecidableEq, Repr

/-- The target of an access of a width at a region offset (R71, R76, R77). A 32-bit access needs all its four bytes in the
window (notes/assumptions/7.md). -/
def target {ρ : Type} (regAt : Nat → Option ρ) (windowAt : Nat → Option Bool) (w : Width) (off : Nat) : Target ρ :=
  match w with
  | .byte =>
    match windowAt off with
    | some writable => .byte off writable
    | none => .nowhere
  | .word =>
    if off % 4 ≠ 0 then .nowhere
    else if off < 0x1000 then
      match regAt off with
      | some r => .reg r
      | none => .nowhere
    else
      match windowAt off, windowAt (off + 3) with
      | some writable, some _ => .word off writable
      | _, _ => .nowhere
  | .half => .nowhere
  | .other => .nowhere

/-- The target of an access to the CU. -/
def cuTarget (w : Width) (off : Nat) : Target CuReg := target cuRegAt cuWindowAt w off

/-- The target of an access to the DU. -/
def duTarget (cap : Nat) (w : Width) (off : Nat) : Target DuReg := target duRegAt (duWindowAt cap) w off

/-- The unit and the region offset that an address names (R70); none outside both regions. -/
def locate (p : Params) (addr : Nat) : Option (CodecUnit × Nat) :=
  if p.cBase ≤ addr ∧ addr < p.cBase + regionBytes then some (.cu, addr - p.cBase)
  else if p.dBase ≤ addr ∧ addr < p.dBase + regionBytes then some (.du, addr - p.dBase)
  else none

/-! ## Reads -/

/-- A read that returns a value and changes nothing else (R83). -/
def State.returns (s : State) (v : Word) : State := { s with readData := v }

/-- A read of a BUSY unit that returns an arbitrary value, drawn for this read alone (R421). -/
def State.draws (s : State) (w : Width) : State :=
  let v := Config.busyRead s.drawn
  { s with readData := if w = .byte then (v.setWidth 8).setWidth 32 else v, drawn := s.drawn + 1 }

/-- A host read of the CU (R76, R77, R421): STATUS is current also while the unit is BUSY. -/
def cuRead (s : State) (w : Width) (off : Nat) : State :=
  match cuTarget w off with
  | .nowhere => s.returns 0
  | .reg .status => s.returns (s.cu.readReg .status)
  | .reg r => if s.cu.st.busy then s.draws w else s.returns (s.cu.readReg r)
  | .byte a _ => if s.cu.st.busy then s.draws w else s.returns ((readByte s.cu.win a).setWidth 32)
  | .word a _ => if s.cu.st.busy then s.draws w else s.returns (readWordLe s.cu.win a)

/-- A host read of the DU (R76, R77, R421). -/
def duRead (s : State) (w : Width) (off : Nat) : State :=
  match duTarget s.params.streamCap w off with
  | .nowhere => s.returns 0
  | .reg .status => s.returns (s.du.readReg .status)
  | .reg r => if s.du.st.busy then s.draws w else s.returns (s.du.readReg r)
  | .byte a _ => if s.du.st.busy then s.draws w else s.returns ((readByte s.du.win a).setWidth 32)
  | .word a _ => if s.du.st.busy then s.draws w else s.returns (readWordLe s.du.win a)

/-! ## Writes -/

/-- The CU after a host write to one of its registers or windows while it is not BUSY. -/
def Cu.hostWrite (u : Cu) (v : Word) : Target CuReg → Cu
  | .nowhere => u
  | .reg r => u.writeReg v r
  | .byte a writable => if writable then { u with win := writeByte u.win a (v.setWidth 8) } else u
  | .word a writable => if writable then { u with win := writeBytes u.win a (wordBytesLe v) } else u

/-- The DU after a host write to one of its registers or windows while it is not BUSY. -/
def Du.hostWrite (u : Du) (v : Word) : Target DuReg → Du
  | .nowhere => u
  | .reg r => u.writeReg v r
  | .byte a writable => if writable then { u with win := writeByte u.win a (v.setWidth 8) } else u
  | .word a writable => if writable then { u with win := writeBytes u.win a (wordBytesLe v) } else u

/-- A write to a BUSY unit is ignored and sets HZD (R421). -/
def Status.hazardous (s : Status) : Status := { s with hazard := true }

/-- A host write to the CU (R76, R77, R421). -/
def cuWrite (u : Cu) (w : Width) (off : Nat) (v : Word) : Cu :=
  match cuTarget w off with
  | .nowhere => u
  | tgt => if u.st.busy then { u with st := u.st.hazardous } else u.hostWrite v tgt

/-- A host write to the DU (R76, R77, R421). -/
def duWrite (cap : Nat) (u : Du) (w : Width) (off : Nat) (v : Word) : Du :=
  match duTarget cap w off with
  | .nowhere => u
  | tgt => if u.st.busy then { u with st := u.st.hazardous } else u.hostWrite v tgt

/-! ## The host's turn -/

/-- The reset input: both units as R57 says, whatever they were doing (R420). What is the host's own (its accesses still
to come, the turns, the value it read last) and the parameters stay. -/
def State.hardwareReset (s : State) : State :=
  { s with cu := Cu.reset, du := Du.reset, dp := Datapath.reset, micro := none }

/-- One action of the host (R85: in the host's program order). -/
def hostAct (s : State) : HostAction → Host.Outcome State Fault Refusal
  | .reset => .next s.hardwareReset
  | .read w addr =>
    match locate s.params addr with
    | some (.cu, off) => .next (cuRead s w off)
    | some (.du, off) => .next (duRead s w off)
    | none => .fault .outsideRegions
  | .write w addr v =>
    match locate s.params addr with
    | some (.cu, off) => .next { s with cu := cuWrite s.cu w off v }
    | some (.du, off) => .next { s with du := duWrite s.params.streamCap s.du w off v }
    | none => .fault .outsideRegions

/-- The host's turn: its next action, or nothing where it has none left. -/
def hostTurn (s : State) : Host.Outcome State Fault Refusal :=
  match s.host with
  | [] => .next s
  | a :: rest => hostAct { s with host := rest } a

/-! ## Whose turn, and what it runs -/

/-- Who moves: the head of `turns`; where it is empty, a BUSY unit before the host (notes/assumptions/5.md). -/
def State.nextTurn (s : State) : Turn :=
  match s.turns with
  | t :: _ => t
  | [] => if s.cu.st.busy then .unit .cu else if s.du.st.busy then .unit .du else .host

/-- The state once that turn is taken. -/
def State.passTurn (s : State) : State := { s with turns := s.turns.tail }

/-- The command word in execution in a unit (R421). -/
def State.pending (s : State) : CodecUnit → Option Word
  | .cu => s.cu.st.cmd
  | .du => s.du.st.cmd

/-- A unit's command completes in this step: BUSY returns to 0 (R421, R423). -/
def State.complete (s : State) : CodecUnit → State
  | .cu => { s with cu := { s.cu with st := { s.cu.st with cmd := none } } }
  | .du => { s with du := { s.du with st := { s.du.st with cmd := none } } }

/-- What the next step runs, if it runs an instruction: its bits, and the state in which it runs. A micro-operation that
stands before the datapath goes first; the code word of the stream stands at BIT_POS; a unit whose turn it is runs the
command word it has accepted. -/
def State.fetch (s : State) : Option (Code × State) :=
  match s.micro with
  | some (.uop b) => some (.uop b, { s with micro := none })
  | some .wire => some (.wire (unreadBits s.du), { s with micro := none })
  | none =>
    match s.nextTurn with
    | .host => none
    | .unit u =>
      match s.pending u with
      | some w => some (.command u w, s.passTurn.complete u)
      | none => none

/-- A step that runs no instruction: the host's action, or an idle unit, which "does nothing" (R390). -/
def quietStep (s : State) : Host.Outcome State Fault Refusal :=
  match s.nextTurn with
  | .host => hostTurn s.passTurn
  | .unit _ => .next s.passTurn

/-- Bits that are no instruction: BAD_COMMAND for a command word (R393), UNDERFLOW where the stream ends inside a code
word (R181, R204); an unlisted micro-operation code has no meaning (V5). -/
def rejected (s : State) : DecodeError → Host.Outcome State Fault Refusal
  | .badCommand u => .next (s.badCommand u)
  | .unknownUop _ => .refused .unknownUop
  | .incomplete => .next { s with du := s.du.raise .underflow }

/-! ## Placing an instruction -/

/-- The stream holding these bits from its first bit on, 32 bits of it valid, and the reader before them. -/
def Du.withStream (u : Du) (bits : BitSeq) : Du :=
  { u with win := writeBytes u.win duStream (bytesOf 4 bits), numBits := 32, bitPos := 0 }

/-- The state in which the next step fetches this code (notes/assumptions/8.md). -/
def State.place (s : State) : Code → State
  | .command .cu w =>
    { s with micro := none, turns := [.unit .cu], cu := { s.cu with st := { s.cu.st with cmd := some w } } }
  | .command .du w =>
    { s with micro := none, turns := [.unit .du], du := { s.du with st := { s.du.st with cmd := some w } } }
  | .uop b => { s with micro := some (.uop b) }
  | .wire bits => { s with micro := some .wire, du := s.du.withStream bits }

/-- The code that `nbits` bits of value `w` stand for in the opcode table's numbering, also where they decode to nothing:
then a 32-bit number is a CU command word, an 8-bit one a micro-operation code, any other a string of the stream. -/
def placedCode (nbits w : Nat) : Code :=
  match tableCode nbits w with
  | some c => c
  | none =>
    if nbits = 32 then .command .cu (BitVec.ofNat 32 w)
    else if nbits = 8 then .uop (BitVec.ofNat 8 w)
    else .wire (wireOfNat w)

end Sys2Proof.Machine
end

