-- ==== Sys2Proof/Machine/Step.lean ====
section
/-! DEFINITION. One step of the machine, and the placing of an instruction for the next one. -/

namespace Sys2Proof.Machine

/-- One step (R3, R390): the instruction that is fetched is decoded and runs whole, as one atomic step of its unit
(R84); where none is fetched, the agent whose turn it is moves. -/
def step (s : State) : Host.Outcome State Fault Refusal :=
  match s.fetch with
  | some (c, s') =>
    match decode c with
    | .ok i => exec i s'
    | .error e => rejected s' e
  | none => quietStep s

/-- The state in which the very next step runs the instruction of `nbits` bits whose bits are `w`, numbered as
spec/opcode_table.json numbers them (notes/assumptions/8.md). -/
def State.withFetchWord (s : State) (nbits w : Nat) : State := s.place (placedCode nbits w)

end Sys2Proof.Machine
end

