-- ==== Sys2Proof/Safety.lean ====
section
/-! DEFINITION. What a safe run is, in the terms the statements use: the invariants of the two units, the end of a host
program, and the success of a run (R431). -/

namespace Sys2Proof.Machine

/-- The CU's data fit its session: the windows are in canonical form, F is at least 1, every session vector and every ring
slot has F bits (R22, R23, R153), the output buffer is within its capacity (R170), READY and FAULT are never both 1 (R33),
and the ring indices are equal and follow the packet count while it has not saturated (R23). -/
structure Cu.Inv (u : Cu) : Prop where
  win_wf : Memory.wf u.win
  length_pos : 1 ≤ u.fs.toNat
  mask_length : u.mask.length = u.fs.toNat
  prevMask_length : u.prevMask.length = u.fs.toNat
  build_length : u.build.length = u.fs.toNat
  prevInput_length : u.prevInput.length = u.fs.toNat
  hist_length : ∀ k : Fin 16, (u.hist.get k).length = u.fs.toNat
  obuf_cap : u.obuf.length ≤ 48 * u.fs.toNat
  not_ready_and_fault : ¬(u.st.ready = true ∧ u.st.fault = true)
  indices_equal : u.hidx = u.fidx
  index_counts : u.t ≠ BitVec.allOnes 32 → u.hidx = u.t.setWidth 4

/-- The DU's data fit its session (R28, R153), READY and FAULT are never both 1 (R33), the cursor is within the stream
(R31), and NUM_BITS is a multiple of 8 (R50) within the capacity. -/
structure Du.Inv (cap : Nat) (u : Du) : Prop where
  win_wf : Memory.wf u.win
  length_pos : 1 ≤ u.fs.toNat
  dmask_length : u.dmask.length = u.fs.toNat
  prevOutput_length : u.prevOutput.length = u.fs.toNat
  pos_length : u.pos.length = u.fs.toNat
  not_ready_and_fault : ¬(u.st.ready = true ∧ u.st.fault = true)
  bitPos_le : u.bitPos.toNat ≤ u.numBits.toNat
  numBits_bytes : u.numBits.toNat % 8 = 0
  numBits_cap : u.numBits.toNat ≤ 8 * cap

/-- The machine's invariant: legal parameters (R8, R70) and the invariants of both units. -/
structure State.Inv (s : State) : Prop where
  params_ok : s.params.ok = true
  cu : s.cu.Inv
  du : s.du.Inv s.params.streamCap

/-- "A host program has ended when its last access has been performed and neither unit is BUSY" (R431). -/
def State.ended (s : State) : Bool := s.host.isEmpty && !s.cu.st.busy && !s.du.st.busy

/-- A unit's status holds no fault analogue: FAULT, HZD and ERR are all zero (R431). -/
def Status.clean (s : Status) : Bool := !s.fault && !s.hazard && s.err == .ok

/-- "A claim that a run succeeded should take all three as zero", in both units (R431). -/
def State.succeeded (s : State) : Bool := s.ended && s.cu.st.clean && s.du.st.clean

end Sys2Proof.Machine
end

