-- ==== Sys2Proof/Certificates/Slice0/Obligations.lean ====
section
/-! DEFINITION. The statements of this model, for the provers. Each one's docstring names the rule of spec/ it formalises.
A bit of a vector is written `v.getD i false`, and a window's bit as a bit of the byte at its offset. -/

open Sys2Proof Sys2Proof.Machine

/-! ## Reset -/

/-- R57 and R420: after reset, and after the reset input in any state, also while a unit is BUSY, every register reads 0 but
DU CTRL, which reads 1, every window byte is 0x00, and no unit is BUSY, READY, in FAULT or has HZD. -/
def Obligations.ResetFromAnyState : Prop :=
  ∀ s : State, ∀ t ∈ [State.reset, s.hardwareReset], hostAct s .reset = .next s.hardwareReset
    ∧ (∀ r, t.cu.readReg r = 0) ∧ (∀ r, t.du.readReg r = if r = .ctrl then 1 else 0)
    ∧ (∀ a, readByte t.cu.win a = 0) ∧ (∀ a, readByte t.du.win a = 0)
    ∧ t.cu.st = { cmd := none, ready := false, fault := false, hazard := false, err := .ok }
    ∧ t.du.st = { cmd := none, ready := false, fault := false, hazard := false, err := .ok }

/-! ## Encoding -/

/-- The encoder's bits decode to the instruction they were made from, for every well-formed instruction (R101, R106, R115,
R120). -/
def Obligations.DecodeOfEncode : Prop :=
  ∀ i : Instr, wellFormed i = true → decode (encode i) = .ok i

/-- COUNT code words are self-delimiting (R116, R117): a code word decodes to itself whatever bits follow it. -/
def Obligations.CountWordsSelfDelimiting : Prop :=
  ∀ (i : Instr) (rest : BitSeq), wellFormed i = true → i.format = .wire → decode (.wire (wireBits i ++ rest)) = .ok i

/-- The other direction: what decodes is well formed, and its encoding is what was decoded: the whole command word or
micro-operation code, or the bits the stream begins with (R102, R116, R120). -/
def Obligations.DecodedIsEncodable : Prop :=
  ∀ (c : Code) (i : Instr), decode c = .ok i →
    wellFormed i = true ∧ (encode i = c ∨ ∃ bits rest, c = .wire bits ∧ i.format = .wire ∧ bits = wireBits i ++ rest)

/-- R106: the command words of the mnemonics decode to their commands, C.PKT with each of its flags. -/
def Obligations.SpecWordsDecode : Prop :=
  decode (.command .cu 0x00000001) = .ok .cInit
    ∧ (∀ nm sm uc : Bool, decode (.command .cu (BitVec.ofNat 32 (2 + 2 ^ 8 * nm.toNat + 2 ^ 9 * sm.toNat + 2 ^ 10 * uc.toNat)))
        = .ok (.cPkt nm sm uc))
    ∧ decode (.command .cu 0x00000102) = .ok (.cPkt true false false)
    ∧ decode (.command .cu 0x00000202) = .ok (.cPkt false true false)
    ∧ decode (.command .cu 0x00000402) = .ok (.cPkt false false true)
    ∧ decode (.command .cu 0x00000602) = .ok (.cPkt false true true)
    ∧ decode (.command .cu 0x00000702) = .ok (.cPkt true true true)
    ∧ decode (.command .du 0x00000011) = .ok .dInit
    ∧ decode (.command .du 0x00000012) = .ok .dLoad
    ∧ decode (.command .du 0x00000013) = .ok .dPkt
    ∧ decode (.command .du 0x00000014) = .ok .dAlign

/-! ## Steps -/

/-- A step runs the decoded instruction: where a unit's turn has come and the word it has accepted decodes to i, the step
is exec of i in the state in which the turn is taken and the unit's BUSY is over; where a micro-operation or a code word of
the stream stands before the datapath, it is exec of it with nothing else changed. A step that runs no instruction: on the
host's turn it performs the host's next access, which leaves the list, in program order (R85, R390); with no access left, and on
the turn of a unit that is not BUSY, which "does nothing" (R390), only the turn is passed. The turn is the head of `turns`, and
where that list is empty a BUSY unit moves before the host. The turns and the latches are the model's choice
(notes/assumptions/4.md, 5.md, 8.md). -/
def Obligations.StepRunsDecodedInstruction : Prop :=
  (∀ (s : State) (u : CodecUnit) (w : Word) (i : Instr), s.micro = none → s.nextTurn = .unit u → s.pending u = some w →
      decode (.command u w) = .ok i → step s = exec i (s.passTurn.complete u))
    ∧ (∀ (s : State) (b : Byte) (i : Instr), s.micro = some (.uop b) → decode (.uop b) = .ok i →
      step s = exec i { s with micro := none })
    ∧ (∀ (s : State) (i : Instr), s.micro = some .wire → decode (.wire (unreadBits s.du)) = .ok i →
      step s = exec i { s with micro := none })
    ∧ (∀ (s : State) (a : HostAction) (rest : List HostAction), s.micro = none → s.nextTurn = .host → s.host = a :: rest →
      step s = hostAct { s with turns := s.turns.tail, host := rest } a)
    ∧ (∀ s : State, s.micro = none → s.nextTurn = .host → s.host = [] →
      step s = .next { s with turns := s.turns.tail })
    ∧ (∀ (s : State) (u : CodecUnit), s.micro = none → s.nextTurn = .unit u → s.pending u = none →
      step s = .next { s with turns := s.turns.tail })
    ∧ (∀ (s : State) (m : Turn) (rest : List Turn), s.turns = m :: rest → s.nextTurn = m)
    ∧ (∀ s : State, s.turns = [] → s.nextTurn =
      if s.cu.st.busy = true then .unit .cu else if s.du.st.busy = true then .unit .du else .host)

/-- R102, R104, R393: a CMD write to a unit that is not BUSY starts a legal command; an illegal one changes nothing but ERR,
which becomes BAD_COMMAND; a CMD write to a BUSY unit is the hazard of R421 and is not decoded. The model's reading of R391
and R395 (notes/assumptions/19.md): an accepted word changes BUSY alone, ERR, READY and FAULT keeping their values until the
command completes, and BAD_COMMAND is reported in the write itself, without a time of being BUSY. -/
def Obligations.CmdWriteIssuesOrRejects : Prop :=
  (∀ (u : Cu) (w : Word),
      (u.st.busy = true → cuWrite u .word 0 w = { u with st := { u.st with hazard := true } })
        ∧ (u.st.busy = false → w.toNat < 2048 ∧ (w.toNat % 256 = 2 ∨ w.toNat = 1) →
            cuWrite u .word 0 w = { u with st := { u.st with cmd := some w } })
        ∧ (u.st.busy = false → ¬(w.toNat < 2048 ∧ (w.toNat % 256 = 2 ∨ w.toNat = 1)) →
            cuWrite u .word 0 w = { u with st := { u.st with err := .badCommand } }))
    ∧ (∀ (cap : Nat) (u : Du) (w : Word),
      (u.st.busy = true → duWrite cap u .word 0 w = { u with st := { u.st with hazard := true } })
        ∧ (u.st.busy = false → 0x11 ≤ w.toNat ∧ w.toNat ≤ 0x14 →
            duWrite cap u .word 0 w = { u with st := { u.st with cmd := some w } })
        ∧ (u.st.busy = false → ¬(0x11 ≤ w.toNat ∧ w.toNat ≤ 0x14) →
            duWrite cap u .word 0 w = { u with st := { u.st with err := .badCommand } }))

/-- R423: every command completes. A BUSY unit whose turn has come is not BUSY after the step, whatever word it holds. -/
def Obligations.CommandsComplete : Prop :=
  ∀ (s : State) (u : CodecUnit), s.micro = none → s.nextTurn = .unit u → (s.pending u).isSome = true →
    ∃ t : State, step s = .next t ∧ t.pending u = none

/-! ## The bit_vector_alu -/

/-- R141, R142, R143: BV.XOR, BV.OR and BV.AND act element by element on two F-bit vectors; nothing but the result
changes. -/
def Obligations.BitwiseOperationsPointwise : Prop :=
  encode .bvXor = .uop 0x40 ∧ encode .bvOr = .uop 0x41 ∧ encode .bvAnd = .uop 0x42
    ∧ ∀ s : State, s.dp.opA.length = s.aluLength → s.dp.opB.length = s.aluLength →
    ∃ x o a : BitSeq, x.length = s.aluLength ∧ o.length = s.aluLength ∧ a.length = s.aluLength
      ∧ exec .bvXor s = .next { s with dp := { s.dp with resVec := x } }
      ∧ exec .bvOr s = .next { s with dp := { s.dp with resVec := o } }
      ∧ exec .bvAnd s = .next { s with dp := { s.dp with resVec := a } }
      ∧ ∀ i < s.aluLength,
          x.getD i false = (s.dp.opA.getD i false ^^ s.dp.opB.getD i false)
            ∧ o.getD i false = (s.dp.opA.getD i false || s.dp.opB.getD i false)
            ∧ a.getD i false = (s.dp.opA.getD i false && s.dp.opB.getD i false)

/-- R144, R145, R146: BV.NOT complements every bit; BV.SHL1 moves every bit one index down and clears the last; BV.REV
mirrors the indices. Each result has F bits; nothing but the result changes. -/
def Obligations.NotShiftReversePointwise : Prop :=
  encode .bvNot = .uop 0x43 ∧ encode .bvShl1 = .uop 0x44 ∧ encode .bvRev = .uop 0x45
    ∧ ∀ s : State, s.dp.opA.length = s.aluLength →
    ∃ n l r : BitSeq, n.length = s.aluLength ∧ l.length = s.aluLength ∧ r.length = s.aluLength
      ∧ exec .bvNot s = .next { s with dp := { s.dp with resVec := n } }
      ∧ exec .bvShl1 s = .next { s with dp := { s.dp with resVec := l } }
      ∧ exec .bvRev s = .next { s with dp := { s.dp with resVec := r } }
      ∧ ∀ i < s.aluLength,
          n.getD i false = !(s.dp.opA.getD i false)
            ∧ l.getD i false = (if i + 1 < s.aluLength then s.dp.opA.getD (i + 1) false else false)
            ∧ r.getD i false = s.dp.opA.getD (s.aluLength - 1 - i) false

/-- R147, R150: BV.POPCNT counts the one bits, and the count is at most F; BV.ZERO gives F zero bits. Nothing but the result
changes. -/
def Obligations.PopcountAndZero : Prop :=
  encode .bvPopcnt = .uop 0x46 ∧ encode .bvZero = .uop 0x49
    ∧ ∀ s : State,
    (s.dp.opA.length = s.aluLength →
        exec .bvPopcnt s = .next { s with dp := { s.dp with
          resNum := ((Finset.range s.aluLength).filter fun i => s.dp.opA.getD i false = true).card } })
      ∧ ∃ z : BitSeq, z.length = s.aluLength ∧ (∀ i, z.getD i false = false)
          ∧ exec .bvZero s = .next { s with dp := { s.dp with resVec := z } }

/-- R148, R149: BV.GET reads a[i], and 0 where i is past the end; BV.SET writes a[i] alone, and gives a itself where i is
past the end. Nothing but the result changes. For an index past the end this is the model's choice between R148 and R149,
which give these results, and U1, which says refuse (notes/assumptions/18.md). -/
def Obligations.GetAndSetBit : Prop :=
  encode .bvGet = .uop 0x47 ∧ encode .bvSet = .uop 0x48
    ∧ ∀ s : State, s.dp.opA.length = s.aluLength →
    exec .bvGet s = .next { s with dp := { s.dp with
        resBit := if s.dp.opIndex < s.aluLength then s.dp.opA.getD s.dp.opIndex false else false } }
      ∧ ∃ y : BitSeq, y.length = s.aluLength ∧ exec .bvSet s = .next { s with dp := { s.dp with resVec := y } }
          ∧ ∀ j < s.aluLength, y.getD j false = if j = s.dp.opIndex then s.dp.opBit else s.dp.opA.getD j false

/-- R151, R152: BV.UNPACK takes bit i from bit 7 - (i mod 8) of byte floor(i/8); BV.PACK gives ceil(F/8) bytes in the same
order with the padding bits 0. Nothing but the result changes. -/
def Obligations.UnpackAndPackBytes : Prop :=
  encode .bvUnpack = .uop 0x4A ∧ encode .bvPack = .uop 0x4B
    ∧ (∀ s : State, s.dp.opBytes.length = (s.aluLength + 7) / 8 →
      ∃ y : BitSeq, y.length = s.aluLength ∧ exec .bvUnpack s = .next { s with dp := { s.dp with resVec := y } }
        ∧ ∀ i < s.aluLength, y.getD i false = (s.dp.opBytes.getD (i / 8) 0).getLsbD (7 - i % 8))
    ∧ (∀ s : State, s.dp.opA.length = s.aluLength →
      ∃ b : List Byte, b.length = (s.aluLength + 7) / 8
        ∧ exec .bvPack s = .next { s with dp := { s.dp with resBytes := b } }
        ∧ ∀ j < (s.aluLength + 7) / 8, ∀ k < 8, (b.getD j 0).getLsbD (7 - k) =
            if 8 * j + k < s.aluLength then s.dp.opA.getD (8 * j + k) false else false)

/-- The model's treatment of vector operands of other lengths than their rules give them, which "never occur" (R153;
treatment "refuse", U2): the micro-operation is refused by name. notes/assumptions/9.md. -/
def Obligations.UnusableOperandsRefused : Prop :=
  ∀ s : State,
    (s.dp.opA.length ≠ s.aluLength →
        ∀ i ∈ [Instr.bvXor, .bvOr, .bvAnd, .bvNot, .bvShl1, .bvRev, .bvPopcnt, .bvGet, .bvSet, .bvPack],
          exec i s = .refused .operandLength)
      ∧ (s.dp.opB.length ≠ s.aluLength → ∀ i ∈ [Instr.bvXor, .bvOr, .bvAnd], exec i s = .refused .operandLength)
      ∧ (s.dp.opBytes.length ≠ (s.aluLength + 7) / 8 → exec .bvUnpack s = .refused .operandLength)
      ∧ (s.dp.opA.length ≠ s.cu.fs.toNat →
        ∀ i ∈ [Instr.bbPutvec, .rleEnc, .beRev, .beFwd], exec i s = .refused .operandLength)
      ∧ (s.dp.opB.length ≠ s.cu.fs.toNat → ∀ i ∈ [Instr.beRev, .beFwd], exec i s = .refused .operandLength)
      ∧ (s.dp.opA.length ≠ s.du.fs.toNat ∨ s.dp.opB.length ≠ s.du.fs.toNat →
        ∀ i ∈ [Instr.biRev, .biFwd], exec i s = .refused .operandLength)
      ∧ (s.cu.build.length ≠ s.cu.fs.toNat ∨ s.cu.tmp.inp.length ≠ s.cu.fs.toNat ∨ s.cu.prevInput.length ≠ s.cu.fs.toNat →
        exec .muBuild s = .refused .operandLength)
      ∧ (s.cu.mask.length ≠ s.cu.fs.toNat ∨ s.cu.tmp.inp.length ≠ s.cu.fs.toNat ∨ s.cu.prevInput.length ≠ s.cu.fs.toNat
          ∨ s.cu.tmp.buildPrev.length ≠ s.cu.fs.toNat → exec .muMask s = .refused .operandLength)
      ∧ (s.cu.mask.length ≠ s.cu.fs.toNat ∨ s.cu.prevMask.length ≠ s.cu.fs.toNat →
        exec .muChange s = .refused .operandLength)
      ∧ (s.cu.tmp.change.length ≠ s.cu.fs.toNat → exec .hwPush s = .refused .operandLength)
      ∧ ((∃ k : Fin 16, (s.cu.hist.get k).length ≠ s.cu.fs.toNat) →
        ∀ i ∈ [Instr.hwXwin, .hwVeff], exec i s = .refused .operandLength)

/-! ## The bit packer -/

/-- R171 to R174: BB.CLEAR empties the buffer; BB.PUTBIT, BB.PUTVAL (the low n <= 32 bits of v, most significant first)
and BB.PUTVEC append their bits where the capacity of 48F bits allows, and raise OVERFLOW, with no bit appended, where it does
not. Nothing else changes. The model's choices (notes/assumptions/4.md): an OVERFLOW of an operation that runs alone sets READY
0, FAULT 1 and ERR, as R394 says of a packet command; and BB.PUTVAL takes the low n bits also of a v of 2^n or more. -/
def Obligations.BufferOperations : Prop :=
  encode .bbClear = .uop 0x50 ∧ encode .bbPutbit = .uop 0x51 ∧ encode .bbPutval = .uop 0x52
    ∧ encode .bbPutvec = .uop 0x53
    ∧ ∀ s : State,
    exec .bbClear s = .next { s with cu := { s.cu with obuf := [] } }
      ∧ exec .bbPutbit s = .next { s with cu :=
          if s.cu.obuf.length + 1 > 48 * s.cu.fs.toNat then
            { s.cu with st := { s.cu.st with ready := false, fault := true, err := .overflow } }
          else { s.cu with obuf := s.cu.obuf ++ [s.dp.opBit] } }
      ∧ (∃ w : BitSeq, w.length = s.dp.opWidth.val
          ∧ w.foldl (fun v b => 2 * v + b.toNat) 0 = s.dp.opVal.toNat % 2 ^ s.dp.opWidth.val
          ∧ exec .bbPutval s = .next { s with cu :=
              if s.cu.obuf.length + s.dp.opWidth.val > 48 * s.cu.fs.toNat then
                { s.cu with st := { s.cu.st with ready := false, fault := true, err := .overflow } }
              else { s.cu with obuf := s.cu.obuf ++ w } })
      ∧ (s.dp.opA.length = s.cu.fs.toNat →
          exec .bbPutvec s = .next { s with cu :=
            if s.cu.obuf.length + s.cu.fs.toNat > 48 * s.cu.fs.toNat then
              { s.cu with st := { s.cu.st with ready := false, fault := true, err := .overflow } }
            else { s.cu with obuf := s.cu.obuf ++ s.dp.opA } })

/-- R175: BB.TOBYTES gives ceil(size/8) bytes, bit 8j + k of the buffer in byte j at bit 7 - k, the padding 0; the buffer
is not changed. -/
def Obligations.BufferToBytes : Prop :=
  encode .bbTobytes = .uop 0x54
    ∧ ∀ s : State, ∃ y : List Byte, y.length = (s.cu.obuf.length + 7) / 8
    ∧ exec .bbTobytes s = .next { s with dp := { s.dp with resBytes := y } }
    ∧ ∀ j < (s.cu.obuf.length + 7) / 8, ∀ k < 8, (y.getD j 0).getLsbD (7 - k) =
        if 8 * j + k < s.cu.obuf.length then s.cu.obuf.getD (8 * j + k) false else false

/-- R181, R182: BR.GETBIT reads the stream bit at BIT_POS, and BR.GETBITS the next n bits (n <= 32) as an integer, most
significant first; BIT_POS moves past them. Where fewer bits remain the DU raises UNDERFLOW and BIT_POS stays. Nothing else
changes. That the UNDERFLOW of a read that runs alone sets READY 0, FAULT 1 and ERR, and keeps BIT_POS, as R394 says of a packet
command, is the model's choice (notes/assumptions/4.md). -/
def Obligations.ReaderReadsBits : Prop :=
  encode .brGetbit = .uop 0x58 ∧ encode .brGetbits = .uop 0x59
    ∧ ∀ s : State,
    exec .brGetbit s = .next (
        if s.du.bitPos.toNat ≥ s.du.numBits.toNat then
          { s with du := { s.du with st := { s.du.st with ready := false, fault := true, err := .underflow } } }
        else
          { s with
            du := { s.du with bitPos := s.du.bitPos + 1 }
            dp := { s.dp with
              resBit := (readByte s.du.win (0x10000 + s.du.bitPos.toNat / 8)).getLsbD (7 - s.du.bitPos.toNat % 8) } })
      ∧ exec .brGetbits s = .next (
        if s.dp.opWidth.val > s.du.numBits.toNat - s.du.bitPos.toNat then
          { s with du := { s.du with st := { s.du.st with ready := false, fault := true, err := .underflow } } }
        else
          { s with
            du := { s.du with bitPos := s.du.bitPos + BitVec.ofNat 32 s.dp.opWidth.val }
            dp := { s.dp with
              resNum := (List.range s.dp.opWidth.val).foldl (fun v k => 2 * v +
                ((readByte s.du.win (0x10000 + (s.du.bitPos.toNat + k) / 8)).getLsbD
                  (7 - (s.du.bitPos.toNat + k) % 8)).toNat) 0 } })

/-- R183, R184: BR.ALIGN moves BIT_POS to 8 * ceil(BIT_POS/8), which a reader that keeps its invariant holds within NUM_BITS;
BR.REMAIN gives NUM_BITS - BIT_POS. Nothing else changes. -/
def Obligations.ReaderAlignAndRemain : Prop :=
  encode .brAlign = .uop 0x5A ∧ encode .brRemain = .uop 0x5B
    ∧ ∀ s : State,
    exec .brAlign s = .next { s with du := { s.du with
        bitPos := BitVec.ofNat 32 (8 * ((s.du.bitPos.toNat + 7) / 8)) } }
      ∧ exec .brRemain s = .next { s with dp := { s.dp with resNum := s.du.numBits.toNat - s.du.bitPos.toNat } }
      ∧ (s.du.numBits.toNat % 8 = 0 → s.du.bitPos.toNat ≤ s.du.numBits.toNat →
          8 * ((s.du.bitPos.toNat + 7) / 8) ≤ s.du.numBits.toNat)

/-! ## COUNT -/

/-- R201: CNT.ENC appends '10' for 0, '0' for 1, '110' and BIT_5(A - 2) for 2..33, and '111' and BIT_E(A - 2) with
E = 2L - 6 for 34..65535, where A - 2 has L bits (2^(L-1) <= A - 2 < 2^L); past the capacity it raises OVERFLOW and appends
nothing. Nothing else changes. The model's choices: the OVERFLOW of an encoder that runs alone sets READY 0, FAULT 1 and ERR
(notes/assumptions/4.md), and the code word is checked against the capacity once, so that no part of it is appended
(notes/assumptions/16.md). -/
def Obligations.CountEncoderAppends : Prop :=
  encode .cntEnc = .uop 0x60
    ∧ ∀ s : State, ∃ w : BitSeq, exec .cntEnc s = .next { s with cu :=
          if s.cu.obuf.length + w.length > 48 * s.cu.fs.toNat then
            { s.cu with st := { s.cu.st with ready := false, fault := true, err := .overflow } }
          else { s.cu with obuf := s.cu.obuf ++ w } }
        ∧ (s.dp.opCount.toNat = 0 → w = [true, false])
        ∧ (s.dp.opCount.toNat = 1 → w = [false])
        ∧ (2 ≤ s.dp.opCount.toNat → s.dp.opCount.toNat ≤ 33 → ∃ f : BitSeq, w = [true, true, false] ++ f ∧ f.length = 5
            ∧ f.foldl (fun v b => 2 * v + b.toNat) 0 = s.dp.opCount.toNat - 2)
        ∧ (34 ≤ s.dp.opCount.toNat → ∀ l, 2 ^ (l - 1) ≤ s.dp.opCount.toNat - 2 → s.dp.opCount.toNat - 2 < 2 ^ l →
            ∃ f : BitSeq, w = [true, true, true] ++ f ∧ f.length = 2 * l - 6
              ∧ f.foldl (fun v b => 2 * v + b.toNat) 0 = s.dp.opCount.toNat - 2)

/-- R206: decoding an encoded count gives it back for every A in 0..65535, and reads exactly the code word. -/
def Obligations.CountRoundTrip : Prop :=
  ∀ (a : Nat) (rest : BitSeq), a ≤ 65535 → cntDec (cntBits a ++ rest) = .ok (a, rest)

/-- R115, R116, R202, R204: the length and the value of each COUNT code word. That a code word runs as an instruction, moves
BIT_POS past its own length whatever bits the stream holds, delivers its value into a latch and changes nothing else is the
model's choice (notes/assumptions/17.md, 4.md), and so is the value for a field `a` wider than its row's, which no bits decode
to. -/
def Obligations.CountFormsDeliverValues : Prop :=
  ∀ (s : State) (a : Nat) (i : Instr) (len val : Nat),
    (i, len, val) ∈ [(Instr.countOne, 1, 1), (.countTerm, 2, 0), (.countShort a, 8, a + 2), (.countLongE6 a, 9, 32 + a + 2),
      (.countLongE8 a, 11, 64 + a + 2), (.countLongE10 a, 13, 128 + a + 2), (.countLongE12 a, 15, 256 + a + 2),
      (.countLongE14 a, 17, 512 + a + 2), (.countLongE16 a, 19, 1024 + a + 2), (.countLongE18 a, 21, 2048 + a + 2),
      (.countLongE20 a, 23, 4096 + a + 2), (.countLongE22 a, 25, 8192 + a + 2), (.countLongE24 a, 27, 16384 + a + 2),
      (.countLongE26 a, 29, 32768 + a + 2)] →
    len ≤ s.du.numBits.toNat - s.du.bitPos.toNat →
    exec i s = .next { s with
      du := { s.du with bitPos := s.du.bitPos + BitVec.ofNat 32 len }
      dp := { s.dp with resNum := val } }

/-- R204, R205: CNT.DEC reads the code word the stream begins with: a whole COUNT form gives its value and moves BIT_POS past
it; '111' and eleven zeros raise MALFORMED, whatever follows; a stream that ends inside a code word raises UNDERFLOW. On an
error BIT_POS stays. Nothing else changes. That the error of a CNT.DEC that runs alone keeps BIT_POS and sets READY 0, FAULT 1
and ERR, as R394 says of a packet command, is the model's choice (notes/assumptions/4.md). -/
def Obligations.CountDecoderFollowsForms : Prop :=
  encode .cntDec = .uop 0x61
    ∧ ∀ (s : State) (i : Instr), wellFormed i = true → i.format = .wire →
    (∀ rest, i ≠ .countMalformed → unreadBits s.du = wireBits i ++ rest →
        exec .cntDec s = .next { s with
          du := { s.du with bitPos := s.du.bitPos + BitVec.ofNat 32 (wireBits i).length }
          dp := { s.dp with resNum := countValue i } })
      ∧ (∀ rest, unreadBits s.du = [true, true, true] ++ List.replicate 11 false ++ rest →
        exec .cntDec s = .next { s with du := { s.du with
          st := { s.du.st with ready := false, fault := true, err := .malformed } } })
      ∧ (∀ rest, rest ≠ [] → wireBits i = unreadBits s.du ++ rest →
        exec .cntDec s = .next { s with du := { s.du with
          st := { s.du.st with ready := false, fault := true, err := .underflow } } })

/-- R205: the malformed code word raises MALFORMED where its fourteen bits are there, and UNDERFLOW where the stream ends
before the eleventh zero; nothing but STATUS changes. That this code word runs as an instruction and that its error sets READY
0, FAULT 1 and ERR of the DU are the model's choices (notes/assumptions/17.md, 4.md); R394 speaks of packet commands. -/
def Obligations.MalformedCountRaises : Prop :=
  ∀ s : State, exec .countMalformed s = .next { s with du := { s.du with st := { s.du.st with
    ready := false
    fault := true
    err := if s.du.numBits.toNat - s.du.bitPos.toNat < 14 then .underflow else .malformed } } }

/-! ## Run-length lists, extraction and insertion -/

/-- R210: RLE.ENC appends CNT.ENC of the distances between the set positions, from index F down, and then '10'; at most
4F + 2 bits; past the capacity it raises OVERFLOW and appends nothing. Nothing else changes. The model's choices: the list is
checked against the capacity once, so that no part of it is appended (notes/assumptions/16.md), and the OVERFLOW of an encoder
that runs alone sets READY 0, FAULT 1 and ERR (notes/assumptions/4.md). -/
def Obligations.RunLengthEncoderAppends : Prop :=
  encode .rleEnc = .uop 0x62
    ∧ ∀ (s : State) (desc : List Nat), s.dp.opA.length = s.cu.fs.toNat →
      desc = ((List.range s.cu.fs.toNat).filter fun i => s.dp.opA.getD i false).reverse →
      ∃ w : BitSeq,
        w = (List.zipWith (fun last i => cntBits (last - i)) (s.cu.fs.toNat :: desc) desc).flatten ++ [true, false]
          ∧ w.length ≤ 4 * s.cu.fs.toNat + 2
          ∧ exec .rleEnc s = .next { s with cu :=
              if s.cu.obuf.length + w.length > 48 * s.cu.fs.toNat then
                { s.cu with st := { s.cu.st with ready := false, fault := true, err := .overflow } }
              else { s.cu with obuf := s.cu.obuf ++ w } }

/-- R213: decoding a run-length list gives the vector back, for every vector of 1 to 65535 bits, and reads exactly the
list. -/
def Obligations.RunLengthRoundTrip : Prop :=
  ∀ v rest : BitSeq, 1 ≤ v.length → v.length ≤ 65535 → rleDec v.length (rleBits v ++ rest) = .ok (v, rest)

/-- R212: RLE.DEC of a list of distances whose sum is at most F sets exactly the positions F minus each partial sum and
moves BIT_POS past the list; where the distances pass index 0, or a malformed code word follows them, it raises MALFORMED;
where the stream ends inside the code word after them, UNDERFLOW. The distances are 1 to 65537: the code values 65536 and 65537
pass index 0 at every F. On an error BIT_POS stays. Nothing else changes. That the error of an RLE.DEC that runs alone keeps
BIT_POS and sets READY 0, FAULT 1 and ERR is the model's choice (notes/assumptions/4.md). -/
def Obligations.RunLengthDecoderPositions : Prop :=
  encode .rleDec = .uop 0x63
    ∧ ∀ (s : State) (ds : List Nat) (rest : BitSeq), (∀ d ∈ ds, 1 ≤ d ∧ d ≤ 65537) →
      (ds.sum ≤ s.du.fs.toNat → unreadBits s.du = (ds.map cntBits).flatten ++ [true, false] ++ rest →
          ∃ x : BitSeq, x.length = s.du.fs.toNat
            ∧ (∀ i < s.du.fs.toNat,
                x.getD i false = true ↔ ∃ k, 1 ≤ k ∧ k ≤ ds.length ∧ i + (ds.take k).sum = s.du.fs.toNat)
            ∧ exec .rleDec s = .next { s with
                du := { s.du with
                  bitPos := s.du.bitPos + BitVec.ofNat 32 (((ds.map cntBits).flatten ++ [true, false]).length) }
                dp := { s.dp with resVec := x } })
        ∧ (s.du.fs.toNat < ds.sum → unreadBits s.du = (ds.map cntBits).flatten ++ rest →
          exec .rleDec s = .next { s with du := { s.du with
            st := { s.du.st with ready := false, fault := true, err := .malformed } } })
        ∧ (ds.sum ≤ s.du.fs.toNat →
          unreadBits s.du = (ds.map cntBits).flatten ++ ([true, true, true] ++ List.replicate 11 false ++ rest) →
          exec .rleDec s = .next { s with du := { s.du with
            st := { s.du.st with ready := false, fault := true, err := .malformed } } })
        ∧ (ds.sum ≤ s.du.fs.toNat → ∀ (i : Instr) (cut : BitSeq), wellFormed i = true → rest ≠ [] →
          wireBits i = cut ++ rest → unreadBits s.du = (ds.map cntBits).flatten ++ cut →
          exec .rleDec s = .next { s with du := { s.du with
            st := { s.du.st with ready := false, fault := true, err := .underflow } } })

/-- R220, R221: BE.FWD appends the bits of a at the set positions of m in ascending order, and BE.REV in descending order;
past the capacity they raise OVERFLOW and append nothing. Nothing else changes. The model's choices: the bits are checked
against the capacity once, so that none of them is appended (notes/assumptions/16.md), and the OVERFLOW of an encoder that
runs alone sets READY 0, FAULT 1 and ERR (notes/assumptions/4.md). -/
def Obligations.ExtractionAppendsMaskedBits : Prop :=
  encode .beRev = .uop 0x64 ∧ encode .beFwd = .uop 0x65
    ∧ ∀ (s : State) (asc : List Nat), s.dp.opA.length = s.cu.fs.toNat → s.dp.opB.length = s.cu.fs.toNat →
      asc = (List.range s.cu.fs.toNat).filter (fun i => s.dp.opB.getD i false) →
      exec .beFwd s = .next { s with cu :=
          if s.cu.obuf.length + asc.length > 48 * s.cu.fs.toNat then
            { s.cu with st := { s.cu.st with ready := false, fault := true, err := .overflow } }
          else { s.cu with obuf := s.cu.obuf ++ asc.map fun i => s.dp.opA.getD i false } }
        ∧ exec .beRev s = .next { s with cu :=
          if s.cu.obuf.length + asc.length > 48 * s.cu.fs.toNat then
            { s.cu with st := { s.cu.st with ready := false, fault := true, err := .overflow } }
          else { s.cu with obuf := s.cu.obuf ++ asc.reverse.map fun i => s.dp.opA.getD i false } }

/-- R222, R223: BI.FWD and BI.REV read one bit for each set position of m, ascending or descending, into a; the other
positions keep their value and BIT_POS moves past the bits. Where fewer bits remain they raise UNDERFLOW and BIT_POS
stays. Nothing else changes. That the UNDERFLOW of an insertion that runs alone keeps BIT_POS and a and sets READY 0, FAULT 1
and ERR is the model's choice (notes/assumptions/4.md). -/
def Obligations.InsertionReadsMaskedBits : Prop :=
  encode .biRev = .uop 0x66 ∧ encode .biFwd = .uop 0x67
    ∧ ∀ (s : State) (asc : List Nat), s.dp.opA.length = s.du.fs.toNat → s.dp.opB.length = s.du.fs.toNat →
    asc = (List.range s.du.fs.toNat).filter (fun i => s.dp.opB.getD i false) →
    (asc.length ≤ (unreadBits s.du).length →
        ∃ x y : BitSeq, x.length = s.du.fs.toNat ∧ y.length = s.du.fs.toNat
          ∧ (∀ i < s.du.fs.toNat, s.dp.opB.getD i false = false →
              x.getD i false = s.dp.opA.getD i false ∧ y.getD i false = s.dp.opA.getD i false)
          ∧ asc.map (fun i => x.getD i false) = (unreadBits s.du).take asc.length
          ∧ asc.reverse.map (fun i => y.getD i false) = (unreadBits s.du).take asc.length
          ∧ exec .biFwd s = .next { s with
              du := { s.du with bitPos := s.du.bitPos + BitVec.ofNat 32 asc.length }
              dp := { s.dp with opA := x } }
          ∧ exec .biRev s = .next { s with
              du := { s.du with bitPos := s.du.bitPos + BitVec.ofNat 32 asc.length }
              dp := { s.dp with opA := y } })
      ∧ ((unreadBits s.du).length < asc.length →
        exec .biFwd s = .next { s with du := { s.du with
            st := { s.du.st with ready := false, fault := true, err := .underflow } } }
          ∧ exec .biRev s = .next { s with du := { s.du with
            st := { s.du.st with ready := false, fault := true, err := .underflow } } })

/-! ## Mask update -/

/-- R241, R242, R243: MU.BUILD keeps the old build vector in build_prev and resets the build vector where t = 0 or p = 1,
and else ors the input's differences into it; MU.MASK adopts the differences and build_prev where p = 1, and else ors the
differences into the mask; MU.CHANGE is the mask at t = 0 and else mask ^ prev_mask. Nothing else changes. -/
def Obligations.MaskTransformsPointwise : Prop :=
  encode .muBuild = .uop 0x70 ∧ encode .muMask = .uop 0x71 ∧ encode .muChange = .uop 0x72
    ∧ ∀ s : State, s.cu.mask.length = s.cu.fs.toNat → s.cu.prevMask.length = s.cu.fs.toNat →
    s.cu.build.length = s.cu.fs.toNat → s.cu.prevInput.length = s.cu.fs.toNat →
    s.cu.tmp.inp.length = s.cu.fs.toNat → s.cu.tmp.buildPrev.length = s.cu.fs.toNat →
    ∃ b m d : BitSeq, b.length = s.cu.fs.toNat ∧ m.length = s.cu.fs.toNat ∧ d.length = s.cu.fs.toNat
      ∧ exec .muBuild s = .next { s with cu := { s.cu with
          build := b, tmp := { s.cu.tmp with buildPrev := s.cu.build } } }
      ∧ exec .muMask s = .next { s with cu := { s.cu with mask := m } }
      ∧ exec .muChange s = .next { s with cu := { s.cu with tmp := { s.cu.tmp with change := d } } }
      ∧ ∀ i < s.cu.fs.toNat,
          b.getD i false = (if s.cu.t = 0 ∨ s.cu.tmp.p = true then false
            else s.cu.build.getD i false || (s.cu.tmp.inp.getD i false ^^ s.cu.prevInput.getD i false))
            ∧ m.getD i false = (if s.cu.tmp.p = true then
                (s.cu.tmp.inp.getD i false ^^ s.cu.prevInput.getD i false) || s.cu.tmp.buildPrev.getD i false
              else s.cu.mask.getD i false || (s.cu.tmp.inp.getD i false ^^ s.cu.prevInput.getD i false))
            ∧ d.getD i false = (if s.cu.t = 0 then s.cu.mask.getD i false
              else s.cu.mask.getD i false ^^ s.cu.prevMask.getD i false)

/-! ## History window -/

/-- R261, R267: HW.PUSH stores D in hist[hidx] and HW.FPUSH stores p in fhist[fidx]; the other slots keep their values and
the indices stay. Nothing else changes. -/
def Obligations.RingPushesOneSlot : Prop :=
  encode .hwPush = .uop 0x78 ∧ encode .hwFpush = .uop 0x7C
    ∧ ∀ s : State, ∃ (h : Vector BitSeq 16) (g : Vector Bool 16),
    (s.cu.tmp.change.length = s.cu.fs.toNat → exec .hwPush s = .next { s with cu := { s.cu with hist := h } })
      ∧ exec .hwFpush s = .next { s with cu := { s.cu with fhist := g } }
      ∧ ∀ k : Fin 16, h.get k = (if k.val = s.cu.hidx.toNat then s.cu.tmp.change else s.cu.hist.get k)
          ∧ g.get k = (if k.val = s.cu.fidx.toNat then s.cu.tmp.p else s.cu.fhist.get k)

/-- R262: HW.XWIN is the or of the min(t, R) + 1 change vectors from slot hidx back. Nothing else changes. -/
def Obligations.RobustnessWindowIsOr : Prop :=
  encode .hwXwin = .uop 0x79
    ∧ ∀ s : State, (∀ k : Fin 16, (s.cu.hist.get k).length = s.cu.fs.toNat) →
    ∃ x : BitSeq, x.length = s.cu.fs.toNat
      ∧ exec .hwXwin s = .next { s with cu := { s.cu with tmp := { s.cu.tmp with window := x } } }
      ∧ ∀ i < s.cu.fs.toNat, x.getD i false = true ↔
          ∃ k, k ≤ min s.cu.t.toNat s.cu.rs.toNat
            ∧ (s.cu.hist.get (Fin.ofNat 16 (s.cu.hidx.toNat + 16 - k))).getD i false = true

/-- R264: HW.VEFF gives V = R where t <= R, and else R + C, where C counts the empty change vectors from D_(t-R-1) back, up to
D_0 (or past it where PRE_HISTORY_ZERO is true) and up to i = 15; R <= V <= 15. Nothing else changes. -/
def Obligations.EffectiveRobustnessCounts : Prop :=
  encode .hwVeff = .uop 0x7A
    ∧ ∀ (s : State) (empty : Nat → Prop), (∀ k : Fin 16, (s.cu.hist.get k).length = s.cu.fs.toNat) →
    (∀ i, empty i ↔ (i ≤ s.cu.t.toNat ∨ s.params.preHistoryZero = true)
      ∧ ∀ j, (s.cu.hist.get (Fin.ofNat 16 (s.cu.hidx.toNat + 16 - i))).getD j false = false) →
    ∃ v : Nat, s.cu.rs.toNat ≤ v ∧ v ≤ 15
      ∧ exec .hwVeff s = .next { s with cu := { s.cu with tmp := { s.cu.tmp with veff := BitVec.ofNat 4 v } } }
      ∧ (s.cu.t.toNat ≤ s.cu.rs.toNat → v = s.cu.rs.toNat)
      ∧ (s.cu.rs.toNat < s.cu.t.toNat →
          (∀ i, s.cu.rs.toNat < i → i ≤ v → empty i) ∧ (v < 15 → ¬empty (v + 1)))

/-- R266: HW.CT is 1 exactly where the new-mask flag was set at least twice among the current packet and the previous V
packets, packets before packet 0 not counted. Nothing else changes. -/
def Obligations.MultipleUpdateFlagCounts : Prop :=
  encode .hwCt = .uop 0x7B
    ∧ ∀ s : State, exec .hwCt s = .next { s with cu := { s.cu with tmp := { s.cu.tmp with
    ct := decide (2 ≤ s.cu.tmp.p.toNat + ((Finset.Icc 1 s.cu.tmp.veff.toNat).filter fun i =>
      i ≤ s.cu.t.toNat ∧ s.cu.fhist.get (Fin.ofNat 16 (s.cu.fidx.toNat + 16 - i)) = true).card) } } }

/-! ## Automatic parameters -/

/-- R295: AP.NEXT gives (0, 1, 1) and leaves the counters where t <= R; later each counter that is 1 fires and reloads its
limit, and any other counts down without firing. Nothing else changes. That AP.NEXT runs alone is the model's choice
(notes/assumptions/4.md), and so is that it then does the same in manual mode, and takes a counter of 0, which R295 excludes
in automatic mode, to 2^32 - 1 (notes/assumptions/20.md). -/
def Obligations.AutomaticParameters : Prop :=
  encode .apNext = .uop 0x7D
    ∧ ∀ s : State, exec .apNext s = .next { s with cu :=
    if s.cu.t.toNat ≤ s.cu.rs.toNat then { s.cu with tmp := { s.cu.tmp with p := false, f := true, r := true } }
    else
      { s.cu with
        tmp := { s.cu.tmp with p := s.cu.ptCnt == 1, f := s.cu.ftCnt == 1, r := s.cu.rtCnt == 1 }
        ptCnt := if s.cu.ptCnt = 1 then s.cu.ptL else s.cu.ptCnt - 1
        ftCnt := if s.cu.ftCnt = 1 then s.cu.ftL else s.cu.ftCnt - 1
        rtCnt := if s.cu.rtCnt = 1 then s.cu.rtL else s.cu.rtCnt - 1 } }

/-- R295: a counter that starts at its limit L >= 1 fires on its k-th packet (k from 1) exactly where L divides k, and is
never 0. -/
def Obligations.CountdownFiresEveryLimit : Prop :=
  ∀ (limit : Word) (k : Nat), limit ≠ 0 →
    ((countdown (Nat.iterate (fun c => (countdown c limit).2) k limit) limit).1 = true ↔ limit.toNat ∣ k + 1)
      ∧ Nat.iterate (fun c => (countdown c limit).2) k limit ≠ 0

/-! ## C.INIT and the DU's commands but D.PKT -/

/-- R291: C_INIT with F in 1..65535, R <= 7 and limits all zero or all nonzero begins a session: the latched configuration,
the mode, the initial mask from INMASK, zero vectors and rings, t = 0, counters at their limits in automatic mode, an empty
buffer; READY, ERR = OK, FAULT and HZD cleared. Any other configuration gives INVALID_ARGUMENT with READY, FAULT, HZD and
AUTO 0. Nothing else changes. -/
def Obligations.CInitBeginsSession : Prop :=
  encode .cInit = .command .cu 0x00000001
    ∧ ∀ (s : State) (valid : Prop),
    (valid ↔ 1 ≤ s.cu.cfgF.toNat ∧ s.cu.cfgF.toNat ≤ 65535 ∧ s.cu.cfgR.toNat ≤ 7
      ∧ ((s.cu.cfgPt = 0 ∧ s.cu.cfgFt = 0 ∧ s.cu.cfgRt = 0) ∨ (s.cu.cfgPt ≠ 0 ∧ s.cu.cfgFt ≠ 0 ∧ s.cu.cfgRt ≠ 0))) →
    (valid → ∃ (m z : BitSeq) (f : BitVec 16) (r : BitVec 3),
        f.toNat = s.cu.cfgF.toNat ∧ r.toNat = s.cu.cfgR.toNat
          ∧ m.length = s.cu.cfgF.toNat ∧ z.length = s.cu.cfgF.toNat ∧ (∀ i, z.getD i false = false)
          ∧ (∀ i < s.cu.cfgF.toNat, m.getD i false = (readByte s.cu.win (0x1000 + i / 8)).getLsbD (7 - i % 8))
          ∧ exec .cInit s = .next { s with cu := { s.cu with
              st := { s.cu.st with ready := true, fault := false, hazard := false, err := .ok }
              auto := s.cu.cfgPt != 0
              fs := f, rs := r, ptL := s.cu.cfgPt, ftL := s.cu.cfgFt, rtL := s.cu.cfgRt
              mask := m, prevMask := z, build := z, prevInput := z
              hist := Vector.replicate 16 z, fhist := Vector.replicate 16 false, hidx := 0, fidx := 0
              t := 0, ptCnt := s.cu.cfgPt, ftCnt := s.cu.cfgFt, rtCnt := s.cu.cfgRt
              obuf := [], outBits := 0, pktInfo := 0 } })
      ∧ (¬valid → exec .cInit s = .next { s with cu := { s.cu with
          st := { s.cu.st with ready := false, fault := false, hazard := false, err := .invalidArgument }
          auto := false } })

/-- R341: D_INIT with F in 1..65535 and R <= 7 begins a session: the latched configuration, zero vectors, t = 0, PKT_INFO and
LAST_COUNT_F 0; READY, ERR = OK, FAULT and HZD cleared. Any other configuration gives INVALID_ARGUMENT with READY, FAULT and
HZD 0. Nothing else changes, the reader and the windows among it. -/
def Obligations.DInitBeginsSession : Prop :=
  encode .dInit = .command .du 0x00000011
    ∧ ∀ (s : State) (valid : Prop),
    (valid ↔ 1 ≤ s.du.cfgF.toNat ∧ s.du.cfgF.toNat ≤ 65535 ∧ s.du.cfgR.toNat ≤ 7) →
    (valid → ∃ (z : BitSeq) (f : BitVec 16) (r : BitVec 3),
        f.toNat = s.du.cfgF.toNat ∧ r.toNat = s.du.cfgR.toNat ∧ z.length = s.du.cfgF.toNat
          ∧ (∀ i, z.getD i false = false)
          ∧ exec .dInit s = .next { s with du := { s.du with
              st := { s.du.st with ready := true, fault := false, hazard := false, err := .ok }
              fs := f, rs := r, dmask := z, prevOutput := z, pos := z, t := 0, pktInfo := 0, lastCountF := 0 } })
      ∧ (¬valid → exec .dInit s = .next { s with du := { s.du with
          st := { s.du.st with ready := false, fault := false, hazard := false, err := .invalidArgument } } })

/-- R345, R360: D_LOAD with STREAM_LEN within the capacity sets NUM_BITS = 8 * STREAM_LEN and BIT_POS = 0, and else reports
INVALID_ARGUMENT with the reader unchanged and no fault; D_ALIGN moves BIT_POS to the next byte boundary. ERR is written;
READY, FAULT and everything else stay. -/
def Obligations.ReaderCommands : Prop :=
  encode .dLoad = .command .du 0x00000012 ∧ encode .dAlign = .command .du 0x00000014
    ∧ ∀ s : State,
    exec .dLoad s = .next { s with du :=
        if s.du.streamLen.toNat > s.params.streamCap then
          { s.du with st := { s.du.st with err := .invalidArgument } }
        else
          { s.du with
            numBits := BitVec.ofNat 32 (8 * s.du.streamLen.toNat)
            bitPos := 0
            st := { s.du.st with err := .ok } } }
      ∧ exec .dAlign s = .next { s with du := { s.du with
          bitPos := BitVec.ofNat 32 (8 * ((s.du.bitPos.toNat + 7) / 8))
          st := { s.du.st with err := .ok } } }

/-! ## C.PKT -/

/-- R176: a C_PKT of a ready unit with the right IN_LEN completes: it is never turned away by OVERFLOW, its packet has at most
10F + 42 bits, and at most 18 where F = 1; t grows by one up to its saturation and OUT_BITS is the packet's length. -/
def Obligations.CompressionNeverOverflows : Prop :=
  ∀ (s : State) (nm sm uc : Bool), s.cu.Inv → s.cu.st.ready = true →
    s.cu.inLen.toNat = (s.cu.fs.toNat + 7) / 8 →
    ∃ t : State, exec (.cPkt nm sm uc) s = .next t ∧ t.cu.st = { s.cu.st with err := .ok }
      ∧ t.cu.obuf.length ≤ 10 * s.cu.fs.toNat + 42 ∧ (s.cu.fs.toNat = 1 → t.cu.obuf.length ≤ 18)
      ∧ t.cu.outBits.toNat = t.cu.obuf.length
      ∧ t.cu.t.toNat = min (s.cu.t.toNat + 1) (2 ^ 32 - 1)

/-- R75: after a C_PKT without error, bit k of the emitted packet is bit 7 - (k mod 8) of OUT byte floor(k/8), the padding of
the last byte is 0, OUT_BITS is the number of bits, and every other byte of the windows keeps its value. -/
def Obligations.CompressedPacketInOutWindow : Prop :=
  ∀ (s t : State) (nm sm uc : Bool), exec (.cPkt nm sm uc) s = .next t → t.cu.st.err = .ok → s.cu.st.ready = true →
    s.cu.inLen.toNat = (s.cu.fs.toNat + 7) / 8 →
    t.cu.outBits.toNat = t.cu.obuf.length
      ∧ (∀ k < 8 * ((t.cu.obuf.length + 7) / 8), (readByte t.cu.win (0x10000 + k / 8)).getLsbD (7 - k % 8) =
          if k < t.cu.obuf.length then t.cu.obuf.getD k false else false)
      ∧ (∀ a, ¬(0x10000 ≤ a ∧ a < 0x10000 + (t.cu.obuf.length + 7) / 8) → readByte t.cu.win a = readByte s.cu.win a)

/-- The frame of C_PKT: only the CU changes; its configuration registers, IN_LEN, the latched configuration, AUTO, HZD and BUSY
stay; in manual mode the counters stay; and every window byte outside the OUT bytes of the packet keeps its value (R73,
R75, R296). -/
def Obligations.CompressionFrame : Prop :=
  ∀ (s t : State) (nm sm uc : Bool), exec (.cPkt nm sm uc) s = .next t →
    t = { s with cu := t.cu }
      ∧ t.cu.cfgF = s.cu.cfgF ∧ t.cu.cfgR = s.cu.cfgR ∧ t.cu.cfgPt = s.cu.cfgPt ∧ t.cu.cfgFt = s.cu.cfgFt
      ∧ t.cu.cfgRt = s.cu.cfgRt ∧ t.cu.inLen = s.cu.inLen ∧ t.cu.auto = s.cu.auto ∧ t.cu.fs = s.cu.fs ∧ t.cu.rs = s.cu.rs
      ∧ t.cu.ptL = s.cu.ptL ∧ t.cu.ftL = s.cu.ftL ∧ t.cu.rtL = s.cu.rtL
      ∧ t.cu.st.cmd = s.cu.st.cmd ∧ t.cu.st.hazard = s.cu.st.hazard
      ∧ (s.cu.auto = false → t.cu.ptCnt = s.cu.ptCnt ∧ t.cu.ftCnt = s.cu.ftCnt ∧ t.cu.rtCnt = s.cu.rtCnt)
      ∧ (∀ a, ¬(0x10000 ≤ a ∧ a < 0x10000 + (t.cu.outBits.toNat + 7) / 8) → readByte t.cu.win a = readByte s.cu.win a)

/-- R394 for both packet commands: whenever the unit was ready, the command either ends with ERR = OK, or sets READY 0, FAULT 1
and ERR and leaves every other element of the machine as it was. -/
def Obligations.PacketErrorsAreTransactional : Prop :=
  (∀ (s t : State) (nm sm uc : Bool), s.cu.st.ready = true → exec (.cPkt nm sm uc) s = .next t → t.cu.st.err ≠ .ok →
      t = { s with cu := { s.cu with st := { s.cu.st with ready := false, fault := true, err := t.cu.st.err } } })
    ∧ (∀ s t : State, s.du.st.ready = true → exec .dPkt s = .next t → t.du.st.err ≠ .ok →
      t = { s with du := { s.du with st := { s.du.st with ready := false, fault := true, err := t.du.st.err } } })

/-- R398: on a unit that is not ready C_PKT and D_PKT set only ERR, to NOT_READY. R39: a C_PKT of a ready unit whose IN_LEN is
not ceil(F/8) faults with INVALID_ARGUMENT and changes only STATUS. -/
def Obligations.PacketCommandsTurnedAway : Prop :=
  ∀ (s : State) (nm sm uc : Bool),
    (s.cu.st.ready = false →
        exec (.cPkt nm sm uc) s = .next { s with cu := { s.cu with st := { s.cu.st with err := .notReady } } })
      ∧ (s.du.st.ready = false →
        exec .dPkt s = .next { s with du := { s.du with st := { s.du.st with err := .notReady } } })
      ∧ (s.cu.st.ready = true → s.cu.inLen.toNat ≠ (s.cu.fs.toNat + 7) / 8 →
        exec (.cPkt nm sm uc) s = .next { s with cu := { s.cu with
          st := { s.cu.st with ready := false, fault := true, err := .invalidArgument } } })

/-- The session after a C_PKT without error: prev_mask is the old mask; at t = 0 mask and build stay, later they are updated
by the packet's differences and its new-mask flag (PKT_INFO bit 8); the change vector is stored in slot hidx and the flag
in slot fidx, both indices move on by one, and prev_input is the packet of the IN window (R43, R240 to R243, R261, R267,
R268, R308). -/
def Obligations.CompressionUpdatesSession : Prop :=
  ∀ (s t : State) (nm sm uc : Bool) (diff old : Nat → Bool), s.cu.Inv → s.cu.st.ready = true →
    s.cu.inLen.toNat = (s.cu.fs.toNat + 7) / 8 → exec (.cPkt nm sm uc) s = .next t → t.cu.st.err = .ok →
    (∀ i, diff i = (t.cu.prevInput.getD i false ^^ s.cu.prevInput.getD i false)) →
    (∀ i, old i = s.cu.mask.getD i false) →
    t.cu.prevMask = s.cu.mask ∧ t.cu.hidx = s.cu.hidx + 1 ∧ t.cu.fidx = s.cu.fidx + 1
      ∧ t.cu.fhist.get (Fin.ofNat 16 s.cu.fidx.toNat) = t.cu.pktInfo.getLsbD 8
      ∧ (∀ k : Fin 16, k.val ≠ s.cu.hidx.toNat → t.cu.hist.get k = s.cu.hist.get k)
      ∧ (∀ k : Fin 16, k.val ≠ s.cu.fidx.toNat → t.cu.fhist.get k = s.cu.fhist.get k)
      ∧ ∀ i < s.cu.fs.toNat,
          t.cu.prevInput.getD i false = (readByte s.cu.win (0x3000 + i / 8)).getLsbD (7 - i % 8)
            ∧ t.cu.mask.getD i false = (if s.cu.t = 0 then old i
                else if t.cu.pktInfo.getLsbD 8 = true then diff i || s.cu.build.getD i false else old i || diff i)
            ∧ t.cu.build.getD i false = (if s.cu.t = 0 then s.cu.build.getD i false
                else if t.cu.pktInfo.getLsbD 8 = true then false else s.cu.build.getD i false || diff i)
            ∧ (t.cu.hist.get (Fin.ofNat 16 s.cu.hidx.toNat)).getD i false =
                (if s.cu.t = 0 then t.cu.mask.getD i false else t.cu.mask.getD i false ^^ old i)

/-- R43 in manual mode (R296, R302): PKT_INFO of a packet holds the command word's flags in P, FT and RT and
NOT(f) AND NOT(r) in D; bits [31:11] read 0. -/
def Obligations.ManualFlagsInPacketInfo : Prop :=
  ∀ (s t : State) (nm sm uc : Bool), s.cu.st.ready = true → s.cu.auto = false →
    s.cu.inLen.toNat = (s.cu.fs.toNat + 7) / 8 → exec (.cPkt nm sm uc) s = .next t → t.cu.st.err = .ok →
    t.cu.pktInfo.getLsbD 8 = nm ∧ t.cu.pktInfo.getLsbD 9 = sm ∧ t.cu.pktInfo.getLsbD 10 = uc
      ∧ t.cu.pktInfo.getLsbD 7 = (!sm && !uc) ∧ t.cu.pktInfo.toNat < 2 ^ 11

/-- The flags and counters of a packet of a session in automatic mode, whatever the command word says (R295, R296, R311): at
index t <= R the flags are (p, f, r) = (0, 1, 1) and the counters stay; at t > R, with no counter 0 (which R295 excludes in
automatic mode), each flag is 1 exactly where its counter was 1, and then the counter is its limit again, and else one less.
PKT_INFO holds the flags in bits 8, 9 and 10 (R43). -/
def Obligations.InitialisationPacketsForced : Prop :=
  ∀ (s t : State) (nm sm uc : Bool), s.cu.st.ready = true → s.cu.auto = true →
    s.cu.inLen.toNat = (s.cu.fs.toNat + 7) / 8 → exec (.cPkt nm sm uc) s = .next t → t.cu.st.err = .ok →
    (s.cu.t.toNat ≤ s.cu.rs.toNat →
        t.cu.pktInfo.getLsbD 8 = false ∧ t.cu.pktInfo.getLsbD 9 = true ∧ t.cu.pktInfo.getLsbD 10 = true
          ∧ t.cu.ptCnt = s.cu.ptCnt ∧ t.cu.ftCnt = s.cu.ftCnt ∧ t.cu.rtCnt = s.cu.rtCnt)
      ∧ (s.cu.rs.toNat < s.cu.t.toNat → s.cu.ptCnt ≠ 0 → s.cu.ftCnt ≠ 0 → s.cu.rtCnt ≠ 0 →
        t.cu.pktInfo.getLsbD 8 = (s.cu.ptCnt == 1) ∧ t.cu.pktInfo.getLsbD 9 = (s.cu.ftCnt == 1)
          ∧ t.cu.pktInfo.getLsbD 10 = (s.cu.rtCnt == 1)
          ∧ t.cu.ptCnt.toNat = (if s.cu.ptCnt = 1 then s.cu.ptL.toNat else s.cu.ptCnt.toNat - 1)
          ∧ t.cu.ftCnt.toNat = (if s.cu.ftCnt = 1 then s.cu.ftL.toNat else s.cu.ftCnt.toNat - 1)
          ∧ t.cu.rtCnt.toNat = (if s.cu.rtCnt = 1 then s.cu.rtL.toNat else s.cu.rtCnt.toNat - 1))

/-! ## D.PKT -/

/-- The inductive step of R310 and R361: a DU that tracks the CU (same F; its mask and last output the CU's mask and last
input, or zero before packet 0), reading the bits of the CU's next packet followed by any bits, completes with ERR = OK,
tracks the CU again, and has read exactly the packet. Packet 0 must be uncompressed, which automatic mode forces (R297). -/
def Obligations.DecompressionTracksCompression : Prop :=
  ∀ (s t d : State) (nm sm uc : Bool) (rest : BitSeq), s.cu.Inv → s.cu.st.ready = true →
    exec (.cPkt nm sm uc) s = .next t → t.cu.st.err = .ok → s.cu.inLen.toNat = (s.cu.fs.toNat + 7) / 8 →
    d.du.Inv d.params.streamCap → d.du.st.ready = true → d.du.fs = s.cu.fs →
    (s.cu.t ≠ 0 → d.du.dmask = s.cu.mask ∧ d.du.prevOutput = s.cu.prevInput) →
    (s.cu.t = 0 → (∀ i, d.du.dmask.getD i false = false) ∧ t.cu.pktInfo.getLsbD 10 = true) →
    unreadBits d.du = t.cu.obuf ++ rest →
    ∃ d' : State, exec .dPkt d = .next d' ∧ d'.du.st = { d.du.st with err := .ok }
      ∧ d'.du.dmask = t.cu.mask ∧ d'.du.prevOutput = t.cu.prevInput
      ∧ (d.du.autoAlign = false → d'.du.bitPos.toNat = d.du.bitPos.toNat + t.cu.obuf.length)
      ∧ (d.du.autoAlign = true → d'.du.bitPos.toNat = 8 * ((d.du.bitPos.toNat + t.cu.obuf.length + 7) / 8))

/-- The frame of D_PKT: only the DU changes; CFG_F, CFG_R, CTRL, STREAM_LEN, NUM_BITS, the latched configuration, HZD and BUSY
stay, and every window byte but the first ceil(F/8) of OUT keeps its value. Where it ends without error those bytes hold
the reconstructed packet with the padding 0 (R74, R79, R358).

And D_PKT field by field (R350 to R358, R53, R54): where the unread bits begin with a packet `o` made of any window x, V = v,
direction fields e, k and c, flags d, f and r, mask delta, COUNT(lcf) with raw bits or inserted bits, in the grammar of R110 to
R113, the command completes; dmask is m (the mask toggled or directed at the set positions of x, or the running XOR of delta),
pos the positions whose k bit is 1, the output the raw packet or the inserted bits at the extraction mask em from its highest
position down, the last output elsewhere; PKT_INFO and LAST_COUNT_F hold the fields that were read; BIT_POS is the end of the
packet, or the next byte boundary where AUTO_ALIGN = 1; t has grown by one up to its saturation. That pos holds the packet's
positive changes after it is the model's reading of R28 (notes/assumptions/11.md). -/
def Obligations.DecompressionFrame : Prop :=
  (∀ s t : State, s.du.Inv s.params.streamCap → exec .dPkt s = .next t →
    t = { s with du := t.du }
      ∧ t.du.cfgF = s.du.cfgF ∧ t.du.cfgR = s.du.cfgR ∧ t.du.autoAlign = s.du.autoAlign ∧ t.du.streamLen = s.du.streamLen
      ∧ t.du.numBits = s.du.numBits ∧ t.du.fs = s.du.fs ∧ t.du.rs = s.du.rs
      ∧ t.du.st.cmd = s.du.st.cmd ∧ t.du.st.hazard = s.du.st.hazard
      ∧ (∀ a, ¬(0x3000 ≤ a ∧ a < 0x3000 + (s.du.fs.toNat + 7) / 8) → readByte t.du.win a = readByte s.du.win a)
      ∧ (t.du.st.err = .ok → s.du.st.ready = true →
          ∀ k < 8 * ((s.du.fs.toNat + 7) / 8), (readByte t.du.win (0x3000 + k / 8)).getLsbD (7 - k % 8) =
            if k < s.du.fs.toNat then t.du.prevOutput.getD k false else false))
  ∧ ∀ (s : State) (o rest x delta ks raw ins : BitSeq) (v lcf : Nat) (e c d f r : Bool) (xs es : List Nat)
      (m pos em : Nat → Bool), s.du.Inv s.params.streamCap → s.du.st.ready = true →
    x.length = s.du.fs.toNat → delta.length = s.du.fs.toNat → raw.length = s.du.fs.toNat → v < 16 → lcf ≤ 65537 →
    xs = (List.range s.du.fs.toNat).filter (fun i => x.getD i false) → ks.length = xs.length →
    es = (List.range s.du.fs.toNat).filter em → ins.length = es.length →
    (e = true → 0 < v ∧ xs ≠ []) → (c = true → e = true) → (d = true → f = false ∧ r = false) →
    (∀ i, pos i = (e && x.getD i false && ks.getD (xs.idxOf i) false)) →
    (∀ i < s.du.fs.toNat, m i =
      if f = true then (delta.getD i false ^^ (decide (i + 1 < s.du.fs.toNat) && m (i + 1)))
      else if x.getD i false = true then (if v = 0 then !s.du.dmask.getD i false else !pos i)
      else s.du.dmask.getD i false) →
    (∀ i, em i = (m i || (c && pos i))) →
    o = rleBits x ++ bitsMsb 4 v
      ++ (if 0 < v ∧ xs ≠ [] then [e] ++ (if e = true then ks ++ [c] else []) else [])
      ++ [d] ++ (if d = true then [] else (if f = true then [true] ++ rleBits delta else [false]) ++ [r])
      ++ (if r = true then cntBits lcf ++ raw else ins) →
    unreadBits s.du = o ++ rest →
    ∃ t : State, exec .dPkt s = .next t ∧ t.du.st = { s.du.st with err := .ok }
      ∧ (∀ i < s.du.fs.toNat, t.du.dmask.getD i false = m i ∧ t.du.pos.getD i false = pos i)
      ∧ (r = true → t.du.prevOutput = raw ∧ t.du.lastCountF.toNat = lcf)
      ∧ (r = false → es.reverse.map (fun i => t.du.prevOutput.getD i false) = ins ∧ t.du.lastCountF = s.du.lastCountF
        ∧ ∀ i < s.du.fs.toNat, em i = false → t.du.prevOutput.getD i false = s.du.prevOutput.getD i false)
      ∧ t.du.pktInfo.toNat = v + (if 0 < v ∧ xs ≠ [] then 16 else 0) + 32 * e.toNat + 64 * c.toNat + 128 * d.toNat
        + 512 * f.toNat + 1024 * r.toNat
      ∧ t.du.bitPos.toNat = (if s.du.autoAlign = true then 8 * ((s.du.bitPos.toNat + o.length + 7) / 8)
        else s.du.bitPos.toNat + o.length)
      ∧ t.du.t.toNat = min (s.du.t.toNat + 1) (2 ^ 32 - 1)

/-- R118: what a D_PKT rejects. (a) A stream that ends inside a packet (R392): where a D_PKT reads a packet up to some bit (its
BIT_POS with AUTO_ALIGN = 0), the same D_PKT on the stream cut anywhere before that bit, at either value of AUTO_ALIGN, faults
with UNDERFLOW. (b) A COUNT code word of '111' and eleven zeros, in the window's list, in the mask's list or as COUNT(F), and
(c) a list whose distances pass index 0: the D_PKT faults with MALFORMED. In each case only STATUS changes, BIT_POS staying
(R394). -/
def Obligations.TruncatedPacketUnderflows : Prop :=
  (∀ (s t : State) (n : Word), s.du.st.ready = true → s.du.bitPos.toNat ≤ s.du.numBits.toNat →
    exec .dPkt { s with du := { s.du with autoAlign := false } } = .next t → t.du.st.err = .ok →
    s.du.bitPos.toNat ≤ n.toNat → n.toNat < t.du.bitPos.toNat →
    exec .dPkt { s with du := { s.du with numBits := n } } = .next { s with du := { s.du with
      numBits := n, st := { s.du.st with ready := false, fault := true, err := .underflow } } })
  ∧ ∀ (s : State) (bad : BitSeq → Prop) (h x delta ks rest w : BitSeq) (v : Nat) (e c f : Bool), s.du.st.ready = true →
    (∀ w, bad w ↔ ∃ (ds : List Nat) (y : BitSeq), (∀ d ∈ ds, 1 ≤ d ∧ d ≤ 65537)
      ∧ (s.du.fs.toNat < ds.sum ∧ w = (ds.map cntBits).flatten ++ y
        ∨ ds.sum ≤ s.du.fs.toNat
          ∧ w = (ds.map cntBits).flatten ++ [true, true, true] ++ List.replicate 11 false ++ y)) →
    1 ≤ s.du.fs.toNat → s.du.dmask.length = s.du.fs.toNat →
    x.length = s.du.fs.toNat → delta.length = s.du.fs.toNat → v < 16 → ks.length = x.count true →
    h = rleBits x ++ bitsMsb 4 v
      ++ (if 0 < v ∧ true ∈ x then [e] ++ (if e = true then ks ++ [c] else []) else []) ++ [false] →
    (unreadBits s.du = w ∧ bad w
      ∨ unreadBits s.du = h ++ [true] ++ w ∧ bad w
      ∨ unreadBits s.du = h ++ (if f = true then [true] ++ rleBits delta else [false]) ++ [true]
        ++ [true, true, true] ++ List.replicate 11 false ++ rest) →
    exec .dPkt s = .next { s with du := { s.du with
      st := { s.du.st with ready := false, fault := true, err := .malformed } } }

/-- The shortest packets (R313, R353 to R355): the bits '10', V, '1' with an empty window complete, the mask stays, and BI.REV
reads the bits of the mask's positions; here with an all-zero mask the packet is 7 bits, BIT_POS moves by 7, or on to the next
byte boundary where AUTO_ALIGN = 1, and the last output is repeated. -/
def Obligations.EmptyPacketRepeatsOutput : Prop :=
  ∀ (s : State) (v : Nat) (rest : BitSeq), s.du.Inv s.params.streamCap → s.du.st.ready = true →
    (∀ i, s.du.dmask.getD i false = false) → v < 16 →
    unreadBits s.du = [true, false] ++ bitsMsb 4 v ++ [true] ++ rest →
    ∃ t : State, exec .dPkt s = .next t ∧ t.du.st = { s.du.st with err := .ok } ∧ t.du.dmask = s.du.dmask
      ∧ t.du.prevOutput = s.du.prevOutput ∧ t.du.lastCountF = s.du.lastCountF
      ∧ t.du.pktInfo = BitVec.ofNat 32 (v + 128) ∧ t.du.t.toNat = min (s.du.t.toNat + 1) (2 ^ 32 - 1)
      ∧ (s.du.autoAlign = false → t.du.bitPos.toNat = s.du.bitPos.toNat + 7)
      ∧ (s.du.autoAlign = true → t.du.bitPos.toNat = 8 * ((s.du.bitPos.toNat + 7 + 7) / 8))

/-! ## Whole-machine rules -/

/-- R397: FAULT is sticky, and the only command that clears it is the unit's INIT, which also is the only one that clears HZD
and the only one that sets READY; and INIT always clears both. -/
def Obligations.OnlyInitClearsFault : Prop :=
  (∀ (i : Instr) (s t : State), exec i s = .next t →
      (i ≠ .cInit → (s.cu.st.fault = true → t.cu.st.fault = true) ∧ (s.cu.st.hazard = true → t.cu.st.hazard = true)
          ∧ (t.cu.st.ready = true → s.cu.st.ready = true))
        ∧ (i ≠ .dInit → (s.du.st.fault = true → t.du.st.fault = true) ∧ (s.du.st.hazard = true → t.du.st.hazard = true)
          ∧ (t.du.st.ready = true → s.du.st.ready = true)))
    ∧ (∀ s : State, ∃ t u : State, exec .cInit s = .next t ∧ t.cu.st.fault = false ∧ t.cu.st.hazard = false
        ∧ exec .dInit s = .next u ∧ u.du.st.fault = false ∧ u.du.st.hazard = false)

/-- The units share no state (R3, R56, R86): a command of one unit changes only that unit, and what it makes of it depends on
nothing of the other unit, of the datapath's latches or of the host. -/
def Obligations.UnitsAreIndependent : Prop :=
  ∀ (i : Instr) (s t s' : State), s'.params = s.params → exec i s = .next t →
    (i.format = .cmd .cu → s'.cu = s.cu → t = { s with cu := t.cu } ∧ exec i s' = .next { s' with cu := t.cu })
      ∧ (i.format = .cmd .du → s'.du = s.du → t = { s with du := t.du } ∧ exec i s' = .next { s' with du := t.du })

/-- The state after reset keeps the invariant: the values R57 gives, and those notes/assumptions/6.md chooses. -/
def Obligations.ResetKeepsDataInvariant : Prop := State.reset.Inv

/-- Every step keeps the invariant: the windows' canonical form, F-bit vectors (R153), BIT_POS <= NUM_BITS (R31), NUM_BITS a
multiple of 8 (R50), a buffer within its capacity (R170), READY and FAULT never both 1 (R33), ring indices that follow the
packet count (R23). -/
def Obligations.StepKeepsDataInvariant : Prop :=
  ∀ s t : State, s.Inv → step s = .next t → t.Inv

/-! ## The host interface -/

/-- R421: a host write to any register or window of a BUSY unit is ignored and sets its HZD; a read of its STATUS is current;
a read of any other register or window returns an arbitrary value (`Config.busyRead`, an 8-bit read its low 8 bits), drawn
for that read. -/
def Obligations.BusyUnitAccesses : Prop :=
  ∀ (s : State) (w : Width) (off : Nat) (v : Word),
    (s.cu.st.busy = true → cuTarget w off ≠ .nowhere →
        cuWrite s.cu w off v = { s.cu with st := { s.cu.st with hazard := true } }
          ∧ (cuTarget w off = .reg .status → cuRead s w off = { s with readData := s.cu.statusWord })
          ∧ (cuTarget w off ≠ .reg .status → cuRead s w off = { s with
              readData := if w = .byte then BitVec.ofNat 32 ((Config.busyRead s.drawn).toNat % 256)
                else Config.busyRead s.drawn
              drawn := s.drawn + 1 }))
      ∧ (s.du.st.busy = true → duTarget s.params.streamCap w off ≠ .nowhere →
        duWrite s.params.streamCap s.du w off v = { s.du with st := { s.du.st with hazard := true } }
          ∧ (duTarget s.params.streamCap w off = .reg .status → duRead s w off = { s with readData := s.du.statusWord })
          ∧ (duTarget s.params.streamCap w off ≠ .reg .status → duRead s w off = { s with
              readData := if w = .byte then BitVec.ofNat 32 ((Config.busyRead s.drawn).toNat % 256)
                else Config.busyRead s.drawn
              drawn := s.drawn + 1 }))

/-- R34, R44: a 32-bit read of a register of a unit that is not BUSY gives the register's value and changes nothing else: 0 at CMD,
the status word at STATUS, and each other register at its own offset. R36 to R39, R46 to R48: a configuration or length register of a unit that is not BUSY takes any value and reads it back
exactly; CTRL keeps bit 0 and reads 0 in the others. Every other register, the windows, the session and the other unit stay as
they were. The host's access goes to the register at the unit's base and the register's offset (R34, R44). -/
def Obligations.ConfigurationReadsBack : Prop :=
  ∀ (s : State) (v : Word) (off : Nat), s.params.ok = true →
    (s.cu.st.busy = false → ∀ u : Cu, (off, u) ∈ [(0x008, { s.cu with cfgF := v }), (0x00C, { s.cu with cfgR := v }),
          (0x010, { s.cu with cfgPt := v }), (0x014, { s.cu with cfgFt := v }), (0x018, { s.cu with cfgRt := v }),
          (0x01C, { s.cu with inLen := v })] →
        hostAct s (.write .word (s.params.cBase + off) v) = .next { s with cu := u }
          ∧ hostAct { s with cu := u } (.read .word (s.params.cBase + off)) =
            .next { s with cu := u, readData := v })
      ∧ (s.du.st.busy = false → ∀ u : Du, (off, u) ∈ [(0x008, { s.du with cfgF := v }), (0x00C, { s.du with cfgR := v }),
          (0x014, { s.du with streamLen := v })] →
        hostAct s (.write .word (s.params.dBase + off) v) = .next { s with du := u }
          ∧ hostAct { s with du := u } (.read .word (s.params.dBase + off)) =
            .next { s with du := u, readData := v })
      ∧ (s.du.st.busy = false → ∀ u : Du, u = { s.du with autoAlign := v.getLsbD 0 } →
        hostAct s (.write .word (s.params.dBase + 0x010) v) = .next { s with du := u }
          ∧ hostAct { s with du := u } (.read .word (s.params.dBase + 0x010)) =
            .next { s with du := u, readData := BitVec.ofNat 32 (v.toNat % 2) })
      ∧ (s.cu.st.busy = false → ∀ x : Word, (off, x) ∈ [(0x000, 0), (0x004, s.cu.statusWord), (0x008, s.cu.cfgF),
          (0x00C, s.cu.cfgR), (0x010, s.cu.cfgPt), (0x014, s.cu.cfgFt), (0x018, s.cu.cfgRt), (0x01C, s.cu.inLen),
          (0x020, s.cu.t), (0x024, s.cu.outBits), (0x028, s.cu.ptCnt), (0x02C, s.cu.ftCnt), (0x030, s.cu.rtCnt),
          (0x034, s.cu.pktInfo)] →
        hostAct s (.read .word (s.params.cBase + off)) = .next { s with readData := x })
      ∧ (s.du.st.busy = false → ∀ x : Word, (off, x) ∈ [(0x000, 0), (0x004, s.du.statusWord), (0x008, s.du.cfgF),
          (0x00C, s.du.cfgR), (0x010, BitVec.ofNat 32 s.du.autoAlign.toNat), (0x014, s.du.streamLen),
          (0x018, s.du.bitPos), (0x01C, s.du.numBits), (0x020, s.du.t), (0x024, s.du.pktInfo),
          (0x028, s.du.lastCountF)] →
        hostAct s (.read .word (s.params.dBase + off)) = .next { s with readData := x })

/-- R77: an access of another width, a misaligned one, an 8-bit access to a register, an access to a reserved offset or beyond
STREAM_CAP_BYTES reads 0 and writes nothing, and sets no error bit; so does a write to a RO register or RO window of a
unit that is not BUSY. That the first kinds do nothing, and set no HZD, also where the unit is BUSY is the model's reading of
R77 against R421 (notes/assumptions/10.md). -/
def Obligations.UnsupportedAccessesDoNothing : Prop :=
  ∀ (s : State) (w : Width) (off : Nat) (v : Word), s.params.ok = true → off < 0x80000 →
    (w = .half ∨ w = .other ∨ (w = .word ∧ off % 4 ≠ 0) ∨ (w = .byte ∧ off < 0x1000) ∨ (0x38 ≤ off ∧ off < 0x1000)
        ∨ (0x5000 ≤ off ∧ off < 0x10000) ∨ 0x70000 ≤ off →
        hostAct s (.read w (s.params.cBase + off)) = .next { s with readData := 0 }
          ∧ hostAct s (.write w (s.params.cBase + off) v) = .next s)
      ∧ (w = .half ∨ w = .other ∨ (w = .word ∧ off % 4 ≠ 0) ∨ (w = .byte ∧ off < 0x1000) ∨ (0x2C ≤ off ∧ off < 0x3000)
        ∨ (0x5000 ≤ off ∧ off < 0x10000) ∨ 0x10000 + s.params.streamCap ≤ off →
        hostAct s (.read w (s.params.dBase + off)) = .next { s with readData := 0 }
          ∧ hostAct s (.write w (s.params.dBase + off) v) = .next s)
      ∧ (s.cu.st.busy = false → off = 0x4 ∨ (0x20 ≤ off ∧ off < 0x1000) ∨ 0x10000 ≤ off →
        hostAct s (.write w (s.params.cBase + off) v) = .next s)
      ∧ (s.du.st.busy = false → off = 0x4 ∨ (0x18 ≤ off ∧ off < 0x10000) →
        hostAct s (.write w (s.params.dBase + off) v) = .next s)

/-- R73, R74, R76, of a unit that is not BUSY: a 32-bit write to CU INMASK or IN or to DU STREAM stores the word's bytes, the
byte at the lowest offset from bits [7:0], and reads back; an 8-bit write stores bits [7:0]; every other byte and everything
else keeps its value. An 8-bit read of any window, the OUT windows among them, gives the byte, and a 32-bit read the four
bytes, the one at the lowest offset in bits [7:0]; a read changes nothing but the value read. -/
def Obligations.WindowWordsLittleEndian : Prop :=
  ∀ (s : State) (a : Nat) (v : Word) (word : Memory → Nat), s.params.ok = true →
    (∀ m, word m = (readByte m a).toNat + 2 ^ 8 * (readByte m (a + 1)).toNat + 2 ^ 16 * (readByte m (a + 2)).toNat
      + 2 ^ 24 * (readByte m (a + 3)).toNat) →
    (s.cu.st.busy = false → 0x1000 ≤ a → a < 0x5000 →
        (a % 4 = 0 → ∃ win : Memory,
          hostAct s (.write .word (s.params.cBase + a) v) = .next { s with cu := { s.cu with win := win } }
            ∧ (∀ b, readByte win b =
              if a ≤ b ∧ b < a + 4 then v.extractLsb' (8 * (b - a)) 8 else readByte s.cu.win b)
            ∧ hostAct { s with cu := { s.cu with win := win } } (.read .word (s.params.cBase + a)) =
              .next { s with cu := { s.cu with win := win }, readData := v })
          ∧ ∃ win : Memory,
            hostAct s (.write .byte (s.params.cBase + a) v) = .next { s with cu := { s.cu with win := win } }
              ∧ ∀ b, readByte win b = if b = a then v.extractLsb' 0 8 else readByte s.cu.win b)
      ∧ (s.du.st.busy = false → 0x10000 ≤ a → a < 0x10000 + s.params.streamCap →
        (a % 4 = 0 → a + 4 ≤ 0x10000 + s.params.streamCap → ∃ win : Memory,
          hostAct s (.write .word (s.params.dBase + a) v) = .next { s with du := { s.du with win := win } }
            ∧ (∀ b, readByte win b =
              if a ≤ b ∧ b < a + 4 then v.extractLsb' (8 * (b - a)) 8 else readByte s.du.win b)
            ∧ hostAct { s with du := { s.du with win := win } } (.read .word (s.params.dBase + a)) =
              .next { s with du := { s.du with win := win }, readData := v })
          ∧ ∃ win : Memory,
            hostAct s (.write .byte (s.params.dBase + a) v) = .next { s with du := { s.du with win := win } }
              ∧ ∀ b, readByte win b = if b = a then v.extractLsb' 0 8 else readByte s.du.win b)
      ∧ (s.cu.st.busy = false → 0x1000 ≤ a ∧ a < 0x5000 ∨ 0x10000 ≤ a ∧ a < 0x70000 →
        hostAct s (.read .byte (s.params.cBase + a)) =
            .next { s with readData := BitVec.ofNat 32 (readByte s.cu.win a).toNat }
          ∧ (a % 4 = 0 → hostAct s (.read .word (s.params.cBase + a)) =
            .next { s with readData := BitVec.ofNat 32 (word s.cu.win) }))
      ∧ (s.du.st.busy = false → 0x3000 ≤ a ∧ a < 0x5000 ∨ 0x10000 ≤ a ∧ a < 0x10000 + s.params.streamCap →
        hostAct s (.read .byte (s.params.dBase + a)) =
            .next { s with readData := BitVec.ofNat 32 (readByte s.du.win a).toNat }
          ∧ (a % 4 = 0 → a < 0x5000 ∨ a + 4 ≤ 0x10000 + s.params.streamCap →
            hostAct s (.read .word (s.params.dBase + a)) =
              .next { s with readData := BitVec.ofNat 32 (word s.du.win) }))

/-- R35, R45, R391: the fields of STATUS: BUSY, READY, FAULT, HZD in bits 0 to 3, the code of ERR in [7:4] (OK 0,
INVALID_ARGUMENT 1, OVERFLOW 2, UNDERFLOW 3, NOT_READY 4, MALFORMED 5, BAD_COMMAND 6), AUTO in CU bit 8, and the bits above read
0. -/
def Obligations.StatusWordFields : Prop :=
  ∀ (c : Cu) (d : Du) (code : ErrCode → Nat),
    code .ok = 0 → code .invalidArgument = 1 → code .overflow = 2 → code .underflow = 3 → code .notReady = 4 →
    code .malformed = 5 → code .badCommand = 6 →
    (c.statusWord.getLsbD 0 = c.st.busy ∧ c.statusWord.getLsbD 1 = c.st.ready ∧ c.statusWord.getLsbD 2 = c.st.fault
        ∧ c.statusWord.getLsbD 3 = c.st.hazard ∧ c.statusWord.toNat / 16 % 16 = code c.st.err
        ∧ c.statusWord.getLsbD 8 = c.auto ∧ c.statusWord.toNat < 2 ^ 9)
      ∧ (d.statusWord.getLsbD 0 = d.st.busy ∧ d.statusWord.getLsbD 1 = d.st.ready ∧ d.statusWord.getLsbD 2 = d.st.fault
        ∧ d.statusWord.getLsbD 3 = d.st.hazard ∧ d.statusWord.toNat / 16 % 16 = code d.st.err
        ∧ d.statusWord.toNat < 2 ^ 8)

/-! ## The emitted packet -/

/-- The bits of a C_PKT without error, field by field, and its PKT_INFO (R43, R110 to R113, R302 to R307). With M the mask and I
the packet after the command: x is the or of the change vectors D_t to D_(t-min(t,R)) (R262), v is R and the empty change
vectors before them (R264), and c says that two of the last v + 1 new-mask flags are set (R266). The packet is the run-length
list of x, v in four bits; where v > 0 and x has a set bit, e, which says that some set bit of x is 0 in M, and where e = 1 the
bits of NOT M at x in ascending order and c; d = NOT f AND NOT r; where d = 0, f and, where f = 1, the run-length list of
M ^ (M << 1); where r = 1, '1', COUNT(F) and I; else '0' unless d = 1, and the bits of I at M, or at M | x where c = 1 and v > 0,
in descending order. PKT_INFO holds v, whether e is present, e, c, d, p, f and r. The flags p, f and r are those of
ManualFlagsInPacketInfo and InitialisationPacketsForced. -/
def Obligations.CompressedPacketFields : Prop :=
  ∀ (s t : State) (nm sm uc : Bool) (slot : Nat → BitSeq) (empty : Nat → Prop), s.cu.Inv → s.cu.st.ready = true →
    s.cu.inLen.toNat = (s.cu.fs.toNat + 7) / 8 → exec (.cPkt nm sm uc) s = .next t → t.cu.st.err = .ok →
    (∀ i, slot i = t.cu.hist.get (Fin.ofNat 16 (s.cu.hidx.toNat + 16 - i))) →
    (∀ i, empty i ↔ (i ≤ s.cu.t.toNat ∨ s.params.preHistoryZero = true) ∧ ∀ j, (slot i).getD j false = false) →
    ∃ (x delta : BitSeq) (xs es : List Nat) (v : Nat) (e c d p f r : Bool),
      x.length = s.cu.fs.toNat ∧ delta.length = s.cu.fs.toNat
        ∧ (∀ i < s.cu.fs.toNat, x.getD i false = true ↔
          ∃ k, k ≤ min s.cu.t.toNat s.cu.rs.toNat ∧ (slot k).getD i false = true)
        ∧ (∀ i < s.cu.fs.toNat, delta.getD i false = (t.cu.mask.getD i false ^^ t.cu.mask.getD (i + 1) false))
        ∧ s.cu.rs.toNat ≤ v ∧ v ≤ 15 ∧ (s.cu.t.toNat ≤ s.cu.rs.toNat → v = s.cu.rs.toNat)
        ∧ (s.cu.rs.toNat < s.cu.t.toNat →
          (∀ i, s.cu.rs.toNat < i → i ≤ v → empty i) ∧ (v < 15 → ¬empty (v + 1)))
        ∧ c = decide (2 ≤ p.toNat + ((Finset.Icc 1 v).filter fun i =>
          i ≤ s.cu.t.toNat ∧ s.cu.fhist.get (Fin.ofNat 16 (s.cu.fidx.toNat + 16 - i)) = true).card)
        ∧ xs = (List.range s.cu.fs.toNat).filter (fun i => x.getD i false)
        ∧ es = (List.range s.cu.fs.toNat).filter
          (fun i => t.cu.mask.getD i false || (c && decide (0 < v) && x.getD i false))
        ∧ e = (decide (0 < v) && xs.any fun i => !t.cu.mask.getD i false) ∧ d = (!f && !r)
        ∧ t.cu.pktInfo.toNat = v + (if 0 < v ∧ xs ≠ [] then 16 else 0) + 32 * e.toNat + 64 * c.toNat + 128 * d.toNat
          + 256 * p.toNat + 512 * f.toNat + 1024 * r.toNat
        ∧ t.cu.obuf = rleBits x ++ bitsMsb 4 v
          ++ (if 0 < v ∧ xs ≠ [] then [e] ++ (if e = true then xs.map (fun i => !t.cu.mask.getD i false) ++ [c] else [])
            else [])
          ++ [d] ++ (if d = true then [] else [f] ++ if f = true then rleBits delta else [])
          ++ (if r = true then [true] ++ cntBits s.cu.fs.toNat ++ t.cu.prevInput
            else (if d = true then [] else [false]) ++ es.reverse.map fun i => t.cu.prevInput.getD i false)
end

