-- ==== Sys2Proof/Laws/Bits.lean ====
section
/-! SUPPORT. Laws of bit sequences: lengths, elements, integers spelled by bits, bytes, and the stream's unread bits. -/

namespace Sys2Proof.Machine

/-! ## Lengths and elements of the operators -/

@[simp] theorem length_zeros (n : Nat) : (zeros n).length = n := by simp [zeros]
@[simp] theorem length_vXor (a b : BitSeq) : (vXor a b).length = min a.length b.length := by simp [vXor]
@[simp] theorem length_vOr (a b : BitSeq) : (vOr a b).length = min a.length b.length := by simp [vOr]
@[simp] theorem length_vAnd (a b : BitSeq) : (vAnd a b).length = min a.length b.length := by simp [vAnd]
@[simp] theorem length_vNot (a : BitSeq) : (vNot a).length = a.length := by simp [vNot]
@[simp] theorem length_vRev (a : BitSeq) : (vRev a).length = a.length := by simp [vRev]
@[simp] theorem length_vSet (a : BitSeq) (i : Nat) (v : Bool) : (vSet a i v).length = a.length := by simp [vSet]
@[simp] theorem length_vShl1 (a : BitSeq) : (vShl1 a).length = a.length := by cases a <;> simp [vShl1]

@[simp] theorem getD_zeros (n i : Nat) : (zeros n).getD i false = false := by
  simp only [zeros, List.getD_eq_getElem?_getD, List.getElem?_replicate]
  split <;> rfl

theorem getD_zipWith {f : Bool → Bool → Bool} {a b : BitSeq} {i : Nat} (ha : i < a.length) (hb : i < b.length) :
    (List.zipWith f a b).getD i false = f (a.getD i false) (b.getD i false) := by
  simp [List.getD_eq_getElem?_getD, ha, hb]

theorem getD_vXor {a b : BitSeq} {i : Nat} (ha : i < a.length) (hb : i < b.length) :
    (vXor a b).getD i false = (a.getD i false ^^ b.getD i false) := getD_zipWith ha hb

theorem getD_vOr {a b : BitSeq} {i : Nat} (ha : i < a.length) (hb : i < b.length) :
    (vOr a b).getD i false = (a.getD i false || b.getD i false) := getD_zipWith ha hb

theorem getD_vAnd {a b : BitSeq} {i : Nat} (ha : i < a.length) (hb : i < b.length) :
    (vAnd a b).getD i false = (a.getD i false && b.getD i false) := getD_zipWith ha hb

theorem getD_vNot {a : BitSeq} {i : Nat} (ha : i < a.length) : (vNot a).getD i false = !a.getD i false := by
  simp [vNot, List.getD_eq_getElem?_getD, ha]

theorem getD_vShl1 (a : BitSeq) (i : Nat) : (vShl1 a).getD i false = a.getD (i + 1) false := by
  cases a with
  | nil => rfl
  | cons x r =>
    simp only [vShl1, List.getD_eq_getElem?_getD, List.getElem?_cons_succ]
    rcases Nat.lt_trichotomy i r.length with h | h | h
    · rw [List.getElem?_append_left h]
    · simp [h]
    · rw [List.getElem?_append_right (by omega), List.getElem?_eq_none (by simp; omega), List.getElem?_eq_none (by omega)]

theorem getD_vRev {a : BitSeq} {i : Nat} (h : i < a.length) :
    (vRev a).getD i false = a.getD (a.length - 1 - i) false := by
  simp [vRev, List.getD_eq_getElem?_getD, List.getElem?_reverse h]

theorem getD_vSet {a : BitSeq} (i : Nat) (v : Bool) {j : Nat} (h : j < a.length) :
    (vSet a i v).getD j false = if j = i then v else a.getD j false := by
  by_cases hj : j = i
  · subst hj; simp [vSet, List.getD_eq_getElem?_getD, h]
  · simp [vSet, List.getD_eq_getElem?_getD, hj, Ne.symm hj]

/-- Two bit sequences of one length with the same elements are the same. -/
theorem bitSeq_ext {a b : BitSeq} (hl : a.length = b.length) (h : ∀ i < a.length, a.getD i false = b.getD i false) :
    a = b := by
  apply List.ext_getElem hl
  intro i h1 h2
  have := h i h1
  simpa [List.getD_eq_getElem?_getD, h1, h2] using this

theorem anySet_iff (a : BitSeq) : anySet a = true ↔ ∃ i, a.getD i false = true := by
  simp only [anySet, List.any_eq_true, id]
  constructor
  · rintro ⟨b, hb, rfl⟩
    obtain ⟨i, hi, he⟩ := List.getElem_of_mem hb
    exact ⟨i, by simp [List.getD_eq_getElem?_getD, hi, he]⟩
  · rintro ⟨i, hi⟩
    by_cases h : i < a.length
    · exact ⟨a[i], List.getElem_mem h, by simpa [List.getD_eq_getElem?_getD, h] using hi⟩
    · simp [List.getD_eq_getElem?_getD, List.getElem?_eq_none (Nat.le_of_not_lt h)] at hi

theorem anySet_eq_false_iff (a : BitSeq) : anySet a = false ↔ ∀ i, a.getD i false = false := by
  rw [← Bool.not_eq_true, anySet_iff]; simp

@[simp] theorem anySet_zeros (n : Nat) : anySet (zeros n) = false :=
  (anySet_eq_false_iff _).mpr (getD_zeros n)

/-! ## Integers spelled by bits -/

theorem natMsbFrom_eq (acc : Nat) (s : BitSeq) : natMsbFrom acc s = acc * 2 ^ s.length + natMsb s := by
  induction s generalizing acc with
  | nil => simp [natMsbFrom, natMsb]
  | cons b r ih =>
    simp only [natMsbFrom, natMsb, List.length_cons] at ih ⊢
    rw [ih (2 * acc + b.toNat), ih (2 * 0 + b.toNat)]
    ring

@[simp] theorem natMsb_nil : natMsb [] = 0 := rfl

theorem natMsb_cons (b : Bool) (s : BitSeq) : natMsb (b :: s) = b.toNat * 2 ^ s.length + natMsb s := by
  rw [natMsb, natMsbFrom, natMsbFrom_eq]; simp

theorem natMsb_lt (s : BitSeq) : natMsb s < 2 ^ s.length := by
  induction s with
  | nil => simp
  | cons b r ih =>
    rw [natMsb_cons, List.length_cons, pow_succ]
    cases b <;> simp <;> omega

theorem natMsb_append (s r : BitSeq) : natMsb (s ++ r) = natMsb s * 2 ^ r.length + natMsb r := by
  induction s with
  | nil => simp
  | cons b s ih => simp only [List.cons_append, natMsb_cons, ih, List.length_append, pow_add]; ring

@[simp] theorem length_bitsMsb (n v : Nat) : (bitsMsb n v).length = n := by
  induction n with
  | zero => rfl
  | succ n ih => simp [bitsMsb, ih]

theorem natMsb_bitsMsb (n v : Nat) : natMsb (bitsMsb n v) = v % 2 ^ n := by
  induction n with
  | zero => simp [bitsMsb, Nat.mod_one]
  | succ n ih =>
    have hb : (v.testBit n).toNat = v / 2 ^ n % 2 := by
      rw [Nat.testBit_eq_decide_div_mod_eq]
      rcases Nat.mod_two_eq_zero_or_one (v / 2 ^ n) with h | h <;> simp [h]
    rw [bitsMsb, natMsb_cons, length_bitsMsb, ih, hb, pow_succ, Nat.mod_mul]
    ring

/-- The bits of an integer's own spelling. -/
theorem bitsMsb_natMsb (s : BitSeq) : bitsMsb s.length (natMsb s) = s := by
  induction s with
  | nil => rfl
  | cons b r ih =>
    have hr := natMsb_lt r
    have hlow : ∀ n v : Nat, bitsMsb n (v % 2 ^ n) = bitsMsb n v := by
      intro n
      have : ∀ k n v : Nat, k ≤ n → bitsMsb k (v % 2 ^ n) = bitsMsb k v := by
        intro k n v hk
        induction k with
        | zero => rfl
        | succ k ih => simp only [bitsMsb, ih (by omega), Nat.testBit_mod_two_pow]; simp; omega
      exact fun v => this n n v (Nat.le_refl n)
    rw [List.length_cons, bitsMsb, natMsb_cons]
    congr 1
    · rw [Nat.testBit, Nat.shiftRight_eq_div_pow]
      have : (b.toNat * 2 ^ r.length + natMsb r) / 2 ^ r.length = b.toNat := by
        rw [Nat.add_comm, Nat.add_mul_div_right _ _ (Nat.two_pow_pos _), Nat.div_eq_of_lt hr, Nat.zero_add]
      rw [this]; cases b <;> rfl
    · rw [← hlow, Nat.add_comm, Nat.add_mul_mod_self_right, Nat.mod_eq_of_lt hr, ih]

/-- The loop of `get` as a fold. -/
theorem natMsb_eq_foldl (s : BitSeq) : natMsb s = s.foldl (fun v b => 2 * v + b.toNat) 0 := by
  have : ∀ (acc : Nat) (s : BitSeq), natMsbFrom acc s = s.foldl (fun v b => 2 * v + b.toNat) acc := by
    intro acc s
    induction s generalizing acc with
    | nil => rfl
    | cons b r ih => simp [natMsbFrom, ih]
  exact this 0 s

theorem testBit_natMsb (s : BitSeq) (k : Nat) (h : k < s.length) :
    (natMsb s).testBit (s.length - 1 - k) = s.getD k false := by
  induction s generalizing k with
  | nil => simp at h
  | cons b r ih =>
    rw [natMsb_cons]
    have hr := natMsb_lt r
    rw [Nat.mul_comm, Nat.testBit_two_pow_mul_add _ hr]
    cases k with
    | zero => simp; cases b <;> rfl
    | succ k =>
      have hk : k < r.length := by simpa using h
      have h1 : (b :: r).length - 1 - (k + 1) < r.length := by simp; omega
      rw [if_pos h1]
      have h2 : (b :: r).length - 1 - (k + 1) = r.length - 1 - k := by simp; omega
      rw [h2, ih k hk]; simp

/-! ## Bytes -/

@[simp] theorem length_byteBits (b : Byte) : (byteBits b).length = 8 := rfl

theorem getD_byteBits (b : Byte) (k : Nat) (h : k < 8) : (byteBits b).getD k false = b.getLsbD (7 - k) := by
  match k, h with
  | 0, _ => simp [byteBits, BitVec.getMsbD]
  | 1, _ => simp [byteBits, BitVec.getMsbD]
  | 2, _ => simp [byteBits, BitVec.getMsbD]
  | 3, _ => simp [byteBits, BitVec.getMsbD]
  | 4, _ => simp [byteBits, BitVec.getMsbD]
  | 5, _ => simp [byteBits, BitVec.getMsbD]
  | 6, _ => simp [byteBits, BitVec.getMsbD]
  | 7, _ => simp [byteBits, BitVec.getMsbD]

theorem getLsbD_byteOf (s : BitSeq) (k : Nat) (h : k < 8) : (byteOf s).getLsbD (7 - k) = s.getD k false := by
  have hl : ((s ++ zeros 8).take 8).length = 8 := by simp
  have := testBit_natMsb ((s ++ zeros 8).take 8) k (by omega)
  rw [hl] at this
  rw [byteOf, BitVec.getLsbD_ofNat, show 8 - 1 - k = 7 - k from rfl] at *
  rw [this]
  have h7 : 7 - k < 8 := by omega
  simp only [h7, decide_true, Bool.true_and, List.getD_eq_getElem?_getD, List.getElem?_take, h, if_true]
  by_cases hs : k < s.length
  · rw [List.getElem?_append_left hs]
  · rw [List.getElem?_append_right (by omega), List.getElem?_eq_none (l := s) (by omega)]
    exact getD_zeros 8 _

@[simp] theorem length_bytesOf (n : Nat) (s : BitSeq) : (bytesOf n s).length = n := by
  induction n generalizing s with
  | zero => rfl
  | succ n ih => simp [bytesOf, ih]

theorem getLsbD_bytesOf (n : Nat) (s : BitSeq) (j k : Nat) (hj : j < n) (hk : k < 8) :
    ((bytesOf n s).getD j 0).getLsbD (7 - k) = s.getD (8 * j + k) false := by
  induction n generalizing s j with
  | zero => omega
  | succ n ih =>
    cases j with
    | zero =>
      simp only [bytesOf, List.getD_cons_zero, getLsbD_byteOf _ k hk]
      simp [List.getD_eq_getElem?_getD, hk]
    | succ j =>
      simp only [bytesOf, List.getD_cons_succ]
      rw [ih (s.drop 8) j (by omega)]
      simp only [List.getD_eq_getElem?_getD, List.getElem?_drop]
      congr 2; ring

@[simp] theorem length_packBits (s : BitSeq) : (packBits s).length = byteCount s.length := by simp [packBits]

theorem getLsbD_packBits (s : BitSeq) (j k : Nat) (hj : j < byteCount s.length) (hk : k < 8) :
    ((packBits s).getD j 0).getLsbD (7 - k) = s.getD (8 * j + k) false := getLsbD_bytesOf _ _ _ _ hj hk

theorem length_flatMap_byteBits (l : List Byte) : (l.flatMap byteBits).length = 8 * l.length := by
  induction l with
  | nil => rfl
  | cons b l ih => simp [List.flatMap_cons, ih]; ring

theorem getD_flatMap_byteBits (l : List Byte) (i : Nat) (h : i < 8 * l.length) :
    (l.flatMap byteBits).getD i false = (l.getD (i / 8) 0).getLsbD (7 - i % 8) := by
  induction l generalizing i with
  | nil => simp at h
  | cons b l ih =>
    rw [List.flatMap_cons]
    by_cases hi : i < 8
    · have h0 : i / 8 = 0 := by omega
      have h1 : i % 8 = i := by omega
      rw [List.getD_append _ _ _ _ (by simpa using hi), h0, h1, getD_byteBits b i hi]; simp
    · rw [List.getD_append_right _ _ _ _ (by simp; omega), length_byteBits, ih (i - 8) (by simp at h; omega)]
      have h0 : i / 8 = (i - 8) / 8 + 1 := by omega
      have h1 : (i - 8) % 8 = i % 8 := by omega
      rw [h0, h1]; simp

theorem length_unpackBits (n : Nat) (l : List Byte) : (unpackBits n l).length = min n (8 * l.length) := by
  rw [unpackBits, List.length_take, length_flatMap_byteBits]

theorem getD_unpackBits (n : Nat) (l : List Byte) (i : Nat) (hn : i < n) (hl : i < 8 * l.length) :
    (unpackBits n l).getD i false = (l.getD (i / 8) 0).getLsbD (7 - i % 8) := by
  rw [← getD_flatMap_byteBits l i hl]
  simp [unpackBits, List.getD_eq_getElem?_getD, hn]

theorem le_byteCount (n : Nat) : n ≤ 8 * byteCount n := by unfold byteCount; omega

@[simp] theorem length_readBytes (m : Memory) (a n : Nat) : (readBytes m a n).length = n := by simp [readBytes]

theorem getD_readBytes (m : Memory) (a n j : Nat) (h : j < n) : (readBytes m a n).getD j 0 = readByte m (a + j) := by
  simp [readBytes, List.getD_eq_getElem?_getD, h]

@[simp] theorem length_windowVector (m : Memory) (a n : Nat) : (windowVector m a n).length = n := by
  have := le_byteCount n
  simp [windowVector, length_unpackBits, this]

theorem getD_windowVector (m : Memory) (a n i : Nat) (h : i < n) :
    (windowVector m a n).getD i false = (readByte m (a + i / 8)).getLsbD (7 - i % 8) := by
  have := le_byteCount n
  rw [windowVector, getD_unpackBits _ _ _ h (by simp; omega), getD_readBytes _ _ _ _ (by unfold byteCount; omega)]

/-! ## The stream -/

@[simp] theorem length_unreadBits (u : Du) : (unreadBits u).length = remaining u := by simp [unreadBits]

theorem getD_unreadBits (u : Du) (k : Nat) (h : k < remaining u) :
    (unreadBits u).getD k false = streamBit u (u.bitPos.toNat + k) := by
  simp [unreadBits, List.getD_eq_getElem?_getD, h]

end Sys2Proof.Machine
end

