-- ==== Sys2Proof/Laws/Memory.lean ====
section
/-! SUPPORT. Laws of the windows' bytes: a read after a write, and the canonical form every memory operation keeps. -/

namespace Sys2Proof.Machine

@[simp] theorem readByte_nil (a : Nat) : readByte [] a = 0 := rfl

theorem readByte_cons (k : Nat) (v : Byte) (m : Memory) (a : Nat) :
    readByte ((k, v) :: m) a = if k = a then v else readByte m a := rfl

theorem readByte_eraseByte (m : Memory) (a b : Nat) :
    readByte (eraseByte m a) b = if b = a then 0 else readByte m b := by
  induction m with
  | nil => simp [eraseByte]
  | cons c m ih =>
    obtain ⟨k, v⟩ := c
    simp only [eraseByte, List.filter_cons] at ih ⊢
    by_cases hk : k = a
    · subst hk
      by_cases hb : b = k
      · simp [hb] at ih ⊢; exact ih
      · simp [hb, readByte_cons, Ne.symm hb] at ih ⊢; exact ih
    · by_cases hkb : k = b
      · subst hkb; simp [hk, readByte_cons]
      · simp [hk, readByte_cons, hkb, ih]

theorem readByte_insertByte (m : Memory) (a : Nat) (v : Byte) (b : Nat) (h : ∀ c ∈ m, c.1 ≠ a) :
    readByte (insertByte m a v) b = if b = a then v else readByte m b := by
  induction m with
  | nil =>
    by_cases hb : b = a
    · simp [insertByte, readByte_cons, hb]
    · simp [insertByte, readByte_cons, hb, Ne.symm hb]
  | cons c m ih =>
    obtain ⟨k, w⟩ := c
    have hk : k ≠ a := h (k, w) (by simp)
    have ih := ih fun c hc => h c (by simp [hc])
    unfold insertByte
    split
    · by_cases hb : b = a
      · simp [readByte_cons, hb]
      · simp [readByte_cons, hb, Ne.symm hb, eq_comm]
    · simp only [readByte_cons, ih]
      by_cases hkb : k = b
      · subst hkb; simp [hk]
      · simp [hkb]

theorem eraseByte_ne (m : Memory) (a : Nat) : ∀ c ∈ eraseByte m a, c.1 ≠ a := by
  intro c hc
  simpa [eraseByte] using (List.mem_filter.mp hc).2

/-- A read after a write: the byte written at its offset, and every other byte as before. -/
theorem readByte_writeByte (m : Memory) (a : Nat) (v : Byte) (b : Nat) :
    readByte (writeByte m a v) b = if b = a then v else readByte m b := by
  unfold writeByte
  split
  · rename_i hv; simp [readByte_eraseByte, hv]
  · rw [readByte_insertByte _ _ _ _ (eraseByte_ne m a), readByte_eraseByte]
    by_cases hb : b = a <;> simp [hb]

/-- A read after a run of bytes is written. -/
theorem readByte_writeBytes (m : Memory) (a : Nat) (l : List Byte) (b : Nat) :
    readByte (writeBytes m a l) b = if a ≤ b ∧ b < a + l.length then l.getD (b - a) 0 else readByte m b := by
  induction l generalizing m a with
  | nil => have : ¬(a ≤ b ∧ b < a) := by omega
           simp [writeBytes, this]
  | cons x l ih =>
    simp only [writeBytes, ih, readByte_writeByte, List.length_cons]
    by_cases h1 : a + 1 ≤ b ∧ b < a + 1 + l.length
    · have h2 : a ≤ b ∧ b < a + (l.length + 1) := by omega
      rw [if_pos h1, if_pos h2]
      have : b - a = (b - (a + 1)) + 1 := by omega
      simp [this]
    · by_cases hb : b = a
      · subst hb; simp
      · have h2 : ¬(a ≤ b ∧ b < a + (l.length + 1)) := by omega
        rw [if_neg h1, if_neg h2, if_neg hb]

/-! ## The canonical form -/

@[simp] theorem Memory.wf_nil : Memory.wf [] := by simp [Memory.wf]

theorem Memory.wf_eraseByte {m : Memory} (h : m.wf) (a : Nat) : Memory.wf (eraseByte m a) :=
  ⟨h.1.sublist List.filter_sublist, fun c hc => h.2 c (List.mem_filter.mp hc).1⟩

theorem mem_insertByte {m : Memory} {a : Nat} {v : Byte} {c : Host.Cell} (h : c ∈ insertByte m a v) :
    c = (a, v) ∨ c ∈ m := by
  induction m with
  | nil => simpa [insertByte] using h
  | cons d m ih =>
    obtain ⟨k, w⟩ := d
    unfold insertByte at h
    split at h
    · simpa using h
    · rcases List.mem_cons.mp h with h | h
      · simp [h]
      · rcases ih h with h | h <;> simp [h]

theorem Memory.wf_insertByte {m : Memory} (h : m.wf) (a : Nat) {v : Byte} (hv : v ≠ 0) (ha : ∀ c ∈ m, c.1 ≠ a) :
    Memory.wf (insertByte m a v) := by
  induction m with
  | nil => simpa [insertByte, Memory.wf] using hv
  | cons d m ih =>
    obtain ⟨k, w⟩ := d
    obtain ⟨hp, hz⟩ := h
    rw [List.pairwise_cons] at hp
    have hk : k ≠ a := ha (k, w) (by simp)
    unfold insertByte
    split
    · rename_i hlt
      refine ⟨List.pairwise_cons.mpr ⟨fun c hc => ?_, List.pairwise_cons.mpr hp⟩, fun c hc => ?_⟩
      · rcases List.mem_cons.mp hc with rfl | hc
        · exact hlt
        · exact Nat.lt_trans hlt (hp.1 c hc)
      · rcases List.mem_cons.mp hc with rfl | hc
        · exact hv
        · exact hz c hc
    · have hm := ih ⟨hp.2, fun c hc => hz c (by simp [hc])⟩ fun c hc => ha c (by simp [hc])
      refine ⟨List.pairwise_cons.mpr ⟨fun c hc => ?_, hm.1⟩, fun c hc => ?_⟩
      · rcases mem_insertByte hc with rfl | hc
        · show k < a; omega
        · exact hp.1 c hc
      · rcases List.mem_cons.mp hc with rfl | hc
        · exact hz _ (by simp)
        · exact hm.2 c hc

/-- Storing a byte keeps the canonical form. -/
theorem Memory.wf_writeByte {m : Memory} (h : m.wf) (a : Nat) (v : Byte) : Memory.wf (writeByte m a v) := by
  unfold writeByte
  split
  · exact Memory.wf_eraseByte h a
  · rename_i hv; exact Memory.wf_insertByte (Memory.wf_eraseByte h a) a hv (eraseByte_ne m a)

/-- Storing a run of bytes keeps the canonical form. -/
theorem Memory.wf_writeBytes {m : Memory} (h : m.wf) (a : Nat) (l : List Byte) : Memory.wf (writeBytes m a l) := by
  induction l generalizing m a with
  | nil => exact h
  | cons x l ih => exact ih (Memory.wf_writeByte h a x) (a + 1)

/-- Memories in canonical form that read the same everywhere are the same data. -/
theorem Memory.ext_of_wf {m n : Memory} (hm : m.wf) (hn : n.wf) (h : ∀ a, readByte m a = readByte n a) : m = n := by
  have out : ∀ {l : Memory} {a : Nat}, (∀ c ∈ l, a < c.1) → readByte l a = 0 := by
    intro l a hl
    induction l with
    | nil => rfl
    | cons c l ih =>
      obtain ⟨k, v⟩ := c
      have : k ≠ a := Nat.ne_of_gt (hl (k, v) (by simp))
      simp [readByte_cons, this, ih fun c hc => hl c (by simp [hc])]
  induction m generalizing n with
  | nil =>
    cases n with
    | nil => rfl
    | cons d n => have := h d.1; simp [readByte] at this; exact absurd this.symm (hn.2 d (by simp))
  | cons c m ih =>
    cases n with
    | nil => have := h c.1; simp [readByte] at this; exact absurd this (hm.2 c (by simp))
    | cons d n =>
      obtain ⟨k, v⟩ := c
      obtain ⟨l, w⟩ := d
      obtain ⟨hmp, hmz⟩ := hm
      obtain ⟨hnp, hnz⟩ := hn
      rw [List.pairwise_cons] at hmp hnp
      have hk : k = l := by
        rcases Nat.lt_trichotomy k l with hlt | he | hlt
        · have h1 := h k
          have h2 : l ≠ k := Nat.ne_of_gt hlt
          have h3 : readByte n k = 0 := out fun c hc => Nat.lt_trans hlt (hnp.1 c hc)
          simp [readByte_cons, h2, h3] at h1
          exact absurd h1 (hmz (k, v) (by simp))
        · exact he
        · have h1 := h l
          have h2 : k ≠ l := Nat.ne_of_gt hlt
          have h3 : readByte m l = 0 := out fun c hc => Nat.lt_trans hlt (hmp.1 c hc)
          simp [readByte_cons, h2, h3] at h1
          exact absurd h1.symm (hnz (l, w) (by simp))
      subst hk
      have hv : v = w := by have := h k; simpa [readByte_cons] using this
      subst hv
      have hmn : m = n := by
        refine ih ⟨hmp.2, fun c hc => hmz c (by simp [hc])⟩ ⟨hnp.2, fun c hc => hnz c (by simp [hc])⟩ fun a => ?_
        by_cases ha : k = a
        · subst ha; rw [out hmp.1, out hnp.1]
        · have := h a; simpa [readByte_cons, ha] using this
      rw [hmn]

end Sys2Proof.Machine
end

