-- ==== Sys2Proof/Laws/State.lean ====
section
/-! SUPPORT. One lemma per field per named update of the state, each true by `rfl`, so that no proof unfolds a record
update. -/

namespace Sys2Proof.Machine

/-! ## Status -/

@[simp] theorem Status.raise_cmd (s : Status) (e : ErrCode) : (s.raise e).cmd = s.cmd := rfl
@[simp] theorem Status.raise_ready (s : Status) (e : ErrCode) : (s.raise e).ready = false := rfl
@[simp] theorem Status.raise_fault (s : Status) (e : ErrCode) : (s.raise e).fault = true := rfl
@[simp] theorem Status.raise_hazard (s : Status) (e : ErrCode) : (s.raise e).hazard = s.hazard := rfl
@[simp] theorem Status.raise_err (s : Status) (e : ErrCode) : (s.raise e).err = e := rfl
@[simp] theorem Status.report_cmd (s : Status) (e : ErrCode) : (s.report e).cmd = s.cmd := rfl
@[simp] theorem Status.report_ready (s : Status) (e : ErrCode) : (s.report e).ready = s.ready := rfl
@[simp] theorem Status.report_fault (s : Status) (e : ErrCode) : (s.report e).fault = s.fault := rfl
@[simp] theorem Status.report_hazard (s : Status) (e : ErrCode) : (s.report e).hazard = s.hazard := rfl
@[simp] theorem Status.report_err (s : Status) (e : ErrCode) : (s.report e).err = e := rfl
@[simp] theorem Status.initFailed_cmd (s : Status) : (s.initFailed).cmd = s.cmd := rfl
@[simp] theorem Status.initFailed_ready (s : Status) : (s.initFailed).ready = false := rfl
@[simp] theorem Status.initFailed_fault (s : Status) : (s.initFailed).fault = false := rfl
@[simp] theorem Status.initFailed_hazard (s : Status) : (s.initFailed).hazard = false := rfl
@[simp] theorem Status.initFailed_err (s : Status) : (s.initFailed).err = .invalidArgument := rfl
@[simp] theorem Status.initDone_cmd (s : Status) : (s.initDone).cmd = s.cmd := rfl
@[simp] theorem Status.initDone_ready (s : Status) : (s.initDone).ready = true := rfl
@[simp] theorem Status.initDone_fault (s : Status) : (s.initDone).fault = false := rfl
@[simp] theorem Status.initDone_hazard (s : Status) : (s.initDone).hazard = false := rfl
@[simp] theorem Status.initDone_err (s : Status) : (s.initDone).err = .ok := rfl
@[simp] theorem Status.hazardous_cmd (s : Status) : (s.hazardous).cmd = s.cmd := rfl
@[simp] theorem Status.hazardous_ready (s : Status) : (s.hazardous).ready = s.ready := rfl
@[simp] theorem Status.hazardous_fault (s : Status) : (s.hazardous).fault = s.fault := rfl
@[simp] theorem Status.hazardous_hazard (s : Status) : (s.hazardous).hazard = true := rfl
@[simp] theorem Status.hazardous_err (s : Status) : (s.hazardous).err = s.err := rfl
@[simp] theorem Status.raise_busy (s : Status) (e : ErrCode) : (s.raise e).busy = s.busy := rfl
@[simp] theorem Status.report_busy (s : Status) (e : ErrCode) : (s.report e).busy = s.busy := rfl
@[simp] theorem Status.initFailed_busy (s : Status) : (s.initFailed).busy = s.busy := rfl
@[simp] theorem Status.initDone_busy (s : Status) : (s.initDone).busy = s.busy := rfl
@[simp] theorem Status.hazardous_busy (s : Status) : (s.hazardous).busy = s.busy := rfl

/-! ## The compressor unit -/

@[simp] theorem Cu.raise_cfgF (u : Cu) (e : ErrCode) : (u.raise e).cfgF = u.cfgF := rfl
@[simp] theorem Cu.raise_cfgR (u : Cu) (e : ErrCode) : (u.raise e).cfgR = u.cfgR := rfl
@[simp] theorem Cu.raise_cfgPt (u : Cu) (e : ErrCode) : (u.raise e).cfgPt = u.cfgPt := rfl
@[simp] theorem Cu.raise_cfgFt (u : Cu) (e : ErrCode) : (u.raise e).cfgFt = u.cfgFt := rfl
@[simp] theorem Cu.raise_cfgRt (u : Cu) (e : ErrCode) : (u.raise e).cfgRt = u.cfgRt := rfl
@[simp] theorem Cu.raise_inLen (u : Cu) (e : ErrCode) : (u.raise e).inLen = u.inLen := rfl
@[simp] theorem Cu.raise_st (u : Cu) (e : ErrCode) : (u.raise e).st = u.st.raise e := rfl
@[simp] theorem Cu.raise_auto (u : Cu) (e : ErrCode) : (u.raise e).auto = u.auto := rfl
@[simp] theorem Cu.raise_fs (u : Cu) (e : ErrCode) : (u.raise e).fs = u.fs := rfl
@[simp] theorem Cu.raise_rs (u : Cu) (e : ErrCode) : (u.raise e).rs = u.rs := rfl
@[simp] theorem Cu.raise_ptL (u : Cu) (e : ErrCode) : (u.raise e).ptL = u.ptL := rfl
@[simp] theorem Cu.raise_ftL (u : Cu) (e : ErrCode) : (u.raise e).ftL = u.ftL := rfl
@[simp] theorem Cu.raise_rtL (u : Cu) (e : ErrCode) : (u.raise e).rtL = u.rtL := rfl
@[simp] theorem Cu.raise_mask (u : Cu) (e : ErrCode) : (u.raise e).mask = u.mask := rfl
@[simp] theorem Cu.raise_prevMask (u : Cu) (e : ErrCode) : (u.raise e).prevMask = u.prevMask := rfl
@[simp] theorem Cu.raise_build (u : Cu) (e : ErrCode) : (u.raise e).build = u.build := rfl
@[simp] theorem Cu.raise_prevInput (u : Cu) (e : ErrCode) : (u.raise e).prevInput = u.prevInput := rfl
@[simp] theorem Cu.raise_hist (u : Cu) (e : ErrCode) : (u.raise e).hist = u.hist := rfl
@[simp] theorem Cu.raise_hidx (u : Cu) (e : ErrCode) : (u.raise e).hidx = u.hidx := rfl
@[simp] theorem Cu.raise_fhist (u : Cu) (e : ErrCode) : (u.raise e).fhist = u.fhist := rfl
@[simp] theorem Cu.raise_fidx (u : Cu) (e : ErrCode) : (u.raise e).fidx = u.fidx := rfl
@[simp] theorem Cu.raise_t (u : Cu) (e : ErrCode) : (u.raise e).t = u.t := rfl
@[simp] theorem Cu.raise_ptCnt (u : Cu) (e : ErrCode) : (u.raise e).ptCnt = u.ptCnt := rfl
@[simp] theorem Cu.raise_ftCnt (u : Cu) (e : ErrCode) : (u.raise e).ftCnt = u.ftCnt := rfl
@[simp] theorem Cu.raise_rtCnt (u : Cu) (e : ErrCode) : (u.raise e).rtCnt = u.rtCnt := rfl
@[simp] theorem Cu.raise_obuf (u : Cu) (e : ErrCode) : (u.raise e).obuf = u.obuf := rfl
@[simp] theorem Cu.raise_outBits (u : Cu) (e : ErrCode) : (u.raise e).outBits = u.outBits := rfl
@[simp] theorem Cu.raise_pktInfo (u : Cu) (e : ErrCode) : (u.raise e).pktInfo = u.pktInfo := rfl
@[simp] theorem Cu.raise_win (u : Cu) (e : ErrCode) : (u.raise e).win = u.win := rfl
@[simp] theorem Cu.raise_tmp (u : Cu) (e : ErrCode) : (u.raise e).tmp = u.tmp := rfl

@[simp] theorem Cu.clear_cfgF (u : Cu) : (u.clear).cfgF = u.cfgF := rfl
@[simp] theorem Cu.clear_cfgR (u : Cu) : (u.clear).cfgR = u.cfgR := rfl
@[simp] theorem Cu.clear_cfgPt (u : Cu) : (u.clear).cfgPt = u.cfgPt := rfl
@[simp] theorem Cu.clear_cfgFt (u : Cu) : (u.clear).cfgFt = u.cfgFt := rfl
@[simp] theorem Cu.clear_cfgRt (u : Cu) : (u.clear).cfgRt = u.cfgRt := rfl
@[simp] theorem Cu.clear_inLen (u : Cu) : (u.clear).inLen = u.inLen := rfl
@[simp] theorem Cu.clear_st (u : Cu) : (u.clear).st = u.st := rfl
@[simp] theorem Cu.clear_auto (u : Cu) : (u.clear).auto = u.auto := rfl
@[simp] theorem Cu.clear_fs (u : Cu) : (u.clear).fs = u.fs := rfl
@[simp] theorem Cu.clear_rs (u : Cu) : (u.clear).rs = u.rs := rfl
@[simp] theorem Cu.clear_ptL (u : Cu) : (u.clear).ptL = u.ptL := rfl
@[simp] theorem Cu.clear_ftL (u : Cu) : (u.clear).ftL = u.ftL := rfl
@[simp] theorem Cu.clear_rtL (u : Cu) : (u.clear).rtL = u.rtL := rfl
@[simp] theorem Cu.clear_mask (u : Cu) : (u.clear).mask = u.mask := rfl
@[simp] theorem Cu.clear_prevMask (u : Cu) : (u.clear).prevMask = u.prevMask := rfl
@[simp] theorem Cu.clear_build (u : Cu) : (u.clear).build = u.build := rfl
@[simp] theorem Cu.clear_prevInput (u : Cu) : (u.clear).prevInput = u.prevInput := rfl
@[simp] theorem Cu.clear_hist (u : Cu) : (u.clear).hist = u.hist := rfl
@[simp] theorem Cu.clear_hidx (u : Cu) : (u.clear).hidx = u.hidx := rfl
@[simp] theorem Cu.clear_fhist (u : Cu) : (u.clear).fhist = u.fhist := rfl
@[simp] theorem Cu.clear_fidx (u : Cu) : (u.clear).fidx = u.fidx := rfl
@[simp] theorem Cu.clear_t (u : Cu) : (u.clear).t = u.t := rfl
@[simp] theorem Cu.clear_ptCnt (u : Cu) : (u.clear).ptCnt = u.ptCnt := rfl
@[simp] theorem Cu.clear_ftCnt (u : Cu) : (u.clear).ftCnt = u.ftCnt := rfl
@[simp] theorem Cu.clear_rtCnt (u : Cu) : (u.clear).rtCnt = u.rtCnt := rfl
@[simp] theorem Cu.clear_obuf (u : Cu) : (u.clear).obuf = [] := rfl
@[simp] theorem Cu.clear_outBits (u : Cu) : (u.clear).outBits = u.outBits := rfl
@[simp] theorem Cu.clear_pktInfo (u : Cu) : (u.clear).pktInfo = u.pktInfo := rfl
@[simp] theorem Cu.clear_win (u : Cu) : (u.clear).win = u.win := rfl
@[simp] theorem Cu.clear_tmp (u : Cu) : (u.clear).tmp = u.tmp := rfl

@[simp] theorem muBuild_cfgF (u : Cu) : (muBuild u).cfgF = u.cfgF := rfl
@[simp] theorem muBuild_cfgR (u : Cu) : (muBuild u).cfgR = u.cfgR := rfl
@[simp] theorem muBuild_cfgPt (u : Cu) : (muBuild u).cfgPt = u.cfgPt := rfl
@[simp] theorem muBuild_cfgFt (u : Cu) : (muBuild u).cfgFt = u.cfgFt := rfl
@[simp] theorem muBuild_cfgRt (u : Cu) : (muBuild u).cfgRt = u.cfgRt := rfl
@[simp] theorem muBuild_inLen (u : Cu) : (muBuild u).inLen = u.inLen := rfl
@[simp] theorem muBuild_st (u : Cu) : (muBuild u).st = u.st := rfl
@[simp] theorem muBuild_auto (u : Cu) : (muBuild u).auto = u.auto := rfl
@[simp] theorem muBuild_fs (u : Cu) : (muBuild u).fs = u.fs := rfl
@[simp] theorem muBuild_rs (u : Cu) : (muBuild u).rs = u.rs := rfl
@[simp] theorem muBuild_ptL (u : Cu) : (muBuild u).ptL = u.ptL := rfl
@[simp] theorem muBuild_ftL (u : Cu) : (muBuild u).ftL = u.ftL := rfl
@[simp] theorem muBuild_rtL (u : Cu) : (muBuild u).rtL = u.rtL := rfl
@[simp] theorem muBuild_mask (u : Cu) : (muBuild u).mask = u.mask := rfl
@[simp] theorem muBuild_prevMask (u : Cu) : (muBuild u).prevMask = u.prevMask := rfl
@[simp] theorem muBuild_prevInput (u : Cu) : (muBuild u).prevInput = u.prevInput := rfl
@[simp] theorem muBuild_hist (u : Cu) : (muBuild u).hist = u.hist := rfl
@[simp] theorem muBuild_hidx (u : Cu) : (muBuild u).hidx = u.hidx := rfl
@[simp] theorem muBuild_fhist (u : Cu) : (muBuild u).fhist = u.fhist := rfl
@[simp] theorem muBuild_fidx (u : Cu) : (muBuild u).fidx = u.fidx := rfl
@[simp] theorem muBuild_t (u : Cu) : (muBuild u).t = u.t := rfl
@[simp] theorem muBuild_ptCnt (u : Cu) : (muBuild u).ptCnt = u.ptCnt := rfl
@[simp] theorem muBuild_ftCnt (u : Cu) : (muBuild u).ftCnt = u.ftCnt := rfl
@[simp] theorem muBuild_rtCnt (u : Cu) : (muBuild u).rtCnt = u.rtCnt := rfl
@[simp] theorem muBuild_obuf (u : Cu) : (muBuild u).obuf = u.obuf := rfl
@[simp] theorem muBuild_outBits (u : Cu) : (muBuild u).outBits = u.outBits := rfl
@[simp] theorem muBuild_pktInfo (u : Cu) : (muBuild u).pktInfo = u.pktInfo := rfl
@[simp] theorem muBuild_win (u : Cu) : (muBuild u).win = u.win := rfl

@[simp] theorem muMask_cfgF (u : Cu) : (muMask u).cfgF = u.cfgF := rfl
@[simp] theorem muMask_cfgR (u : Cu) : (muMask u).cfgR = u.cfgR := rfl
@[simp] theorem muMask_cfgPt (u : Cu) : (muMask u).cfgPt = u.cfgPt := rfl
@[simp] theorem muMask_cfgFt (u : Cu) : (muMask u).cfgFt = u.cfgFt := rfl
@[simp] theorem muMask_cfgRt (u : Cu) : (muMask u).cfgRt = u.cfgRt := rfl
@[simp] theorem muMask_inLen (u : Cu) : (muMask u).inLen = u.inLen := rfl
@[simp] theorem muMask_st (u : Cu) : (muMask u).st = u.st := rfl
@[simp] theorem muMask_auto (u : Cu) : (muMask u).auto = u.auto := rfl
@[simp] theorem muMask_fs (u : Cu) : (muMask u).fs = u.fs := rfl
@[simp] theorem muMask_rs (u : Cu) : (muMask u).rs = u.rs := rfl
@[simp] theorem muMask_ptL (u : Cu) : (muMask u).ptL = u.ptL := rfl
@[simp] theorem muMask_ftL (u : Cu) : (muMask u).ftL = u.ftL := rfl
@[simp] theorem muMask_rtL (u : Cu) : (muMask u).rtL = u.rtL := rfl
@[simp] theorem muMask_prevMask (u : Cu) : (muMask u).prevMask = u.prevMask := rfl
@[simp] theorem muMask_build (u : Cu) : (muMask u).build = u.build := rfl
@[simp] theorem muMask_prevInput (u : Cu) : (muMask u).prevInput = u.prevInput := rfl
@[simp] theorem muMask_hist (u : Cu) : (muMask u).hist = u.hist := rfl
@[simp] theorem muMask_hidx (u : Cu) : (muMask u).hidx = u.hidx := rfl
@[simp] theorem muMask_fhist (u : Cu) : (muMask u).fhist = u.fhist := rfl
@[simp] theorem muMask_fidx (u : Cu) : (muMask u).fidx = u.fidx := rfl
@[simp] theorem muMask_t (u : Cu) : (muMask u).t = u.t := rfl
@[simp] theorem muMask_ptCnt (u : Cu) : (muMask u).ptCnt = u.ptCnt := rfl
@[simp] theorem muMask_ftCnt (u : Cu) : (muMask u).ftCnt = u.ftCnt := rfl
@[simp] theorem muMask_rtCnt (u : Cu) : (muMask u).rtCnt = u.rtCnt := rfl
@[simp] theorem muMask_obuf (u : Cu) : (muMask u).obuf = u.obuf := rfl
@[simp] theorem muMask_outBits (u : Cu) : (muMask u).outBits = u.outBits := rfl
@[simp] theorem muMask_pktInfo (u : Cu) : (muMask u).pktInfo = u.pktInfo := rfl
@[simp] theorem muMask_win (u : Cu) : (muMask u).win = u.win := rfl
@[simp] theorem muMask_tmp (u : Cu) : (muMask u).tmp = u.tmp := rfl

@[simp] theorem muChange_cfgF (u : Cu) : (muChange u).cfgF = u.cfgF := rfl
@[simp] theorem muChange_cfgR (u : Cu) : (muChange u).cfgR = u.cfgR := rfl
@[simp] theorem muChange_cfgPt (u : Cu) : (muChange u).cfgPt = u.cfgPt := rfl
@[simp] theorem muChange_cfgFt (u : Cu) : (muChange u).cfgFt = u.cfgFt := rfl
@[simp] theorem muChange_cfgRt (u : Cu) : (muChange u).cfgRt = u.cfgRt := rfl
@[simp] theorem muChange_inLen (u : Cu) : (muChange u).inLen = u.inLen := rfl
@[simp] theorem muChange_st (u : Cu) : (muChange u).st = u.st := rfl
@[simp] theorem muChange_auto (u : Cu) : (muChange u).auto = u.auto := rfl
@[simp] theorem muChange_fs (u : Cu) : (muChange u).fs = u.fs := rfl
@[simp] theorem muChange_rs (u : Cu) : (muChange u).rs = u.rs := rfl
@[simp] theorem muChange_ptL (u : Cu) : (muChange u).ptL = u.ptL := rfl
@[simp] theorem muChange_ftL (u : Cu) : (muChange u).ftL = u.ftL := rfl
@[simp] theorem muChange_rtL (u : Cu) : (muChange u).rtL = u.rtL := rfl
@[simp] theorem muChange_mask (u : Cu) : (muChange u).mask = u.mask := rfl
@[simp] theorem muChange_prevMask (u : Cu) : (muChange u).prevMask = u.prevMask := rfl
@[simp] theorem muChange_build (u : Cu) : (muChange u).build = u.build := rfl
@[simp] theorem muChange_prevInput (u : Cu) : (muChange u).prevInput = u.prevInput := rfl
@[simp] theorem muChange_hist (u : Cu) : (muChange u).hist = u.hist := rfl
@[simp] theorem muChange_hidx (u : Cu) : (muChange u).hidx = u.hidx := rfl
@[simp] theorem muChange_fhist (u : Cu) : (muChange u).fhist = u.fhist := rfl
@[simp] theorem muChange_fidx (u : Cu) : (muChange u).fidx = u.fidx := rfl
@[simp] theorem muChange_t (u : Cu) : (muChange u).t = u.t := rfl
@[simp] theorem muChange_ptCnt (u : Cu) : (muChange u).ptCnt = u.ptCnt := rfl
@[simp] theorem muChange_ftCnt (u : Cu) : (muChange u).ftCnt = u.ftCnt := rfl
@[simp] theorem muChange_rtCnt (u : Cu) : (muChange u).rtCnt = u.rtCnt := rfl
@[simp] theorem muChange_obuf (u : Cu) : (muChange u).obuf = u.obuf := rfl
@[simp] theorem muChange_outBits (u : Cu) : (muChange u).outBits = u.outBits := rfl
@[simp] theorem muChange_pktInfo (u : Cu) : (muChange u).pktInfo = u.pktInfo := rfl
@[simp] theorem muChange_win (u : Cu) : (muChange u).win = u.win := rfl

@[simp] theorem hwPush_cfgF (u : Cu) : (hwPush u).cfgF = u.cfgF := rfl
@[simp] theorem hwPush_cfgR (u : Cu) : (hwPush u).cfgR = u.cfgR := rfl
@[simp] theorem hwPush_cfgPt (u : Cu) : (hwPush u).cfgPt = u.cfgPt := rfl
@[simp] theorem hwPush_cfgFt (u : Cu) : (hwPush u).cfgFt = u.cfgFt := rfl
@[simp] theorem hwPush_cfgRt (u : Cu) : (hwPush u).cfgRt = u.cfgRt := rfl
@[simp] theorem hwPush_inLen (u : Cu) : (hwPush u).inLen = u.inLen := rfl
@[simp] theorem hwPush_st (u : Cu) : (hwPush u).st = u.st := rfl
@[simp] theorem hwPush_auto (u : Cu) : (hwPush u).auto = u.auto := rfl
@[simp] theorem hwPush_fs (u : Cu) : (hwPush u).fs = u.fs := rfl
@[simp] theorem hwPush_rs (u : Cu) : (hwPush u).rs = u.rs := rfl
@[simp] theorem hwPush_ptL (u : Cu) : (hwPush u).ptL = u.ptL := rfl
@[simp] theorem hwPush_ftL (u : Cu) : (hwPush u).ftL = u.ftL := rfl
@[simp] theorem hwPush_rtL (u : Cu) : (hwPush u).rtL = u.rtL := rfl
@[simp] theorem hwPush_mask (u : Cu) : (hwPush u).mask = u.mask := rfl
@[simp] theorem hwPush_prevMask (u : Cu) : (hwPush u).prevMask = u.prevMask := rfl
@[simp] theorem hwPush_build (u : Cu) : (hwPush u).build = u.build := rfl
@[simp] theorem hwPush_prevInput (u : Cu) : (hwPush u).prevInput = u.prevInput := rfl
@[simp] theorem hwPush_hidx (u : Cu) : (hwPush u).hidx = u.hidx := rfl
@[simp] theorem hwPush_fhist (u : Cu) : (hwPush u).fhist = u.fhist := rfl
@[simp] theorem hwPush_fidx (u : Cu) : (hwPush u).fidx = u.fidx := rfl
@[simp] theorem hwPush_t (u : Cu) : (hwPush u).t = u.t := rfl
@[simp] theorem hwPush_ptCnt (u : Cu) : (hwPush u).ptCnt = u.ptCnt := rfl
@[simp] theorem hwPush_ftCnt (u : Cu) : (hwPush u).ftCnt = u.ftCnt := rfl
@[simp] theorem hwPush_rtCnt (u : Cu) : (hwPush u).rtCnt = u.rtCnt := rfl
@[simp] theorem hwPush_obuf (u : Cu) : (hwPush u).obuf = u.obuf := rfl
@[simp] theorem hwPush_outBits (u : Cu) : (hwPush u).outBits = u.outBits := rfl
@[simp] theorem hwPush_pktInfo (u : Cu) : (hwPush u).pktInfo = u.pktInfo := rfl
@[simp] theorem hwPush_win (u : Cu) : (hwPush u).win = u.win := rfl
@[simp] theorem hwPush_tmp (u : Cu) : (hwPush u).tmp = u.tmp := rfl

@[simp] theorem hwXwin_cfgF (u : Cu) : (hwXwin u).cfgF = u.cfgF := rfl
@[simp] theorem hwXwin_cfgR (u : Cu) : (hwXwin u).cfgR = u.cfgR := rfl
@[simp] theorem hwXwin_cfgPt (u : Cu) : (hwXwin u).cfgPt = u.cfgPt := rfl
@[simp] theorem hwXwin_cfgFt (u : Cu) : (hwXwin u).cfgFt = u.cfgFt := rfl
@[simp] theorem hwXwin_cfgRt (u : Cu) : (hwXwin u).cfgRt = u.cfgRt := rfl
@[simp] theorem hwXwin_inLen (u : Cu) : (hwXwin u).inLen = u.inLen := rfl
@[simp] theorem hwXwin_st (u : Cu) : (hwXwin u).st = u.st := rfl
@[simp] theorem hwXwin_auto (u : Cu) : (hwXwin u).auto = u.auto := rfl
@[simp] theorem hwXwin_fs (u : Cu) : (hwXwin u).fs = u.fs := rfl
@[simp] theorem hwXwin_rs (u : Cu) : (hwXwin u).rs = u.rs := rfl
@[simp] theorem hwXwin_ptL (u : Cu) : (hwXwin u).ptL = u.ptL := rfl
@[simp] theorem hwXwin_ftL (u : Cu) : (hwXwin u).ftL = u.ftL := rfl
@[simp] theorem hwXwin_rtL (u : Cu) : (hwXwin u).rtL = u.rtL := rfl
@[simp] theorem hwXwin_mask (u : Cu) : (hwXwin u).mask = u.mask := rfl
@[simp] theorem hwXwin_prevMask (u : Cu) : (hwXwin u).prevMask = u.prevMask := rfl
@[simp] theorem hwXwin_build (u : Cu) : (hwXwin u).build = u.build := rfl
@[simp] theorem hwXwin_prevInput (u : Cu) : (hwXwin u).prevInput = u.prevInput := rfl
@[simp] theorem hwXwin_hist (u : Cu) : (hwXwin u).hist = u.hist := rfl
@[simp] theorem hwXwin_hidx (u : Cu) : (hwXwin u).hidx = u.hidx := rfl
@[simp] theorem hwXwin_fhist (u : Cu) : (hwXwin u).fhist = u.fhist := rfl
@[simp] theorem hwXwin_fidx (u : Cu) : (hwXwin u).fidx = u.fidx := rfl
@[simp] theorem hwXwin_t (u : Cu) : (hwXwin u).t = u.t := rfl
@[simp] theorem hwXwin_ptCnt (u : Cu) : (hwXwin u).ptCnt = u.ptCnt := rfl
@[simp] theorem hwXwin_ftCnt (u : Cu) : (hwXwin u).ftCnt = u.ftCnt := rfl
@[simp] theorem hwXwin_rtCnt (u : Cu) : (hwXwin u).rtCnt = u.rtCnt := rfl
@[simp] theorem hwXwin_obuf (u : Cu) : (hwXwin u).obuf = u.obuf := rfl
@[simp] theorem hwXwin_outBits (u : Cu) : (hwXwin u).outBits = u.outBits := rfl
@[simp] theorem hwXwin_pktInfo (u : Cu) : (hwXwin u).pktInfo = u.pktInfo := rfl
@[simp] theorem hwXwin_win (u : Cu) : (hwXwin u).win = u.win := rfl

@[simp] theorem hwCt_cfgF (u : Cu) : (hwCt u).cfgF = u.cfgF := rfl
@[simp] theorem hwCt_cfgR (u : Cu) : (hwCt u).cfgR = u.cfgR := rfl
@[simp] theorem hwCt_cfgPt (u : Cu) : (hwCt u).cfgPt = u.cfgPt := rfl
@[simp] theorem hwCt_cfgFt (u : Cu) : (hwCt u).cfgFt = u.cfgFt := rfl
@[simp] theorem hwCt_cfgRt (u : Cu) : (hwCt u).cfgRt = u.cfgRt := rfl
@[simp] theorem hwCt_inLen (u : Cu) : (hwCt u).inLen = u.inLen := rfl
@[simp] theorem hwCt_st (u : Cu) : (hwCt u).st = u.st := rfl
@[simp] theorem hwCt_auto (u : Cu) : (hwCt u).auto = u.auto := rfl
@[simp] theorem hwCt_fs (u : Cu) : (hwCt u).fs = u.fs := rfl
@[simp] theorem hwCt_rs (u : Cu) : (hwCt u).rs = u.rs := rfl
@[simp] theorem hwCt_ptL (u : Cu) : (hwCt u).ptL = u.ptL := rfl
@[simp] theorem hwCt_ftL (u : Cu) : (hwCt u).ftL = u.ftL := rfl
@[simp] theorem hwCt_rtL (u : Cu) : (hwCt u).rtL = u.rtL := rfl
@[simp] theorem hwCt_mask (u : Cu) : (hwCt u).mask = u.mask := rfl
@[simp] theorem hwCt_prevMask (u : Cu) : (hwCt u).prevMask = u.prevMask := rfl
@[simp] theorem hwCt_build (u : Cu) : (hwCt u).build = u.build := rfl
@[simp] theorem hwCt_prevInput (u : Cu) : (hwCt u).prevInput = u.prevInput := rfl
@[simp] theorem hwCt_hist (u : Cu) : (hwCt u).hist = u.hist := rfl
@[simp] theorem hwCt_hidx (u : Cu) : (hwCt u).hidx = u.hidx := rfl
@[simp] theorem hwCt_fhist (u : Cu) : (hwCt u).fhist = u.fhist := rfl
@[simp] theorem hwCt_fidx (u : Cu) : (hwCt u).fidx = u.fidx := rfl
@[simp] theorem hwCt_t (u : Cu) : (hwCt u).t = u.t := rfl
@[simp] theorem hwCt_ptCnt (u : Cu) : (hwCt u).ptCnt = u.ptCnt := rfl
@[simp] theorem hwCt_ftCnt (u : Cu) : (hwCt u).ftCnt = u.ftCnt := rfl
@[simp] theorem hwCt_rtCnt (u : Cu) : (hwCt u).rtCnt = u.rtCnt := rfl
@[simp] theorem hwCt_obuf (u : Cu) : (hwCt u).obuf = u.obuf := rfl
@[simp] theorem hwCt_outBits (u : Cu) : (hwCt u).outBits = u.outBits := rfl
@[simp] theorem hwCt_pktInfo (u : Cu) : (hwCt u).pktInfo = u.pktInfo := rfl
@[simp] theorem hwCt_win (u : Cu) : (hwCt u).win = u.win := rfl

@[simp] theorem hwFpush_cfgF (u : Cu) : (hwFpush u).cfgF = u.cfgF := rfl
@[simp] theorem hwFpush_cfgR (u : Cu) : (hwFpush u).cfgR = u.cfgR := rfl
@[simp] theorem hwFpush_cfgPt (u : Cu) : (hwFpush u).cfgPt = u.cfgPt := rfl
@[simp] theorem hwFpush_cfgFt (u : Cu) : (hwFpush u).cfgFt = u.cfgFt := rfl
@[simp] theorem hwFpush_cfgRt (u : Cu) : (hwFpush u).cfgRt = u.cfgRt := rfl
@[simp] theorem hwFpush_inLen (u : Cu) : (hwFpush u).inLen = u.inLen := rfl
@[simp] theorem hwFpush_st (u : Cu) : (hwFpush u).st = u.st := rfl
@[simp] theorem hwFpush_auto (u : Cu) : (hwFpush u).auto = u.auto := rfl
@[simp] theorem hwFpush_fs (u : Cu) : (hwFpush u).fs = u.fs := rfl
@[simp] theorem hwFpush_rs (u : Cu) : (hwFpush u).rs = u.rs := rfl
@[simp] theorem hwFpush_ptL (u : Cu) : (hwFpush u).ptL = u.ptL := rfl
@[simp] theorem hwFpush_ftL (u : Cu) : (hwFpush u).ftL = u.ftL := rfl
@[simp] theorem hwFpush_rtL (u : Cu) : (hwFpush u).rtL = u.rtL := rfl
@[simp] theorem hwFpush_mask (u : Cu) : (hwFpush u).mask = u.mask := rfl
@[simp] theorem hwFpush_prevMask (u : Cu) : (hwFpush u).prevMask = u.prevMask := rfl
@[simp] theorem hwFpush_build (u : Cu) : (hwFpush u).build = u.build := rfl
@[simp] theorem hwFpush_prevInput (u : Cu) : (hwFpush u).prevInput = u.prevInput := rfl
@[simp] theorem hwFpush_hist (u : Cu) : (hwFpush u).hist = u.hist := rfl
@[simp] theorem hwFpush_hidx (u : Cu) : (hwFpush u).hidx = u.hidx := rfl
@[simp] theorem hwFpush_fidx (u : Cu) : (hwFpush u).fidx = u.fidx := rfl
@[simp] theorem hwFpush_t (u : Cu) : (hwFpush u).t = u.t := rfl
@[simp] theorem hwFpush_ptCnt (u : Cu) : (hwFpush u).ptCnt = u.ptCnt := rfl
@[simp] theorem hwFpush_ftCnt (u : Cu) : (hwFpush u).ftCnt = u.ftCnt := rfl
@[simp] theorem hwFpush_rtCnt (u : Cu) : (hwFpush u).rtCnt = u.rtCnt := rfl
@[simp] theorem hwFpush_obuf (u : Cu) : (hwFpush u).obuf = u.obuf := rfl
@[simp] theorem hwFpush_outBits (u : Cu) : (hwFpush u).outBits = u.outBits := rfl
@[simp] theorem hwFpush_pktInfo (u : Cu) : (hwFpush u).pktInfo = u.pktInfo := rfl
@[simp] theorem hwFpush_win (u : Cu) : (hwFpush u).win = u.win := rfl
@[simp] theorem hwFpush_tmp (u : Cu) : (hwFpush u).tmp = u.tmp := rfl

@[simp] theorem hwVeff_cfgF (z : Bool) (u : Cu) : (hwVeff z u).cfgF = u.cfgF := rfl
@[simp] theorem hwVeff_cfgR (z : Bool) (u : Cu) : (hwVeff z u).cfgR = u.cfgR := rfl
@[simp] theorem hwVeff_cfgPt (z : Bool) (u : Cu) : (hwVeff z u).cfgPt = u.cfgPt := rfl
@[simp] theorem hwVeff_cfgFt (z : Bool) (u : Cu) : (hwVeff z u).cfgFt = u.cfgFt := rfl
@[simp] theorem hwVeff_cfgRt (z : Bool) (u : Cu) : (hwVeff z u).cfgRt = u.cfgRt := rfl
@[simp] theorem hwVeff_inLen (z : Bool) (u : Cu) : (hwVeff z u).inLen = u.inLen := rfl
@[simp] theorem hwVeff_st (z : Bool) (u : Cu) : (hwVeff z u).st = u.st := rfl
@[simp] theorem hwVeff_auto (z : Bool) (u : Cu) : (hwVeff z u).auto = u.auto := rfl
@[simp] theorem hwVeff_fs (z : Bool) (u : Cu) : (hwVeff z u).fs = u.fs := rfl
@[simp] theorem hwVeff_rs (z : Bool) (u : Cu) : (hwVeff z u).rs = u.rs := rfl
@[simp] theorem hwVeff_ptL (z : Bool) (u : Cu) : (hwVeff z u).ptL = u.ptL := rfl
@[simp] theorem hwVeff_ftL (z : Bool) (u : Cu) : (hwVeff z u).ftL = u.ftL := rfl
@[simp] theorem hwVeff_rtL (z : Bool) (u : Cu) : (hwVeff z u).rtL = u.rtL := rfl
@[simp] theorem hwVeff_mask (z : Bool) (u : Cu) : (hwVeff z u).mask = u.mask := rfl
@[simp] theorem hwVeff_prevMask (z : Bool) (u : Cu) : (hwVeff z u).prevMask = u.prevMask := rfl
@[simp] theorem hwVeff_build (z : Bool) (u : Cu) : (hwVeff z u).build = u.build := rfl
@[simp] theorem hwVeff_prevInput (z : Bool) (u : Cu) : (hwVeff z u).prevInput = u.prevInput := rfl
@[simp] theorem hwVeff_hist (z : Bool) (u : Cu) : (hwVeff z u).hist = u.hist := rfl
@[simp] theorem hwVeff_hidx (z : Bool) (u : Cu) : (hwVeff z u).hidx = u.hidx := rfl
@[simp] theorem hwVeff_fhist (z : Bool) (u : Cu) : (hwVeff z u).fhist = u.fhist := rfl
@[simp] theorem hwVeff_fidx (z : Bool) (u : Cu) : (hwVeff z u).fidx = u.fidx := rfl
@[simp] theorem hwVeff_t (z : Bool) (u : Cu) : (hwVeff z u).t = u.t := rfl
@[simp] theorem hwVeff_ptCnt (z : Bool) (u : Cu) : (hwVeff z u).ptCnt = u.ptCnt := rfl
@[simp] theorem hwVeff_ftCnt (z : Bool) (u : Cu) : (hwVeff z u).ftCnt = u.ftCnt := rfl
@[simp] theorem hwVeff_rtCnt (z : Bool) (u : Cu) : (hwVeff z u).rtCnt = u.rtCnt := rfl
@[simp] theorem hwVeff_obuf (z : Bool) (u : Cu) : (hwVeff z u).obuf = u.obuf := rfl
@[simp] theorem hwVeff_outBits (z : Bool) (u : Cu) : (hwVeff z u).outBits = u.outBits := rfl
@[simp] theorem hwVeff_pktInfo (z : Bool) (u : Cu) : (hwVeff z u).pktInfo = u.pktInfo := rfl
@[simp] theorem hwVeff_win (z : Bool) (u : Cu) : (hwVeff z u).win = u.win := rfl

@[simp] theorem cPktCommit_cfgF (u : Cu) : (cPktCommit u).cfgF = u.cfgF := rfl
@[simp] theorem cPktCommit_cfgR (u : Cu) : (cPktCommit u).cfgR = u.cfgR := rfl
@[simp] theorem cPktCommit_cfgPt (u : Cu) : (cPktCommit u).cfgPt = u.cfgPt := rfl
@[simp] theorem cPktCommit_cfgFt (u : Cu) : (cPktCommit u).cfgFt = u.cfgFt := rfl
@[simp] theorem cPktCommit_cfgRt (u : Cu) : (cPktCommit u).cfgRt = u.cfgRt := rfl
@[simp] theorem cPktCommit_inLen (u : Cu) : (cPktCommit u).inLen = u.inLen := rfl
@[simp] theorem cPktCommit_st (u : Cu) : (cPktCommit u).st = u.st.report .ok := rfl
@[simp] theorem cPktCommit_auto (u : Cu) : (cPktCommit u).auto = u.auto := rfl
@[simp] theorem cPktCommit_fs (u : Cu) : (cPktCommit u).fs = u.fs := rfl
@[simp] theorem cPktCommit_rs (u : Cu) : (cPktCommit u).rs = u.rs := rfl
@[simp] theorem cPktCommit_ptL (u : Cu) : (cPktCommit u).ptL = u.ptL := rfl
@[simp] theorem cPktCommit_ftL (u : Cu) : (cPktCommit u).ftL = u.ftL := rfl
@[simp] theorem cPktCommit_rtL (u : Cu) : (cPktCommit u).rtL = u.rtL := rfl
@[simp] theorem cPktCommit_mask (u : Cu) : (cPktCommit u).mask = u.mask := rfl
@[simp] theorem cPktCommit_prevMask (u : Cu) : (cPktCommit u).prevMask = u.prevMask := rfl
@[simp] theorem cPktCommit_build (u : Cu) : (cPktCommit u).build = u.build := rfl
@[simp] theorem cPktCommit_prevInput (u : Cu) : (cPktCommit u).prevInput = u.tmp.inp := rfl
@[simp] theorem cPktCommit_hist (u : Cu) : (cPktCommit u).hist = u.hist := rfl
@[simp] theorem cPktCommit_hidx (u : Cu) : (cPktCommit u).hidx = u.hidx + 1 := rfl
@[simp] theorem cPktCommit_fhist (u : Cu) : (cPktCommit u).fhist = (hwFpush u).fhist := rfl
@[simp] theorem cPktCommit_fidx (u : Cu) : (cPktCommit u).fidx = u.fidx + 1 := rfl
@[simp] theorem cPktCommit_t (u : Cu) : (cPktCommit u).t = satInc u.t := rfl
@[simp] theorem cPktCommit_ptCnt (u : Cu) : (cPktCommit u).ptCnt = u.ptCnt := rfl
@[simp] theorem cPktCommit_ftCnt (u : Cu) : (cPktCommit u).ftCnt = u.ftCnt := rfl
@[simp] theorem cPktCommit_rtCnt (u : Cu) : (cPktCommit u).rtCnt = u.rtCnt := rfl
@[simp] theorem cPktCommit_obuf (u : Cu) : (cPktCommit u).obuf = u.obuf := rfl
@[simp] theorem cPktCommit_outBits (u : Cu) : (cPktCommit u).outBits = BitVec.ofNat 32 u.obuf.length := rfl
@[simp] theorem cPktCommit_win (u : Cu) : (cPktCommit u).win = writeBytes u.win cuOut (packBits u.obuf) := rfl
@[simp] theorem cPktCommit_tmp (u : Cu) : (cPktCommit u).tmp = u.tmp := rfl

/-! ## The decompressor unit -/

@[simp] theorem Du.raise_cfgF (u : Du) (e : ErrCode) : (u.raise e).cfgF = u.cfgF := rfl
@[simp] theorem Du.raise_cfgR (u : Du) (e : ErrCode) : (u.raise e).cfgR = u.cfgR := rfl
@[simp] theorem Du.raise_autoAlign (u : Du) (e : ErrCode) : (u.raise e).autoAlign = u.autoAlign := rfl
@[simp] theorem Du.raise_streamLen (u : Du) (e : ErrCode) : (u.raise e).streamLen = u.streamLen := rfl
@[simp] theorem Du.raise_st (u : Du) (e : ErrCode) : (u.raise e).st = u.st.raise e := rfl
@[simp] theorem Du.raise_fs (u : Du) (e : ErrCode) : (u.raise e).fs = u.fs := rfl
@[simp] theorem Du.raise_rs (u : Du) (e : ErrCode) : (u.raise e).rs = u.rs := rfl
@[simp] theorem Du.raise_dmask (u : Du) (e : ErrCode) : (u.raise e).dmask = u.dmask := rfl
@[simp] theorem Du.raise_prevOutput (u : Du) (e : ErrCode) : (u.raise e).prevOutput = u.prevOutput := rfl
@[simp] theorem Du.raise_pos (u : Du) (e : ErrCode) : (u.raise e).pos = u.pos := rfl
@[simp] theorem Du.raise_t (u : Du) (e : ErrCode) : (u.raise e).t = u.t := rfl
@[simp] theorem Du.raise_bitPos (u : Du) (e : ErrCode) : (u.raise e).bitPos = u.bitPos := rfl
@[simp] theorem Du.raise_numBits (u : Du) (e : ErrCode) : (u.raise e).numBits = u.numBits := rfl
@[simp] theorem Du.raise_pktInfo (u : Du) (e : ErrCode) : (u.raise e).pktInfo = u.pktInfo := rfl
@[simp] theorem Du.raise_lastCountF (u : Du) (e : ErrCode) : (u.raise e).lastCountF = u.lastCountF := rfl
@[simp] theorem Du.raise_win (u : Du) (e : ErrCode) : (u.raise e).win = u.win := rfl

@[simp] theorem Du.readTo_cfgF (u : Du) (r : BitSeq) : (u.readTo r).cfgF = u.cfgF := rfl
@[simp] theorem Du.readTo_cfgR (u : Du) (r : BitSeq) : (u.readTo r).cfgR = u.cfgR := rfl
@[simp] theorem Du.readTo_autoAlign (u : Du) (r : BitSeq) : (u.readTo r).autoAlign = u.autoAlign := rfl
@[simp] theorem Du.readTo_streamLen (u : Du) (r : BitSeq) : (u.readTo r).streamLen = u.streamLen := rfl
@[simp] theorem Du.readTo_st (u : Du) (r : BitSeq) : (u.readTo r).st = u.st := rfl
@[simp] theorem Du.readTo_fs (u : Du) (r : BitSeq) : (u.readTo r).fs = u.fs := rfl
@[simp] theorem Du.readTo_rs (u : Du) (r : BitSeq) : (u.readTo r).rs = u.rs := rfl
@[simp] theorem Du.readTo_dmask (u : Du) (r : BitSeq) : (u.readTo r).dmask = u.dmask := rfl
@[simp] theorem Du.readTo_prevOutput (u : Du) (r : BitSeq) : (u.readTo r).prevOutput = u.prevOutput := rfl
@[simp] theorem Du.readTo_pos (u : Du) (r : BitSeq) : (u.readTo r).pos = u.pos := rfl
@[simp] theorem Du.readTo_t (u : Du) (r : BitSeq) : (u.readTo r).t = u.t := rfl
@[simp] theorem Du.readTo_bitPos (u : Du) (r : BitSeq) : (u.readTo r).bitPos = u.bitPos + BitVec.ofNat 32 ((unreadBits u).length - r.length) := rfl
@[simp] theorem Du.readTo_numBits (u : Du) (r : BitSeq) : (u.readTo r).numBits = u.numBits := rfl
@[simp] theorem Du.readTo_pktInfo (u : Du) (r : BitSeq) : (u.readTo r).pktInfo = u.pktInfo := rfl
@[simp] theorem Du.readTo_lastCountF (u : Du) (r : BitSeq) : (u.readTo r).lastCountF = u.lastCountF := rfl
@[simp] theorem Du.readTo_win (u : Du) (r : BitSeq) : (u.readTo r).win = u.win := rfl

@[simp] theorem Du.align_cfgF (u : Du) : (u.align).cfgF = u.cfgF := rfl
@[simp] theorem Du.align_cfgR (u : Du) : (u.align).cfgR = u.cfgR := rfl
@[simp] theorem Du.align_autoAlign (u : Du) : (u.align).autoAlign = u.autoAlign := rfl
@[simp] theorem Du.align_streamLen (u : Du) : (u.align).streamLen = u.streamLen := rfl
@[simp] theorem Du.align_st (u : Du) : (u.align).st = u.st := rfl
@[simp] theorem Du.align_fs (u : Du) : (u.align).fs = u.fs := rfl
@[simp] theorem Du.align_rs (u : Du) : (u.align).rs = u.rs := rfl
@[simp] theorem Du.align_dmask (u : Du) : (u.align).dmask = u.dmask := rfl
@[simp] theorem Du.align_prevOutput (u : Du) : (u.align).prevOutput = u.prevOutput := rfl
@[simp] theorem Du.align_pos (u : Du) : (u.align).pos = u.pos := rfl
@[simp] theorem Du.align_t (u : Du) : (u.align).t = u.t := rfl
@[simp] theorem Du.align_bitPos (u : Du) : (u.align).bitPos = BitVec.ofNat 32 (8 * byteCount u.bitPos.toNat) := rfl
@[simp] theorem Du.align_numBits (u : Du) : (u.align).numBits = u.numBits := rfl
@[simp] theorem Du.align_pktInfo (u : Du) : (u.align).pktInfo = u.pktInfo := rfl
@[simp] theorem Du.align_lastCountF (u : Du) : (u.align).lastCountF = u.lastCountF := rfl
@[simp] theorem Du.align_win (u : Du) : (u.align).win = u.win := rfl

/-! ## The machine -/

@[simp] theorem State.returns_params (s : State) (v : Word) : (s.returns v).params = s.params := rfl
@[simp] theorem State.returns_cu (s : State) (v : Word) : (s.returns v).cu = s.cu := rfl
@[simp] theorem State.returns_du (s : State) (v : Word) : (s.returns v).du = s.du := rfl
@[simp] theorem State.returns_dp (s : State) (v : Word) : (s.returns v).dp = s.dp := rfl
@[simp] theorem State.returns_micro (s : State) (v : Word) : (s.returns v).micro = s.micro := rfl
@[simp] theorem State.returns_host (s : State) (v : Word) : (s.returns v).host = s.host := rfl
@[simp] theorem State.returns_turns (s : State) (v : Word) : (s.returns v).turns = s.turns := rfl
@[simp] theorem State.returns_readData (s : State) (v : Word) : (s.returns v).readData = v := rfl
@[simp] theorem State.returns_drawn (s : State) (v : Word) : (s.returns v).drawn = s.drawn := rfl

@[simp] theorem State.draws_params (s : State) (w : Width) : (s.draws w).params = s.params := rfl
@[simp] theorem State.draws_cu (s : State) (w : Width) : (s.draws w).cu = s.cu := rfl
@[simp] theorem State.draws_du (s : State) (w : Width) : (s.draws w).du = s.du := rfl
@[simp] theorem State.draws_dp (s : State) (w : Width) : (s.draws w).dp = s.dp := rfl
@[simp] theorem State.draws_micro (s : State) (w : Width) : (s.draws w).micro = s.micro := rfl
@[simp] theorem State.draws_host (s : State) (w : Width) : (s.draws w).host = s.host := rfl
@[simp] theorem State.draws_turns (s : State) (w : Width) : (s.draws w).turns = s.turns := rfl
@[simp] theorem State.draws_drawn (s : State) (w : Width) : (s.draws w).drawn = s.drawn + 1 := rfl

@[simp] theorem State.passTurn_params (s : State) : (s.passTurn).params = s.params := rfl
@[simp] theorem State.passTurn_cu (s : State) : (s.passTurn).cu = s.cu := rfl
@[simp] theorem State.passTurn_du (s : State) : (s.passTurn).du = s.du := rfl
@[simp] theorem State.passTurn_dp (s : State) : (s.passTurn).dp = s.dp := rfl
@[simp] theorem State.passTurn_micro (s : State) : (s.passTurn).micro = s.micro := rfl
@[simp] theorem State.passTurn_host (s : State) : (s.passTurn).host = s.host := rfl
@[simp] theorem State.passTurn_turns (s : State) : (s.passTurn).turns = s.turns.tail := rfl
@[simp] theorem State.passTurn_readData (s : State) : (s.passTurn).readData = s.readData := rfl
@[simp] theorem State.passTurn_drawn (s : State) : (s.passTurn).drawn = s.drawn := rfl

@[simp] theorem State.hardwareReset_params (s : State) : (s.hardwareReset).params = s.params := rfl
@[simp] theorem State.hardwareReset_cu (s : State) : (s.hardwareReset).cu = Cu.reset := rfl
@[simp] theorem State.hardwareReset_du (s : State) : (s.hardwareReset).du = Du.reset := rfl
@[simp] theorem State.hardwareReset_dp (s : State) : (s.hardwareReset).dp = Datapath.reset := rfl
@[simp] theorem State.hardwareReset_micro (s : State) : (s.hardwareReset).micro = none := rfl
@[simp] theorem State.hardwareReset_host (s : State) : (s.hardwareReset).host = s.host := rfl
@[simp] theorem State.hardwareReset_turns (s : State) : (s.hardwareReset).turns = s.turns := rfl
@[simp] theorem State.hardwareReset_readData (s : State) : (s.hardwareReset).readData = s.readData := rfl
@[simp] theorem State.hardwareReset_drawn (s : State) : (s.hardwareReset).drawn = s.drawn := rfl

@[simp] theorem State.runCu_params (s : State) (r : Except ErrCode Cu) : (s.runCu r).params = s.params := rfl
@[simp] theorem State.runCu_cu (s : State) (r : Except ErrCode Cu) : (s.runCu r).cu = s.cu.orRaise r := rfl
@[simp] theorem State.runCu_du (s : State) (r : Except ErrCode Cu) : (s.runCu r).du = s.du := rfl
@[simp] theorem State.runCu_dp (s : State) (r : Except ErrCode Cu) : (s.runCu r).dp = s.dp := rfl
@[simp] theorem State.runCu_micro (s : State) (r : Except ErrCode Cu) : (s.runCu r).micro = s.micro := rfl
@[simp] theorem State.runCu_host (s : State) (r : Except ErrCode Cu) : (s.runCu r).host = s.host := rfl
@[simp] theorem State.runCu_turns (s : State) (r : Except ErrCode Cu) : (s.runCu r).turns = s.turns := rfl
@[simp] theorem State.runCu_readData (s : State) (r : Except ErrCode Cu) : (s.runCu r).readData = s.readData := rfl
@[simp] theorem State.runCu_drawn (s : State) (r : Except ErrCode Cu) : (s.runCu r).drawn = s.drawn := rfl

/-! A unit's command completes, and is turned away -/

@[simp] theorem State.complete_params (s : State) (u : CodecUnit) : (s.complete u).params = s.params := by cases u <;> rfl
@[simp] theorem State.complete_dp (s : State) (u : CodecUnit) : (s.complete u).dp = s.dp := by cases u <;> rfl
@[simp] theorem State.complete_micro (s : State) (u : CodecUnit) : (s.complete u).micro = s.micro := by cases u <;> rfl
@[simp] theorem State.complete_host (s : State) (u : CodecUnit) : (s.complete u).host = s.host := by cases u <;> rfl
@[simp] theorem State.complete_turns (s : State) (u : CodecUnit) : (s.complete u).turns = s.turns := by cases u <;> rfl
@[simp] theorem State.complete_readData (s : State) (u : CodecUnit) : (s.complete u).readData = s.readData := by cases u <;> rfl
@[simp] theorem State.complete_drawn (s : State) (u : CodecUnit) : (s.complete u).drawn = s.drawn := by cases u <;> rfl
@[simp] theorem State.badCommand_params (s : State) (u : CodecUnit) : (s.badCommand u).params = s.params := by cases u <;> rfl
@[simp] theorem State.badCommand_dp (s : State) (u : CodecUnit) : (s.badCommand u).dp = s.dp := by cases u <;> rfl
@[simp] theorem State.badCommand_micro (s : State) (u : CodecUnit) : (s.badCommand u).micro = s.micro := by cases u <;> rfl
@[simp] theorem State.badCommand_host (s : State) (u : CodecUnit) : (s.badCommand u).host = s.host := by cases u <;> rfl
@[simp] theorem State.badCommand_turns (s : State) (u : CodecUnit) : (s.badCommand u).turns = s.turns := by cases u <;> rfl
@[simp] theorem State.badCommand_readData (s : State) (u : CodecUnit) : (s.badCommand u).readData = s.readData := by cases u <;> rfl
@[simp] theorem State.badCommand_drawn (s : State) (u : CodecUnit) : (s.badCommand u).drawn = s.drawn := by cases u <;> rfl
@[simp] theorem State.complete_cu_du (s : State) : (s.complete .cu).du = s.du := rfl
@[simp] theorem State.complete_du_cu (s : State) : (s.complete .du).cu = s.cu := rfl
@[simp] theorem State.complete_cu_cu (s : State) :
    (s.complete .cu).cu = { s.cu with st := { s.cu.st with cmd := none } } := rfl
@[simp] theorem State.complete_du_du (s : State) :
    (s.complete .du).du = { s.du with st := { s.du.st with cmd := none } } := rfl
@[simp] theorem State.badCommand_cu_du (s : State) : (s.badCommand .cu).du = s.du := rfl
@[simp] theorem State.badCommand_du_cu (s : State) : (s.badCommand .du).cu = s.cu := rfl
@[simp] theorem State.badCommand_cu_cu (s : State) :
    (s.badCommand .cu).cu = { s.cu with st := s.cu.st.report .badCommand } := rfl
@[simp] theorem State.badCommand_du_du (s : State) :
    (s.badCommand .du).du = { s.du with st := s.du.st.report .badCommand } := rfl

end Sys2Proof.Machine
end

