-- ==== Sys2Proof/Laws/Ops.lean ====
section
/-! SUPPORT. For each shared operation one lemma that says everything it can do, which proofs cite instead of unfolding
it. -/

namespace Sys2Proof.Machine

/-! ## Operand checks -/

theorem whenLengths_eq_next {ok : Bool} {o : Host.Outcome State Fault Refusal} {t : State} :
    whenLengths ok o = .next t ↔ ok = true ∧ o = .next t := by
  cases ok <;> simp [whenLengths]

@[simp] theorem haveLength_nil (n : Nat) : haveLength n [] = true := rfl

theorem haveLength_cons (n : Nat) (v : BitSeq) (vs : List BitSeq) :
    haveLength n (v :: vs) = true ↔ v.length = n ∧ haveLength n vs = true := by
  simp [haveLength]

theorem alu1_eq_next {s t : State} {r : Datapath → Datapath} :
    s.alu1 r = .next t ↔ s.dp.opA.length = s.aluLength ∧ t = { s with dp := r s.dp } := by
  rw [State.alu1, whenLengths_eq_next, haveLength_cons]; simp [eq_comm]

theorem alu2_eq_next {s t : State} {f : BitSeq → BitSeq → BitSeq} :
    s.alu2 f = .next t ↔ s.dp.opA.length = s.aluLength ∧ s.dp.opB.length = s.aluLength
      ∧ t = { s with dp := { s.dp with resVec := f s.dp.opA s.dp.opB } } := by
  rw [State.alu2, whenLengths_eq_next, haveLength_cons, haveLength_cons]; simp [eq_comm, and_assoc]

/-! ## The output buffer -/

/-- What `put` answers: the bits appended within the capacity, or OVERFLOW (R172). -/
theorem put_eq_ok {bits : BitSeq} {u u' : Cu} :
    put bits u = .ok u' ↔ u.obuf.length + bits.length ≤ 48 * u.fs.toNat ∧ u' = { u with obuf := u.obuf ++ bits } := by
  unfold put obufCap; split <;> simp [eq_comm] <;> omega

theorem put_eq_error {bits : BitSeq} {u : Cu} {e : ErrCode} :
    put bits u = .error e ↔ 48 * u.fs.toNat < u.obuf.length + bits.length ∧ e = .overflow := by
  unfold put obufCap; split <;> simp [eq_comm] <;> omega

/-- A step that only puts bits: they are appended, or the CU raises OVERFLOW (R172, R394). -/
theorem runCu_put (s : State) (bits : BitSeq) :
    s.runCu (put bits s.cu) = { s with cu :=
      if s.cu.obuf.length + bits.length > 48 * s.cu.fs.toNat then s.cu.raise .overflow
      else { s.cu with obuf := s.cu.obuf ++ bits } } := by
  unfold State.runCu put obufCap; split <;> rfl

/-! ## The stream -/

/-- A step that reads the stream: the cursor moves and the result is kept, or the DU raises the error (R181, R394). -/
theorem runReader_cases {α : Type} (s : State) (r : Except ErrCode (α × BitSeq)) (k : α → Datapath → Datapath) :
    (∃ v rest, r = .ok (v, rest) ∧ s.runReader r k = { s with du := s.du.readTo rest, dp := k v s.dp })
      ∨ (∃ e, r = .error e ∧ s.runReader r k = { s with du := s.du.raise e }) := by
  rcases r with e | ⟨v, rest⟩
  · exact .inr ⟨e, rfl, rfl⟩
  · exact .inl ⟨v, rest, rfl, rfl⟩

/-! ## C_PKT -/

/-- Emission appends h_t, q_t and u_t together, or raises OVERFLOW (R110, R172). -/
theorem cPktEmit_cases (u : Cu) :
    (u.obuf.length + (headerBits u ++ maskBits u ++ dataBits u).length ≤ 48 * u.fs.toNat
        ∧ cPktEmit u = .ok { u with obuf := u.obuf ++ (headerBits u ++ maskBits u ++ dataBits u) })
      ∨ (48 * u.fs.toNat < u.obuf.length + (headerBits u ++ maskBits u ++ dataBits u).length
        ∧ cPktEmit u = .error .overflow) := by
  simp only [List.length_append]
  by_cases h1 : u.obuf.length + (headerBits u).length ≤ 48 * u.fs.toNat
  · by_cases h2 : u.obuf.length + (headerBits u).length + (maskBits u).length ≤ 48 * u.fs.toNat
    · by_cases h3 : u.obuf.length + (headerBits u).length + (maskBits u).length + (dataBits u).length ≤ 48 * u.fs.toNat
      · refine .inl ⟨by omega, ?_⟩
        have e1 := put_eq_ok.mpr ⟨h1, rfl⟩
        have e2 : put (maskBits u) { u with obuf := u.obuf ++ headerBits u } = _ :=
          put_eq_ok.mpr ⟨by simpa [Nat.add_assoc] using h2, rfl⟩
        have e3 : put (dataBits u) { u with obuf := u.obuf ++ headerBits u ++ maskBits u } = _ :=
          put_eq_ok.mpr ⟨by simpa [Nat.add_assoc] using h3, rfl⟩
        simp only [cPktEmit, e1]
        show (put (maskBits u) { u with obuf := u.obuf ++ headerBits u } >>= _) = _
        rw [e2]
        show put (dataBits u) { u with obuf := u.obuf ++ headerBits u ++ maskBits u } = _
        rw [e3]; simp
      · refine .inr ⟨by omega, ?_⟩
        have e1 := put_eq_ok.mpr ⟨h1, rfl⟩
        have e2 : put (maskBits u) { u with obuf := u.obuf ++ headerBits u } = _ :=
          put_eq_ok.mpr ⟨by simpa [Nat.add_assoc] using h2, rfl⟩
        simp only [cPktEmit, e1]
        show (put (maskBits u) { u with obuf := u.obuf ++ headerBits u } >>= _) = _
        rw [e2]
        refine put_eq_error.mpr ⟨?_, rfl⟩
        show 48 * u.fs.toNat < (u.obuf ++ headerBits u ++ maskBits u).length + (dataBits u).length
        simp only [List.length_append]; omega
    · refine .inr ⟨by omega, ?_⟩
      have e1 := put_eq_ok.mpr ⟨h1, rfl⟩
      simp only [cPktEmit, e1]
      show (put (maskBits u) { u with obuf := u.obuf ++ headerBits u } >>= _) = _
      rw [put_eq_error.mpr ⟨by simpa [Nat.add_assoc] using Nat.lt_of_not_le h2, rfl⟩]; rfl
  · refine .inr ⟨by omega, ?_⟩
    simp only [cPktEmit]
    rw [put_eq_error.mpr ⟨Nat.lt_of_not_le h1, rfl⟩]; rfl

/-- Everything a C_PKT can do (R300, R395). -/
theorem cPkt_cases (z nm sm uc : Bool) (u : Cu) :
    (u.st.ready = false ∧ cPkt z nm sm uc u = { u with st := u.st.report .notReady })
      ∨ (u.st.ready = true ∧ u.inLen.toNat ≠ byteCount u.fs.toNat ∧ cPkt z nm sm uc u = u.raise .invalidArgument)
      ∨ (u.st.ready = true ∧ u.inLen.toNat = byteCount u.fs.toNat
        ∧ cPktEmit (cPktPrepare z nm sm uc u) = .error .overflow ∧ cPkt z nm sm uc u = u.raise .overflow)
      ∨ (u.st.ready = true ∧ u.inLen.toNat = byteCount u.fs.toNat ∧ ∃ u', cPktEmit (cPktPrepare z nm sm uc u) = .ok u'
        ∧ cPkt z nm sm uc u = cPktCommit u') := by
  cases hr : u.st.ready with
  | false => exact .inl ⟨rfl, by simp [cPkt, hr]⟩
  | true =>
    by_cases hl : u.inLen.toNat = byteCount u.fs.toNat
    · rcases cPktEmit_cases (cPktPrepare z nm sm uc u) with ⟨-, h⟩ | ⟨-, h⟩
      · refine .inr (.inr (.inr ⟨rfl, hl, _, h, ?_⟩))
        rw [cPkt, if_neg (by simp [hr]), if_neg (not_not.mpr hl), cPktRun, h]; rfl
      · refine .inr (.inr (.inl ⟨rfl, hl, h, ?_⟩))
        rw [cPkt, if_neg (by simp [hr]), if_neg (not_not.mpr hl), cPktRun, h]; rfl
    · exact .inr (.inl ⟨rfl, hl, by simp [cPkt, hr, hl]⟩)

/-- What an emitted C_PKT leaves: the unit that was prepared, with its packet in the buffer, committed (R300, R308). -/
theorem cPkt_eq_commit {z nm sm uc : Bool} {u : Cu} (hr : u.st.ready = true) (hl : u.inLen.toNat = byteCount u.fs.toNat)
    (hok : (cPkt z nm sm uc u).st.err = .ok) :
    cPkt z nm sm uc u = cPktCommit { cPktPrepare z nm sm uc u with
      obuf := (cPktPrepare z nm sm uc u).obuf ++ (headerBits (cPktPrepare z nm sm uc u)
        ++ maskBits (cPktPrepare z nm sm uc u) ++ dataBits (cPktPrepare z nm sm uc u)) } := by
  rcases cPkt_cases z nm sm uc u with ⟨h, -⟩ | ⟨-, h, -⟩ | ⟨-, -, -, h⟩ | ⟨-, -, u', h1, h2⟩
  · simp [hr] at h
  · exact absurd hl h
  · rw [h] at hok; cases hok
  · rcases cPktEmit_cases (cPktPrepare z nm sm uc u) with ⟨-, h⟩ | ⟨-, h⟩ <;> rw [h] at h1 <;> cases h1
    exact h2

/-- PKT_INFO as a number: its fields do not overlap (R43, R53). -/
theorem toNat_pktInfoWord (v : BitVec 4) (ePresent e c d p ft rt : Bool) :
    (pktInfoWord v ePresent e c d p ft rt).toNat = v.toNat + flagAt 4 ePresent + flagAt 5 e + flagAt 6 c + flagAt 7 d
      + flagAt 8 p + flagAt 9 ft + flagAt 10 rt := by
  have := v.isLt
  rw [pktInfoWord, BitVec.toNat_ofNat, Nat.mod_eq_of_lt]
  have flag_le : ∀ k b, flagAt k b ≤ 2 ^ k := fun k b => by cases b <;> simp [flagAt]
  have := flag_le 4 ePresent; have := flag_le 5 e; have := flag_le 6 c; have := flag_le 7 d
  have := flag_le 8 p; have := flag_le 9 ft; have := flag_le 10 rt
  omega

/-- The saturating counter as a number (R24, R30). -/
theorem toNat_satInc (t : Word) : (satInc t).toNat = min (t.toNat + 1) (2 ^ 32 - 1) := by
  have := t.isLt
  unfold satInc
  split
  · rename_i h; rw [h]; decide
  · rename_i h
    have : t.toNat ≠ 2 ^ 32 - 1 := fun hc => h (BitVec.eq_of_toNat_eq (by rw [hc]; decide))
    rw [BitVec.toNat_add, show (1 : Word).toNat = 1 from rfl]; omega

/-! ## D_PKT -/

/-- Everything a D_PKT can do (R350, R395). -/
theorem dPkt_cases (u : Du) :
    (u.st.ready = false ∧ dPkt u = { u with st := u.st.report .notReady })
      ∨ (u.st.ready = true ∧ ∃ e, readPacket u.fs.toNat u.dmask u.prevOutput (unreadBits u) = .error e
        ∧ dPkt u = u.raise e)
      ∨ (u.st.ready = true ∧ ∃ k rest, readPacket u.fs.toNat u.dmask u.prevOutput (unreadBits u) = .ok (k, rest)
        ∧ dPkt u = dPktCommit u k rest) := by
  cases hr : u.st.ready with
  | false => exact .inl ⟨rfl, by simp [dPkt, hr]⟩
  | true =>
    rcases h : readPacket u.fs.toNat u.dmask u.prevOutput (unreadBits u) with e | ⟨k, rest⟩
    · exact .inr (.inl ⟨rfl, e, rfl, by simp [dPkt, hr, h]⟩)
    · exact .inr (.inr ⟨rfl, k, rest, rfl, by simp [dPkt, hr, h]⟩)

/-- What a commit makes of STATUS and of the last packet (R358). -/
theorem dPktCommit_fields (u : Du) (k : Packet) (rest : BitSeq) :
    (dPktCommit u k rest).st = u.st.report .ok ∧ (dPktCommit u k rest).dmask = k.mf.m
      ∧ (dPktCommit u k rest).prevOutput = k.out ∧ (dPktCommit u k rest).pos = k.dir.pos
      ∧ (dPktCommit u k rest).win = writeBytes u.win duOut (packBits k.out) ∧ (dPktCommit u k rest).t = satInc u.t
      ∧ (dPktCommit u k rest).fs = u.fs ∧ (dPktCommit u k rest).numBits = u.numBits
      ∧ (dPktCommit u k rest).bitPos =
        if u.autoAlign then (u.readTo rest).align.bitPos else (u.readTo rest).bitPos := by
  unfold dPktCommit
  dsimp only
  split
  · rename_i h; exact ⟨rfl, rfl, rfl, rfl, rfl, rfl, rfl, rfl, (if_pos h).symm⟩
  · rename_i h; exact ⟨rfl, rfl, rfl, rfl, rfl, rfl, rfl, rfl, (if_neg h).symm⟩

/-! ## Steps -/

/-- Everything a step that goes on can have done. -/
theorem step_cases {s t : State} (h : step s = .next t) :
    (∃ c s' i, s.fetch = some (c, s') ∧ decode c = .ok i ∧ exec i s' = .next t)
      ∨ (∃ c s' e, s.fetch = some (c, s') ∧ decode c = .error e ∧ rejected s' e = .next t)
      ∨ (s.fetch = none ∧ quietStep s = .next t) := by
  unfold step at h
  split at h
  · rename_i c s' hf
    split at h
    · rename_i i hd; exact .inl ⟨c, s', i, hf, hd, h⟩
    · rename_i e hd; exact .inr (.inl ⟨c, s', e, hf, hd, h⟩)
  · rename_i hf; exact .inr (.inr ⟨hf, h⟩)

/-- What a step fetches, and the state it runs it in. -/
theorem fetch_cases {s s' : State} {c : Code} (h : s.fetch = some (c, s')) :
    (∃ b, s.micro = some (.uop b) ∧ c = .uop b ∧ s' = { s with micro := none })
      ∨ (s.micro = some .wire ∧ c = .wire (unreadBits s.du) ∧ s' = { s with micro := none })
      ∨ (∃ u w, s.micro = none ∧ s.nextTurn = .unit u ∧ s.pending u = some w ∧ c = .command u w
        ∧ s' = s.passTurn.complete u) := by
  unfold State.fetch at h
  split at h
  · rename_i b hm; cases h; exact .inl ⟨b, hm, rfl, rfl⟩
  · rename_i hm; cases h; exact .inr (.inl ⟨hm, rfl, rfl⟩)
  · rename_i hm
    split at h
    · cases h
    · rename_i u hu
      split at h
      · rename_i w hw; cases h; exact .inr (.inr ⟨u, w, hm, hu, hw, rfl, rfl⟩)
      · cases h

/-- Everything a step that runs no instruction can do: the host's next access, or the turn passed (R390). -/
theorem quietStep_cases (s : State) :
    (∃ a rest, s.nextTurn = .host ∧ s.host = a :: rest ∧ quietStep s = hostAct { s.passTurn with host := rest } a)
      ∨ (s.nextTurn = .host ∧ s.host = [] ∧ quietStep s = .next s.passTurn)
      ∨ (∃ u, s.nextTurn = .unit u ∧ quietStep s = .next s.passTurn) := by
  rcases ht : s.nextTurn with _ | u
  · rcases hh : s.host with _ | ⟨a, rest⟩
    · exact .inr (.inl ⟨rfl, rfl, by simp [quietStep, hostTurn, State.passTurn, ht, hh]⟩)
    · exact .inl ⟨a, rest, rfl, rfl, by simp [quietStep, hostTurn, State.passTurn, ht, hh]⟩
  · exact .inr (.inr ⟨u, rfl, by simp [quietStep, ht]⟩)

/-- Everything an action of the host that goes on can have done (R76, R420). -/
theorem hostAct_cases {s t : State} {a : HostAction} (h : hostAct s a = .next t) :
    (a = .reset ∧ t = s.hardwareReset)
      ∨ (∃ w addr off, a = .read w addr ∧ locate s.params addr = some (.cu, off) ∧ t = cuRead s w off)
      ∨ (∃ w addr off, a = .read w addr ∧ locate s.params addr = some (.du, off) ∧ t = duRead s w off)
      ∨ (∃ w addr v off, a = .write w addr v ∧ locate s.params addr = some (.cu, off)
        ∧ t = { s with cu := cuWrite s.cu w off v })
      ∨ (∃ w addr v off, a = .write w addr v ∧ locate s.params addr = some (.du, off)
        ∧ t = { s with du := duWrite s.params.streamCap s.du w off v }) := by
  cases a with
  | reset => cases h; exact .inl ⟨rfl, rfl⟩
  | read w addr =>
    rcases hl : locate s.params addr with _ | ⟨_ | _, off⟩ <;> simp only [hostAct, hl] at h <;> cases h
    · exact .inr (.inl ⟨w, addr, off, rfl, hl, rfl⟩)
    · exact .inr (.inr (.inl ⟨w, addr, off, rfl, hl, rfl⟩))
  | write w addr v =>
    rcases hl : locate s.params addr with _ | ⟨_ | _, off⟩ <;> simp only [hostAct, hl] at h <;> cases h
    · exact .inr (.inr (.inr (.inl ⟨w, addr, v, off, rfl, hl, rfl⟩)))
    · exact .inr (.inr (.inr (.inr ⟨w, addr, v, off, rfl, hl, rfl⟩)))

/-- A read of the host's leaves the units as they are (R83). -/
theorem cuRead_frame (s : State) (w : Width) (off : Nat) :
    ∃ v n, cuRead s w off = { s with readData := v, drawn := n } := by
  unfold cuRead
  repeat' split
  all_goals exact ⟨_, _, rfl⟩

theorem duRead_frame (s : State) (w : Width) (off : Nat) :
    ∃ v n, duRead s w off = { s with readData := v, drawn := n } := by
  unfold duRead
  repeat' split
  all_goals exact ⟨_, _, rfl⟩

/-! ## Addresses -/

theorem locate_cu {p : Params} {off : Nat} (h : off < regionBytes) : locate p (p.cBase + off) = some (.cu, off) := by
  have : p.cBase ≤ p.cBase + off ∧ p.cBase + off < p.cBase + regionBytes := ⟨by omega, by omega⟩
  simp [locate, h]

theorem locate_du {p : Params} {off : Nat} (hp : p.ok = true) (h : off < regionBytes) :
    locate p (p.dBase + off) = some (.du, off) := by
  simp only [Params.ok, Bool.and_eq_true, Bool.or_eq_true, decide_eq_true_eq] at hp
  have h1 : ¬(p.cBase ≤ p.dBase + off ∧ p.dBase + off < p.cBase + regionBytes) := by omega
  simp [locate, h1, h]

end Sys2Proof.Machine
end

