-- ==== Sys2Proof/Laws/PerInstr.lean ====
section
/-! SUPPORT. Per instruction: the encoder gives each instruction a code of its own format (R101, R106, R115, R120). -/

namespace Sys2Proof.Laws.EncodeFormat

open Sys2Proof

/-- The encoding of an instruction is a code of its format: a command word of its own unit with bits [31:11] zero, a
micro-operation code from 0x40 to 0x7D, or a code word of 1 to 29 bits. -/
def Statement (i : Instr) : Prop :=
  match i.format, encode i with
  | .cmd u, .command v w => v = u ∧ w.toNat < 2 ^ 11
  | .uop, .uop b => 0x40 ≤ b.toNat ∧ b.toNat ≤ 0x7D
  | .wire, .wire bits => 1 ≤ bits.length ∧ bits.length ≤ 29
  | _, _ => False

theorem cInit : Statement .cInit := ⟨by decide, by decide⟩

theorem cPkt (nm sm uc : Bool) : Statement (.cPkt nm sm uc) := by
  refine ⟨rfl, ?_⟩
  cases nm <;> cases sm <;> cases uc <;> decide

theorem dInit : Statement .dInit := ⟨by decide, by decide⟩

theorem dLoad : Statement .dLoad := ⟨by decide, by decide⟩

theorem dPkt : Statement .dPkt := ⟨by decide, by decide⟩

theorem dAlign : Statement .dAlign := ⟨by decide, by decide⟩

theorem bvXor : Statement .bvXor := ⟨by decide, by decide⟩

theorem bvOr : Statement .bvOr := ⟨by decide, by decide⟩

theorem bvAnd : Statement .bvAnd := ⟨by decide, by decide⟩

theorem bvNot : Statement .bvNot := ⟨by decide, by decide⟩

theorem bvShl1 : Statement .bvShl1 := ⟨by decide, by decide⟩

theorem bvRev : Statement .bvRev := ⟨by decide, by decide⟩

theorem bvPopcnt : Statement .bvPopcnt := ⟨by decide, by decide⟩

theorem bvGet : Statement .bvGet := ⟨by decide, by decide⟩

theorem bvSet : Statement .bvSet := ⟨by decide, by decide⟩

theorem bvZero : Statement .bvZero := ⟨by decide, by decide⟩

theorem bvUnpack : Statement .bvUnpack := ⟨by decide, by decide⟩

theorem bvPack : Statement .bvPack := ⟨by decide, by decide⟩

theorem bbClear : Statement .bbClear := ⟨by decide, by decide⟩

theorem bbPutbit : Statement .bbPutbit := ⟨by decide, by decide⟩

theorem bbPutval : Statement .bbPutval := ⟨by decide, by decide⟩

theorem bbPutvec : Statement .bbPutvec := ⟨by decide, by decide⟩

theorem bbTobytes : Statement .bbTobytes := ⟨by decide, by decide⟩

theorem brGetbit : Statement .brGetbit := ⟨by decide, by decide⟩

theorem brGetbits : Statement .brGetbits := ⟨by decide, by decide⟩

theorem brAlign : Statement .brAlign := ⟨by decide, by decide⟩

theorem brRemain : Statement .brRemain := ⟨by decide, by decide⟩

theorem cntEnc : Statement .cntEnc := ⟨by decide, by decide⟩

theorem cntDec : Statement .cntDec := ⟨by decide, by decide⟩

theorem rleEnc : Statement .rleEnc := ⟨by decide, by decide⟩

theorem rleDec : Statement .rleDec := ⟨by decide, by decide⟩

theorem beRev : Statement .beRev := ⟨by decide, by decide⟩

theorem beFwd : Statement .beFwd := ⟨by decide, by decide⟩

theorem biRev : Statement .biRev := ⟨by decide, by decide⟩

theorem biFwd : Statement .biFwd := ⟨by decide, by decide⟩

theorem muBuild : Statement .muBuild := ⟨by decide, by decide⟩

theorem muMask : Statement .muMask := ⟨by decide, by decide⟩

theorem muChange : Statement .muChange := ⟨by decide, by decide⟩

theorem hwPush : Statement .hwPush := ⟨by decide, by decide⟩

theorem hwXwin : Statement .hwXwin := ⟨by decide, by decide⟩

theorem hwVeff : Statement .hwVeff := ⟨by decide, by decide⟩

theorem hwCt : Statement .hwCt := ⟨by decide, by decide⟩

theorem hwFpush : Statement .hwFpush := ⟨by decide, by decide⟩

theorem apNext : Statement .apNext := ⟨by decide, by decide⟩

theorem countOne : Statement .countOne := by simp [Statement, Instr.format, encode]

theorem countTerm : Statement .countTerm := by simp [Statement, Instr.format, encode]

theorem countShort (a : Nat) : Statement (.countShort a) := by
  simp [Statement, Instr.format, encode, Machine.length_bitsMsb]

theorem countLongE6 (a : Nat) : Statement (.countLongE6 a) := by
  simp [Statement, Instr.format, encode, longBits, Machine.length_bitsMsb]

theorem countLongE8 (a : Nat) : Statement (.countLongE8 a) := by
  simp [Statement, Instr.format, encode, longBits, Machine.length_bitsMsb]

theorem countLongE10 (a : Nat) : Statement (.countLongE10 a) := by
  simp [Statement, Instr.format, encode, longBits, Machine.length_bitsMsb]

theorem countLongE12 (a : Nat) : Statement (.countLongE12 a) := by
  simp [Statement, Instr.format, encode, longBits, Machine.length_bitsMsb]

theorem countLongE14 (a : Nat) : Statement (.countLongE14 a) := by
  simp [Statement, Instr.format, encode, longBits, Machine.length_bitsMsb]

theorem countLongE16 (a : Nat) : Statement (.countLongE16 a) := by
  simp [Statement, Instr.format, encode, longBits, Machine.length_bitsMsb]

theorem countLongE18 (a : Nat) : Statement (.countLongE18 a) := by
  simp [Statement, Instr.format, encode, longBits, Machine.length_bitsMsb]

theorem countLongE20 (a : Nat) : Statement (.countLongE20 a) := by
  simp [Statement, Instr.format, encode, longBits, Machine.length_bitsMsb]

theorem countLongE22 (a : Nat) : Statement (.countLongE22 a) := by
  simp [Statement, Instr.format, encode, longBits, Machine.length_bitsMsb]

theorem countLongE24 (a : Nat) : Statement (.countLongE24 a) := by
  simp [Statement, Instr.format, encode, longBits, Machine.length_bitsMsb]

theorem countLongE26 (a : Nat) : Statement (.countLongE26 a) := by
  simp [Statement, Instr.format, encode, longBits, Machine.length_bitsMsb]

theorem countMalformed : Statement .countMalformed := by simp [Statement, Instr.format, encode]

end Sys2Proof.Laws.EncodeFormat
end

