-- ==== Sys2Proof/Laws/Readers.lean ====
section
/-! SUPPORT. What every reader of the stream does: it reads a first part of the unread bits, the bits behind that part make
no difference, and every shorter part of it underflows. -/

namespace Sys2Proof.Machine

/-- What a reader does where it answers: it has read a first part of the bits, whatever follows; cut short, it underflows
(R181, R392). -/
def IsReader {α : Type} (r : BitSeq → Except ErrCode (α × BitSeq)) : Prop :=
  ∀ bits v rest, r bits = .ok (v, rest) →
    ∃ pre, bits = pre ++ rest ∧ (∀ x, r (pre ++ x) = .ok (v, x))
      ∧ ∀ p q, pre = p ++ q → q ≠ [] → r p = .error .underflow

variable {α β : Type}

theorem isReader_pure (v : α) : IsReader fun bits => .ok (v, bits) := by
  intro bits w rest h
  simp only [Except.ok.injEq, Prod.mk.injEq] at h
  obtain ⟨rfl, rfl⟩ := h
  exact ⟨[], rfl, fun x => rfl, fun p q h hq => by simp_all⟩

theorem isReader_error (e : ErrCode) : IsReader fun _ => (.error e : Except ErrCode (α × BitSeq)) := by
  intro bits v rest h; cases h

theorem isReader_of_eq {f g : BitSeq → Except ErrCode (α × BitSeq)} (h : ∀ bits, f bits = g bits) (hg : IsReader g) :
    IsReader f := by
  rwa [funext h]

/-- Readers in sequence. -/
theorem isReader_bind {r : BitSeq → Except ErrCode (α × BitSeq)} {k : α × BitSeq → Except ErrCode (β × BitSeq)}
    (hr : IsReader r) (hk : ∀ v, IsReader fun bits => k (v, bits)) : IsReader fun bits => r bits >>= k := by
  intro bits v rest h
  cases hb : r bits with
  | error e => simp only [hb] at h; cases h
  | ok y =>
    obtain ⟨w, mid⟩ := y
    simp only [hb] at h
    obtain ⟨p1, rfl, hx1, hp1⟩ := hr _ _ _ hb
    obtain ⟨p2, rfl, hx2, hp2⟩ := hk w _ _ _ h
    refine ⟨p1 ++ p2, by simp, fun x => ?_, fun p q hpq hq => ?_⟩
    · beta_reduce; rw [List.append_assoc, hx1]; exact hx2 x
    rcases List.append_eq_append_iff.mp hpq with ⟨a, rfl, rfl⟩ | ⟨c, rfl, rfl⟩
    · beta_reduce; rw [hx1]; exact hp2 _ _ rfl hq
    · by_cases hc : c = []
      · subst hc
        have h0 := hp2 [] p2 (by simp) (by simpa using hq)
        have h1 := hx1 []
        simp only [List.append_nil] at h1 ⊢
        rw [h1]; exact h0
      · beta_reduce; rw [hp1 _ _ rfl hc]; rfl

theorem isReader_getBit : IsReader getBit := by
  intro bits v rest h
  cases bits with
  | nil => cases h
  | cons b r =>
    simp only [getBit, Except.ok.injEq, Prod.mk.injEq] at h
    obtain ⟨rfl, rfl⟩ := h
    refine ⟨[b], rfl, fun x => rfl, fun p q h hq => ?_⟩
    cases p with
    | nil => rfl
    | cons c t => simp at h; exact absurd h.2.2 hq

theorem isReader_getNumFrom (n acc : Nat) : IsReader (getNumFrom acc n) := by
  induction n generalizing acc with
  | zero => exact isReader_pure acc
  | succ n ih => exact isReader_of_eq (getNumFrom.eq_2 acc · n) (isReader_bind isReader_getBit fun b => ih (2 * acc + b.toNat))

theorem isReader_getNum (n : Nat) : IsReader (getNum n) := isReader_getNumFrom n 0

theorem isReader_getVec (n : Nat) : IsReader (getVec n) := by
  induction n with
  | zero => exact isReader_pure []
  | succ n ih =>
    refine isReader_of_eq (getVec.eq_2 · n) (isReader_bind isReader_getBit fun b => ?_)
    exact isReader_bind ih fun v => isReader_pure (b :: v)

theorem isReader_zeroRun (z : Nat) : IsReader (zeroRun z) := by
  intro bits
  induction bits generalizing z with
  | nil => intro v rest h; cases h
  | cons b r ih =>
    intro v rest h
    cases b with
    | true =>
      simp only [zeroRun, Except.ok.injEq, Prod.mk.injEq] at h
      obtain ⟨rfl, rfl⟩ := h
      refine ⟨[true], rfl, fun x => rfl, fun p q h hq => ?_⟩
      cases p with
      | nil => rfl
      | cons c t => simp at h; exact absurd h.2.2 hq
    | false =>
      simp only [zeroRun] at h
      split at h
      · cases h
      · rename_i hz
        obtain ⟨pre, rfl, hx, hp⟩ := ih (z + 1) v rest h
        refine ⟨false :: pre, rfl, fun x => by simp [zeroRun, hz, hx], fun p q h hq => ?_⟩
        cases p with
        | nil => rfl
        | cons c t =>
          simp only [List.cons_append, List.cons.injEq] at h
          obtain ⟨rfl, h⟩ := h
          simp [zeroRun, hz, hp t q h hq]

theorem isReader_cntDec : IsReader cntDec := by
  refine isReader_of_eq (fun bits => cntDec.eq_1 bits) (isReader_bind isReader_getBit ?_)
  rintro (_ | _)
  · exact isReader_pure 1
  refine isReader_bind isReader_getBit ?_
  rintro (_ | _)
  · exact isReader_pure 0
  refine isReader_bind isReader_getBit ?_
  rintro (_ | _)
  · exact isReader_bind (isReader_getNum 5) fun v => isReader_pure (v + 2)
  · exact isReader_bind (isReader_zeroRun 0) fun z =>
      isReader_bind (isReader_getNum (z + 5)) fun v => isReader_pure (2 ^ (z + 5) + v + 2)

theorem isReader_rleDecFrom (fuel : Nat) : ∀ (pos : Nat) (acc : BitSeq), IsReader (rleDecFrom fuel pos acc) := by
  induction fuel with
  | zero => exact fun _ _ => isReader_error .malformed
  | succ fuel ih =>
    intro pos acc
    refine isReader_of_eq (rleDecFrom.eq_2 pos acc · fuel) (isReader_bind isReader_cntDec fun a => ?_)
    by_cases h0 : a = 0
    · simp only [h0, if_true]; exact isReader_pure _
    by_cases h1 : a > pos
    · simp only [h0, h1, if_true, if_false]; exact isReader_error .malformed
    · simp only [h0, h1, if_false]; exact ih _ _

theorem isReader_rleDec (n : Nat) : IsReader (rleDec n) := isReader_rleDecFrom (n + 1) n []

theorem isReader_biFwd (a m : BitSeq) : IsReader (biFwd a m) := by
  induction a generalizing m with
  | nil => exact isReader_of_eq (fun bits => by cases m <;> rfl) (isReader_pure [])
  | cons x a ih =>
    match m with
    | [] => exact isReader_of_eq (fun bits => rfl) (isReader_pure (x :: a))
    | true :: m =>
      exact isReader_of_eq (fun bits => biFwd.eq_1 bits x a m)
        (isReader_bind isReader_getBit fun b => isReader_bind (ih m) fun a' => isReader_pure (b :: a'))
    | false :: m =>
      exact isReader_of_eq (fun bits => biFwd.eq_2 bits x a m) (isReader_bind (ih m) fun a' => isReader_pure (x :: a'))

theorem isReader_biRev (a m : BitSeq) : IsReader (biRev a m) :=
  isReader_of_eq (fun bits => biRev.eq_1 a m bits)
    (isReader_bind (isReader_biFwd _ _) fun a' => isReader_pure a'.reverse)

theorem isReader_readDirections (x m : BitSeq) : IsReader (readDirections x m) := by
  induction x generalizing m with
  | nil => exact isReader_of_eq (fun bits => by cases m <;> rfl) (isReader_pure (m, zeros m.length))
  | cons b x ih =>
    match b, m with
    | true, [] => exact isReader_of_eq (fun bits => rfl) (isReader_pure ([], zeros 0))
    | false, [] => exact isReader_of_eq (fun bits => rfl) (isReader_pure ([], zeros 0))
    | true, y :: m =>
      exact isReader_of_eq (fun bits => readDirections.eq_1 bits x y m)
        (isReader_bind isReader_getBit fun k => isReader_bind (ih m) fun w => isReader_pure ((!k) :: w.1, k :: w.2))
    | false, y :: m =>
      exact isReader_of_eq (fun bits => readDirections.eq_2 bits x y m)
        (isReader_bind (ih m) fun w => isReader_pure (y :: w.1, false :: w.2))

theorem isReader_readDirection (v : Nat) (x m : BitSeq) : IsReader (readDirection v x m) := by
  refine isReader_of_eq (fun bits => readDirection.eq_1 v x m bits) ?_
  by_cases h : 0 < v ∧ anySet x = true
  · simp only [if_pos h]
    refine isReader_bind isReader_getBit ?_
    rintro (_ | _)
    · exact isReader_pure _
    · refine isReader_bind (isReader_readDirections x m) fun w => ?_
      dsimp only
      exact isReader_bind isReader_getBit fun c => by dsimp only; exact isReader_pure _
  · simp only [if_neg h]; exact isReader_pure _

theorem isReader_readMaskField (n : Nat) (m : BitSeq) : IsReader (readMaskField n m) := by
  refine isReader_of_eq (fun bits => readMaskField.eq_1 n m bits) (isReader_bind isReader_getBit ?_)
  rintro (_ | _)
  · refine isReader_bind isReader_getBit ?_
    rintro (_ | _)
    · exact isReader_bind isReader_getBit fun r => isReader_pure _
    · refine isReader_bind (isReader_rleDec n) fun delta => isReader_bind isReader_getBit fun r => ?_
      exact isReader_pure _
  · exact isReader_pure _

theorem isReader_readData (n v : Nat) (dir : Direction) (mf : MaskField) (out : BitSeq) :
    IsReader (readData n v dir mf out) := by
  refine isReader_of_eq (fun bits => readData.eq_1 n v dir mf out bits) ?_
  by_cases h : mf.r = true
  · simp only [if_pos h]
    refine isReader_bind isReader_cntDec fun lcf => ?_
    dsimp only
    exact isReader_bind (isReader_getVec n) fun raw => by dsimp only; exact isReader_pure _
  · simp only [if_neg h]
    exact isReader_bind (isReader_biRev _ _) fun out' => isReader_pure (none, out')

/-- D_PKT reads the bits of its packet and no more (R118, R358). -/
theorem isReader_readPacket (n : Nat) (dmask prevOutput : BitSeq) : IsReader (readPacket n dmask prevOutput) :=
  isReader_of_eq (fun bits => readPacket.eq_1 n dmask prevOutput bits)
    (isReader_bind (isReader_rleDec n) fun x => by
      refine isReader_bind (isReader_getNum 4) fun v => isReader_bind (isReader_readDirection v x dmask) fun dir => ?_
      refine isReader_bind (isReader_readMaskField n dir.m) fun mf => ?_
      refine isReader_bind (isReader_readData n v dir mf prevOutput) fun y => ?_
      exact isReader_pure _)

end Sys2Proof.Machine
end

