-- ==== Sys2Proof/Tests/Slice0.lean ====
section
/-! SUPPORT. The model's own tests: ill-formed instructions, decoding of words written out from the spec's encodings, one step
per instruction with the spec's own values (spec/95), and for each statement with hypotheses a witness that meets them. -/

namespace Sys2Proof.Tests

open Sys2Proof Sys2Proof.Machine

/-! ## Well-formedness: each check refuses a field one too large, and takes the largest that fits -/

theorem test_illFormed_countShort :
    wellFormed (.countShort 32) = false ∧ wellFormed (.countShort 31) = true := by decide

theorem test_illFormed_countLongE6 :
    wellFormed (.countLongE6 32) = false ∧ wellFormed (.countLongE6 31) = true := by decide

theorem test_illFormed_countLongE8 :
    wellFormed (.countLongE8 64) = false ∧ wellFormed (.countLongE8 63) = true := by decide

theorem test_illFormed_countLongE10 :
    wellFormed (.countLongE10 128) = false ∧ wellFormed (.countLongE10 127) = true := by decide

theorem test_illFormed_countLongE12 :
    wellFormed (.countLongE12 256) = false ∧ wellFormed (.countLongE12 255) = true := by decide

theorem test_illFormed_countLongE14 :
    wellFormed (.countLongE14 512) = false ∧ wellFormed (.countLongE14 511) = true := by decide

theorem test_illFormed_countLongE16 :
    wellFormed (.countLongE16 1024) = false ∧ wellFormed (.countLongE16 1023) = true := by decide

theorem test_illFormed_countLongE18 :
    wellFormed (.countLongE18 2048) = false ∧ wellFormed (.countLongE18 2047) = true := by decide

theorem test_illFormed_countLongE20 :
    wellFormed (.countLongE20 4096) = false ∧ wellFormed (.countLongE20 4095) = true := by decide

theorem test_illFormed_countLongE22 :
    wellFormed (.countLongE22 8192) = false ∧ wellFormed (.countLongE22 8191) = true := by decide

theorem test_illFormed_countLongE24 :
    wellFormed (.countLongE24 16384) = false ∧ wellFormed (.countLongE24 16383) = true := by decide

theorem test_illFormed_countLongE26 :
    wellFormed (.countLongE26 32768) = false ∧ wellFormed (.countLongE26 32767) = true := by decide

/-! ## Decoding, each word written out from the encoding tables of the spec (R106, R115, R120, R202, R205) -/

theorem test_decode_commands :
    decode (.command .cu 0x00000001) = .ok .cInit ∧ decode (.command .cu 0x00000002) = .ok (.cPkt false false false)
      ∧ decode (.command .cu 0x00000102) = .ok (.cPkt true false false)
      ∧ decode (.command .cu 0x00000202) = .ok (.cPkt false true false)
      ∧ decode (.command .cu 0x00000402) = .ok (.cPkt false false true)
      ∧ decode (.command .du 0x00000011) = .ok .dInit ∧ decode (.command .du 0x00000012) = .ok .dLoad
      ∧ decode (.command .du 0x00000013) = .ok .dPkt ∧ decode (.command .du 0x00000014) = .ok .dAlign := by decide

/-- The illegal words of spec/95 section 2.1. -/
theorem test_decode_badCommands :
    decode (.command .cu 0x00000801) = .error (.badCommand .cu) ∧ decode (.command .cu 0x00000101) = .error (.badCommand .cu)
      ∧ decode (.command .cu 0x00000013) = .error (.badCommand .cu)
      ∧ decode (.command .cu 0x00000000) = .error (.badCommand .cu)
      ∧ decode (.command .du 0x00000113) = .error (.badCommand .du)
      ∧ decode (.command .du 0x00000002) = .error (.badCommand .du)
      ∧ decode (.command .du 0x80000013) = .error (.badCommand .du) := by decide

theorem test_decode_bv :
    decode (.uop 0x40) = .ok .bvXor
      ∧ decode (.uop 0x41) = .ok .bvOr
      ∧ decode (.uop 0x42) = .ok .bvAnd
      ∧ decode (.uop 0x43) = .ok .bvNot
      ∧ decode (.uop 0x44) = .ok .bvShl1
      ∧ decode (.uop 0x45) = .ok .bvRev
      ∧ decode (.uop 0x46) = .ok .bvPopcnt
      ∧ decode (.uop 0x47) = .ok .bvGet
      ∧ decode (.uop 0x48) = .ok .bvSet
      ∧ decode (.uop 0x49) = .ok .bvZero
      ∧ decode (.uop 0x4A) = .ok .bvUnpack
      ∧ decode (.uop 0x4B) = .ok .bvPack := by decide

theorem test_decode_bb :
    decode (.uop 0x50) = .ok .bbClear
      ∧ decode (.uop 0x51) = .ok .bbPutbit
      ∧ decode (.uop 0x52) = .ok .bbPutval
      ∧ decode (.uop 0x53) = .ok .bbPutvec
      ∧ decode (.uop 0x54) = .ok .bbTobytes := by decide

theorem test_decode_br :
    decode (.uop 0x58) = .ok .brGetbit
      ∧ decode (.uop 0x59) = .ok .brGetbits
      ∧ decode (.uop 0x5A) = .ok .brAlign
      ∧ decode (.uop 0x5B) = .ok .brRemain := by decide

theorem test_decode_cnt :
    decode (.uop 0x60) = .ok .cntEnc
      ∧ decode (.uop 0x61) = .ok .cntDec := by decide

theorem test_decode_rle :
    decode (.uop 0x62) = .ok .rleEnc
      ∧ decode (.uop 0x63) = .ok .rleDec := by decide

theorem test_decode_be :
    decode (.uop 0x64) = .ok .beRev
      ∧ decode (.uop 0x65) = .ok .beFwd := by decide

theorem test_decode_bi :
    decode (.uop 0x66) = .ok .biRev
      ∧ decode (.uop 0x67) = .ok .biFwd := by decide

theorem test_decode_mu :
    decode (.uop 0x70) = .ok .muBuild
      ∧ decode (.uop 0x71) = .ok .muMask
      ∧ decode (.uop 0x72) = .ok .muChange := by decide

theorem test_decode_hw :
    decode (.uop 0x78) = .ok .hwPush
      ∧ decode (.uop 0x79) = .ok .hwXwin
      ∧ decode (.uop 0x7A) = .ok .hwVeff
      ∧ decode (.uop 0x7B) = .ok .hwCt
      ∧ decode (.uop 0x7C) = .ok .hwFpush := by decide

theorem test_decode_ap :
    decode (.uop 0x7D) = .ok .apNext := by decide

theorem test_decode_unknownUop :
    decode (.uop 0x4C) = .error (.unknownUop 0x4C) ∧ decode (.uop 0x7E) = .error (.unknownUop 0x7E) := by decide

/-- A bit string of `n` bits, read off the binary digits of a number. -/
def bin (n v : Nat) : BitSeq := (List.range n).map fun i => v / 2 ^ (n - 1 - i) % 2 == 1

theorem test_decode_counts :
    decode (.wire (bin 1 0b0)) = .ok (.countOne)
      ∧ decode (.wire (bin 2 0b10)) = .ok (.countTerm)
      ∧ decode (.wire (bin 8 0b11000000)) = .ok (.countShort 0)
      ∧ decode (.wire (bin 8 0b11011111)) = .ok (.countShort 31)
      ∧ decode (.wire (bin 9 0b111100001)) = .ok (.countLongE6 1)
      ∧ decode (.wire (bin 11 0b11101000001)) = .ok (.countLongE8 1)
      ∧ decode (.wire (bin 13 0b1110011111111)) = .ok (.countLongE10 127)
      ∧ decode (.wire (bin 15 0b111000100000000)) = .ok (.countLongE12 0)
      ∧ decode (.wire (bin 17 0b11100001111111111)) = .ok (.countLongE14 511)
      ∧ decode (.wire (bin 19 0b1110000010000000000)) = .ok (.countLongE16 0)
      ∧ decode (.wire (bin 21 0b111000000111111111111)) = .ok (.countLongE18 2047)
      ∧ decode (.wire (bin 23 0b11100000001000000000000)) = .ok (.countLongE20 0)
      ∧ decode (.wire (bin 25 0b1110000000011111111111111)) = .ok (.countLongE22 8191)
      ∧ decode (.wire (bin 27 0b111000000000100000000000000)) = .ok (.countLongE24 0)
      ∧ decode (.wire (bin 29 0b11100000000001111111111111101)) = .ok (.countLongE26 32765)
      ∧ decode (.wire (bin 14 0b11100000000000)) = .ok (.countMalformed) := by decide

theorem test_decode_countCut :
    decode (.wire (bin 2 0b11)) = .error .incomplete ∧ decode (.wire []) = .error .incomplete := by decide

/-- The opcode table's own numbering (its smallest and largest rows of each format). -/
theorem test_decodeTableWord :
    decodeTableWord 32 0x00000001 = some .cInit ∧ decodeTableWord 32 0x00000702 = some (.cPkt true true true)
      ∧ decodeTableWord 32 0x00000014 = some .dAlign ∧ decodeTableWord 8 0x40 = some .bvXor
      ∧ decodeTableWord 8 0x7D = some .apNext ∧ decodeTableWord 8 0 = some .countOne
      ∧ decodeTableWord 8 2 = some .countTerm ∧ decodeTableWord 8 0xC0 = some (.countShort 0)
      ∧ decodeTableWord 16 0x1E0 = some (.countLongE6 0) ∧ decodeTableWord 32 0x1C008000 = some (.countLongE26 0)
      ∧ decodeTableWord 16 0x3800 = some .countMalformed ∧ decodeTableWord 32 0x00000801 = none := by decide

/-! ## One step per instruction, with the values of spec/95 -/

/-- A field of the next state; nothing where the machine stops. -/
def after {α : Type} (o : Host.Outcome State Fault Refusal) (f : State → α) : Option α :=
  match o with
  | .next t => some (f t)
  | .fault _ => none
  | .refused _ => none

/-- The CU in a fresh manual session of `n` bits with robustness `r`, IN_LEN set and the bytes `inp` in the IN window. -/
def cuSession (n r : Nat) (inp : List Byte) : Cu :=
  { cInitSession { Cu.reset with cfgF := BitVec.ofNat 32 n, cfgR := BitVec.ofNat 32 r } with
    inLen := BitVec.ofNat 32 ((n + 7) / 8), win := writeBytes [] 0x3000 inp }

/-- The DU in a fresh session of `n` bits with a stream of these bytes, the reader at `pos`. -/
def duSession (n pos : Nat) (stream : List Byte) : Du :=
  { dInitSession { Du.reset with cfgF := BitVec.ofNat 32 n } with
    numBits := BitVec.ofNat 32 (8 * stream.length), bitPos := BitVec.ofNat 32 pos, win := writeBytes [] 0x10000 stream }

/-- A machine with both sessions of `n` bits and the vector operands `a` and `b`. -/
def machine (n : Nat) (a b : BitSeq) : State :=
  { State.reset with
    cu := cuSession n 0 [], du := duSession n 0 [0xA5, 0x3C], dp := { Datapath.reset with opA := a, opB := b } }

/-- The operands of spec/95 section 2.2. -/
def alu : State := machine 13 (bin 13 0b1011001110001) (bin 13 0b0110101011100)

/-- What the bit_vector_alu leaves in its vector result. -/
def vec (o : Host.Outcome State Fault Refusal) : Option BitSeq := after o fun t => t.dp.resVec

theorem test_bvXor : vec (exec .bvXor alu) = some (bin 13 0b1101100101101) := by decide
theorem test_bvOr : vec (exec .bvOr alu) = some (bin 13 0b1111101111101) := by decide
theorem test_bvAnd : vec (exec .bvAnd alu) = some (bin 13 0b0010001010000) := by decide
theorem test_bvNot : vec (exec .bvNot alu) = some (bin 13 0b0100110001110) := by decide
theorem test_bvShl1 : vec (exec .bvShl1 alu) = some (bin 13 0b0110011100010) := by decide
theorem test_bvRev : vec (exec .bvRev alu) = some (bin 13 0b1000111001101) := by decide
theorem test_bvZero : vec (exec .bvZero alu) = some (bin 13 0) := by decide
theorem test_bvPopcnt : after (exec .bvPopcnt alu) (fun t => t.dp.resNum) = some 7 := by decide
theorem test_bvPack : after (exec .bvPack alu) (fun t => t.dp.resBytes) = some [0xB3, 0x88] := by decide

theorem test_bvUnpack :
    vec (exec .bvUnpack { alu with dp := { alu.dp with opBytes := [0xB3, 0x8F] } }) = some alu.dp.opA := by decide

theorem test_bvGet :
    after (exec .bvGet { alu with dp := { alu.dp with opIndex := 12 } }) (fun t => t.dp.resBit) = some true
      ∧ after (exec .bvGet { alu with dp := { alu.dp with opIndex := 13 } }) (fun t => t.dp.resBit) = some false := by decide

theorem test_bvSet :
    vec (exec .bvSet { alu with dp := { alu.dp with opIndex := 1, opBit := true } }) = some (bin 13 0b1111001110001)
      ∧ vec (exec .bvSet { alu with dp := { alu.dp with opIndex := 13, opBit := true } }) = some alu.dp.opA := by decide

/-- `F = 1` (spec/95 section 2.2, corner cases). -/
theorem test_bvShl1_one_bit : vec (exec .bvShl1 (machine 1 [true] [true])) = some [false] := by decide

/-- A machine whose output buffer holds these bits. -/
def buffer (bits : BitSeq) (d : Datapath) : State :=
  { machine 8 [] [] with cu := { cuSession 8 0 [] with obuf := bits }, dp := d }

/-- What an operation leaves in the output buffer. -/
def obuf (o : Host.Outcome State Fault Refusal) : Option BitSeq := after o fun t => t.cu.obuf

theorem test_bbClear : obuf (exec .bbClear (buffer [true] Datapath.reset)) = some [] := by decide

theorem test_bbPutbit :
    obuf (exec .bbPutbit (buffer [] { Datapath.reset with opBit := true })) = some [true] := by decide

theorem test_bbPutbit_overflow :
    after (exec .bbPutbit { machine 1 [] [] with cu := { cuSession 1 0 [] with obuf := bin 48 0 } })
      (fun t => (t.cu.st.err, t.cu.obuf.length, t.cu.st.fault)) = some (.overflow, 48, true) := by decide

theorem test_bbPutval :
    obuf (exec .bbPutval (buffer (bin 4 0b1101) { Datapath.reset with opVal := 0xABCDE, opWidth := 20 })) =
      some (bin 24 0xDABCDE) := by decide

theorem test_bbPutvec :
    obuf (exec .bbPutvec (buffer [] { Datapath.reset with opA := bin 8 0xA5 })) = some (bin 8 0xA5) := by decide

theorem test_bbTobytes :
    after (exec .bbTobytes (buffer (bin 4 0b1011) Datapath.reset)) (fun t => t.dp.resBytes) = some [0xB0] := by decide

/-- A machine whose stream is A5 3C and whose reader is at `pos`. -/
def reader (pos : Nat) (d : Datapath) : State :=
  { machine 8 [] [] with du := duSession 8 pos [0xA5, 0x3C], dp := d }

theorem test_brGetbit :
    after (exec .brGetbit (reader 2 Datapath.reset)) (fun t => (t.dp.resBit, t.du.bitPos)) = some (true, 3) := by decide

theorem test_brGetbit_underflow :
    after (exec .brGetbit (reader 16 Datapath.reset)) (fun t => (t.du.st.err, t.du.bitPos)) = some (.underflow, 16) := by
  decide

theorem test_brGetbits :
    after (exec .brGetbits (reader 1 { Datapath.reset with opWidth := 4 })) (fun t => (t.dp.resNum, t.du.bitPos)) =
      some (4, 5) := by decide

theorem test_brGetbits_underflow :
    after (exec .brGetbits (reader 14 { Datapath.reset with opWidth := 4 })) (fun t => (t.du.st.err, t.du.bitPos)) =
      some (.underflow, 14) := by decide

theorem test_brAlign :
    after (exec .brAlign (reader 5 Datapath.reset)) (fun t => t.du.bitPos) = some 8
      ∧ after (exec .brAlign (reader 16 Datapath.reset)) (fun t => t.du.bitPos) = some 16 := by decide

theorem test_brRemain : after (exec .brRemain (reader 5 Datapath.reset)) (fun t => t.dp.resNum) = some 11 := by decide

/-- CNT.ENC (spec/95 section 2.4). -/
theorem test_cntEnc :
    [0, 1, 33, 34, 65, 66, 65535].map (fun a => obuf (exec .cntEnc (buffer [] { Datapath.reset with opCount := a }))) =
      [some (bin 2 0b10), some (bin 1 0), some (bin 8 0b11011111), some (bin 9 0b111100000), some (bin 9 0b111111111),
        some (bin 11 0b11101000000), some (bin 29 0b11100000000001111111111111101)] := by decide

/-- CNT.DEC: E0 08 00 is '111', nine zeros and a one; E0 00 is '111' and thirteen zeros (R205). -/
theorem test_cntDec :
    after (exec .cntDec { reader 0 Datapath.reset with du := duSession 8 0 [0xE0, 0x07, 0xFF, 0xF8] })
        (fun t => (t.dp.resNum, t.du.bitPos)) = some (65537, 29)
      ∧ after (exec .cntDec { reader 0 Datapath.reset with du := duSession 8 0 [0xE0, 0x00] })
        (fun t => (t.du.st.err, t.du.bitPos)) = some (.malformed, 0) := by decide

/-- A micro-operation on the CU's buffer with the operands a and b of F = 8 bits. -/
def operands (a b : Nat) : State := machine 8 (bin 8 a) (bin 8 b)

theorem test_rleEnc : obuf (exec .rleEnc (operands 0b01000010 0)) = some (bin 18 0b110000001100001110) := by decide

theorem test_rleDec :
    vec (exec .rleDec { operands 0 0 with du := duSession 8 0 [0xC0, 0xC3, 0x80] }) = some (bin 8 0b01000010) := by decide

/-- '11000111' is the distance 9, more than F = 8. -/
theorem test_rleDec_malformed :
    after (exec .rleDec { operands 0 0 with du := duSession 8 0 [0xC7] }) (fun t => t.du.st.err) = some .malformed := by
  decide

theorem test_beRev : obuf (exec .beRev (operands 0b10110011 0b01001010)) = some (bin 3 0b100) := by decide
theorem test_beFwd : obuf (exec .beFwd (operands 0b10110011 0b01001010)) = some (bin 3 0b001) := by decide

theorem test_biRev :
    after (exec .biRev { operands 0 0b01001010 with du := duSession 8 0 [0x80] }) (fun t => (t.dp.opA, t.du.bitPos)) =
      some (bin 8 0b00000010, 3) := by decide

theorem test_biFwd :
    after (exec .biFwd { operands 0 0b01001010 with du := duSession 8 0 [0x20] }) (fun t => (t.dp.opA, t.du.bitPos)) =
      some (bin 8 0b00000010, 3) := by decide

/-- The second and third rows of spec/95 section 2.7 (F = 8, t = 1). -/
def maskRow (p : Bool) : State :=
  { machine 8 [] [] with
    cu := { cuSession 8 0 [] with
      t := 1, build := bin 8 0b00000110, mask := bin 8 0b00001111, prevMask := bin 8 0b00001111
      prevInput := bin 8 0b10110000
      tmp := { CuTemps.reset with inp := bin 8 0b11110000, buildPrev := bin 8 0b00000110, p := p } } }

theorem test_muBuild :
    after (exec .muBuild (maskRow false)) (fun t => t.cu.build) = some (bin 8 0b01000110)
      ∧ after (exec .muBuild (maskRow true)) (fun t => (t.cu.build, t.cu.tmp.buildPrev)) =
        some (bin 8 0, bin 8 0b00000110) := by decide

theorem test_muMask :
    after (exec .muMask (maskRow false)) (fun t => t.cu.mask) = some (bin 8 0b01001111)
      ∧ after (exec .muMask (maskRow true)) (fun t => t.cu.mask) = some (bin 8 0b01000110) := by decide

/-- D of the third row: '01000110' ^ '00001111'. -/
theorem test_muChange :
    after (exec .muChange { maskRow true with cu := { (maskRow true).cu with mask := bin 8 0b01000110 } })
      (fun t => t.cu.tmp.change) = some (bin 8 0b01001001) := by decide

/-- Program 3 before packet 7 emits (spec/95 section 2.8): D_6 = D_7 = '00000001', D_5 = '00000010', D_4 = 0, R = 2. -/
def history : State :=
  { machine 8 [] [] with
    cu := { cuSession 8 2 [] with
      t := 7, hidx := 7, fidx := 7
      hist := ((((Vector.replicate 16 (bin 8 0)).set 3 (bin 8 1)).set 5 (bin 8 2)).set 6 (bin 8 1)).set 7 (bin 8 1)
      fhist := (Vector.replicate 16 false).set 6 true
      tmp := { CuTemps.reset with change := bin 8 1, p := true, veff := 3 } } }

theorem test_hwPush :
    after (exec .hwPush { history with cu := { history.cu with hidx := 8 } }) (fun t => (t.cu.hist[8], t.cu.hist[7], t.cu.hidx)) =
      some (bin 8 1, bin 8 1, 8) := by decide

theorem test_hwXwin : after (exec .hwXwin history) (fun t => t.cu.tmp.window) = some (bin 8 0b00000011) := by decide
theorem test_hwVeff : after (exec .hwVeff history) (fun t => t.cu.tmp.veff) = some 3 := by decide

theorem test_hwCt :
    after (exec .hwCt history) (fun t => t.cu.tmp.ct) = some true
      ∧ after (exec .hwCt { history with cu := { history.cu with tmp := { history.cu.tmp with p := false } } })
        (fun t => t.cu.tmp.ct) = some false := by decide

theorem test_hwFpush :
    after (exec .hwFpush { history with cu := { history.cu with fidx := 8 } }) (fun t => (t.cu.fhist[8], t.cu.fhist[7])) =
      some (true, false) := by decide

/-- The schedule of spec/95 section 2.9 with limits (3, 2, 4) and R = 1 at t = 4: the counters 1, 2, 2 fire p alone. -/
theorem test_apNext :
    after (exec .apNext { machine 8 [] [] with cu := { cuSession 8 1 [] with
        t := 4, ptL := 3, ftL := 2, rtL := 4, ptCnt := 1, ftCnt := 2, rtCnt := 2 } })
      (fun t => (t.cu.tmp.p, t.cu.tmp.f, t.cu.tmp.r, t.cu.ptCnt, t.cu.ftCnt, t.cu.rtCnt)) =
      some (true, false, false, 3, 1, 1) := by decide

/-- The configurations of spec/95 section 1.3. -/
theorem test_cInit :
    [(1, 0), (65535, 7), (0, 0), (65536, 0), (1, 8)].map (fun (f, r) =>
        (cInitOk { Cu.reset with cfgF := f, cfgR := r } : Bool)) = [true, true, false, false, false]
      ∧ after (exec .cInit State.reset) (fun t => t.cu.statusWord) = some 0x010 := by decide

theorem test_cInit_session :
    after (exec .cInit { State.reset with cu := { Cu.reset with
        cfgF := 8, cfgR := 1, cfgPt := 3, cfgFt := 2, cfgRt := 4, win := [(0x1000, 0x0F)] } })
      (fun t => (t.cu.statusWord, t.cu.mask, t.cu.ptCnt)) = some (0x102, bin 8 0x0F, 3) := by decide

/-- Program 1, packet 0: 27 bits, 85 B8 D4 A0. -/
theorem test_cPkt :
    after (exec (.cPkt false true true) { State.reset with cu := cuSession 8 1 [0xA5] })
      (fun t => (t.cu.outBits, readBytes t.cu.win 0x10000 5, t.cu.t)) = some (27, [0x85, 0xB8, 0xD4, 0xA0, 0], 1) := by
  decide

/-- A packet command after reset: NOT_READY, STATUS 0x040. -/
theorem test_cPkt_notReady : after (exec (.cPkt false false false) State.reset) (fun t => t.cu.statusWord) = some 0x040 := by
  decide

theorem test_dInit :
    after (exec .dInit { State.reset with du := { Du.reset with cfgF := 8, cfgR := 1, bitPos := 5 } })
      (fun t => (t.du.statusWord, t.du.bitPos)) = some (0x002, 5) := by decide

theorem test_dLoad :
    after (exec .dLoad { State.reset with du := { Du.reset with streamLen := 26 } }) (fun t => (t.du.numBits, t.du.bitPos)) =
        some (208, 0)
      ∧ after (exec .dLoad { State.reset with du := { Du.reset with streamLen := 393217, bitPos := 3 } })
        (fun t => (t.du.st.err, t.du.bitPos)) = some (.invalidArgument, 3) := by decide

theorem test_dAlign :
    after (exec .dAlign { State.reset with du := { Du.reset with bitPos := 27, numBits := 32 } }) (fun t => t.du.bitPos) =
      some 32 := by decide

/-- Program 1's first packet read back, and the malformed stream C7 80 (spec/95 sections 2.9 and 2.10). -/
theorem test_dPkt :
    after (exec .dPkt { State.reset with du := duSession 8 0 [0x85, 0xB8, 0xD4, 0xA0] })
        (fun t => (t.du.st.err, readByte t.du.win 0x3000, t.du.bitPos)) = some (.ok, 0xA5, 32)
      ∧ after (exec .dPkt { State.reset with du := duSession 8 0 [0xC7, 0x80] })
        (fun t => (t.du.statusWord, t.du.bitPos)) = some (0x054, 0) := by decide

/-- Each COUNT form of R115 read at the cursor: its value and the bits it takes. -/
theorem test_countForms :
    [Instr.countOne, .countTerm, .countShort 31, .countLongE6 0, .countLongE8 1, .countLongE10 0, .countLongE12 0,
        .countLongE14 0].map (fun i => after (exec i { reader 0 Datapath.reset with du := duSession 8 0 [0, 0, 0, 0] })
          fun t => (t.dp.resNum, t.du.bitPos)) =
      [some (1, 1), some (0, 2), some (33, 8), some (34, 9), some (67, 11), some (130, 13), some (258, 15),
        some (514, 17)] := by decide

theorem test_countForms_long :
    [Instr.countLongE16 0, .countLongE18 0, .countLongE20 0, .countLongE22 0, .countLongE24 0, .countLongE26 32765].map
        (fun i => after (exec i { reader 0 Datapath.reset with du := duSession 8 0 [0, 0, 0, 0] })
          fun t => (t.dp.resNum, t.du.bitPos)) =
      [some (1026, 19), some (2050, 21), some (4098, 23), some (8194, 25), some (16386, 27), some (65535, 29)] := by decide

theorem test_countMalformed :
    after (exec .countMalformed (reader 0 Datapath.reset)) (fun t => t.du.st.err) = some .malformed
      ∧ after (exec .countMalformed (reader 3 Datapath.reset)) (fun t => t.du.st.err) = some .underflow := by decide

/-! ## The host interface -/

/-- Program 1's first accesses: CFG_F, then a C_INIT, with STATUS BUSY in between. -/
theorem test_hostWrite :
    after (hostAct State.reset (.write .word 0x008 8)) (fun t => t.cu.cfgF) = some 8
      ∧ after (hostAct State.reset (.write .word 0 1)) (fun t => t.cu.statusWord) = some 0x001
      ∧ after (hostAct State.reset (.write .word 0 0x801)) (fun t => t.cu.statusWord) = some 0x060 := by decide

theorem test_hostReset :
    after (hostAct { State.reset with cu := cuSession 8 0 [0xA5] } .reset) (fun t => (t.cu.st, t.cu.win)) =
      some (Status.reset, []) := by decide

theorem test_outsideRegions : hostAct State.reset (.read .word 0x100000) = .fault .outsideRegions := rfl

/-- The next step runs the instruction that `withFetchWord` places. -/
theorem test_withFetchWord :
    after (step (State.reset.withFetchWord 32 0x11)) (fun t => (t.du.st.err, t.du.st.busy)) = some (.invalidArgument, false)
      ∧ after (step (State.reset.withFetchWord 8 0x49)) (fun t => t.dp.resVec) = some [false]
      ∧ after (step (State.reset.withFetchWord 32 0x1C00FFFD)) (fun t => (t.dp.resNum, t.du.bitPos)) = some (65535, 29) := by
  decide

/-! ## Witnesses: for each statement with hypotheses, states and operands that meet them, at the boundaries of its clauses -/

/-- The state after an outcome that goes on. -/
def next (o : Host.Outcome State Fault Refusal) : State :=
  match o with
  | .next t => t
  | .fault _ => State.reset
  | .refused _ => State.reset

/-- A session of F = 8, R = 1 in both units: the CU before program 1's first packet, the DU before its bytes. -/
def session : State :=
  { State.reset with cu := cuSession 8 1 [0xA5], du := duSession 8 0 [0x85, 0xB8, 0xD4, 0xA0] }

/-- The session after packet 0 in the CU and in the DU, with the bytes of packet 1 in the stream. -/
def session1 : State :=
  { State.reset with
    cu := (next (exec (.cPkt false true true) session)).cu
    du := { (next (exec .dPkt session)).du with
      bitPos := 0, win := writeBytes [] 0x10000 [0x85, 0xB8, 0xD4, 0xA0] } }

/-- Both units BUSY with these command words. -/
def busy (c d : Word) : State :=
  { session with
    cu := { session.cu with st := { session.cu.st with cmd := some c } }
    du := { session.du with st := { session.du.st with cmd := some d } } }

theorem cuSession_inv : (cuSession 8 1 [0xA5]).Inv :=
  ⟨by decide, by decide, by decide, by decide, by decide, by decide, by decide, by decide, by decide, by decide, by decide⟩

theorem duSession_inv : (duSession 8 0 [0x85, 0xB8, 0xD4, 0xA0]).Inv 393216 :=
  ⟨by decide, by decide, by decide, by decide, by decide, by decide, by decide, by decide, by decide⟩

theorem session1_cu_inv : session1.cu.Inv :=
  ⟨by decide, by decide, by decide, by decide, by decide, by decide, by decide, by decide, by decide, by decide, by decide⟩

theorem session1_du_inv : session1.du.Inv 393216 :=
  ⟨by decide, by decide, by decide, by decide, by decide, by decide, by decide, by decide, by decide⟩

theorem session_inv : session.Inv := ⟨by decide, cuSession_inv, duSession_inv⟩

theorem witness_ResetFromAnyState : (busy 1 0x11).hardwareReset ∈ [State.reset, (busy 1 0x11).hardwareReset] := by simp

theorem witness_DecodeOfEncode : wellFormed (.countLongE26 32767) = true ∧ wellFormed (.cPkt true true true) = true := by
  decide

theorem witness_CountWordsSelfDelimiting :
    wellFormed (.countLongE26 32767) = true ∧ Instr.format (.countLongE26 32767) = .wire
      ∧ Instr.format .countMalformed = .wire := by decide

theorem witness_DecodedIsEncodable :
    decode (.command .cu 0x702) = .ok (.cPkt true true true) ∧ decode (.uop 0x7D) = .ok .apNext
      ∧ decode (.wire [true, false, true]) = .ok .countTerm := by decide

theorem witness_StepRunsDecodedInstruction :
    ((busy 0x702 0x14).micro = none ∧ (busy 0x702 0x14).nextTurn = .unit .cu ∧ (busy 0x702 0x14).pending .cu = some 0x702
        ∧ decode (.command .cu 0x702) = .ok (.cPkt true true true))
      ∧ ({ session with micro := some (.uop 0x40) }.micro = some (.uop 0x40) ∧ decode (.uop 0x40) = .ok .bvXor)
      ∧ ({ session with micro := some .wire }.micro = some .wire
        ∧ decode (.wire (unreadBits session.du)) = .ok .countTerm)
      ∧ (session.micro = none ∧ session.nextTurn = .host ∧ session.host = []
        ∧ { session with host := [.reset] }.host = .reset :: [])
      ∧ ({ session with turns := [.unit .du, .host] }.nextTurn = .unit .du
        ∧ { session with turns := [.unit .du, .host] }.pending .du = none ∧ (busy 1 0x11).turns = []) := by decide

theorem witness_CmdWriteIssuesOrRejects :
    (busy 1 0x11).cu.st.busy = true ∧ session.cu.st.busy = false ∧ (busy 1 0x11).du.st.busy = true
      ∧ session.du.st.busy = false
      ∧ (∀ w ∈ [(1 : Word), 2, 0x702], w.toNat < 2048 ∧ (w.toNat % 256 = 2 ∨ w.toNat = 1))
      ∧ (∀ w ∈ [(0 : Word), 3, 0x101, 0x802], ¬(w.toNat < 2048 ∧ (w.toNat % 256 = 2 ∨ w.toNat = 1)))
      ∧ (∀ w ∈ [(0x11 : Word), 0x14], 0x11 ≤ w.toNat ∧ w.toNat ≤ 0x14)
      ∧ (∀ w ∈ [(0x10 : Word), 0x15], ¬(0x11 ≤ w.toNat ∧ w.toNat ≤ 0x14)) :=
  ⟨by decide, by decide, by decide, by decide, by simp, by simp, by simp, by simp⟩

theorem witness_CommandsComplete :
    (busy 0x802 0x13).micro = none ∧ (busy 0x802 0x13).nextTurn = .unit .cu
      ∧ ((busy 0x802 0x13).pending .cu).isSome = true := by decide

theorem witness_BitwiseOperationsPointwise :
    alu.dp.opA.length = alu.aluLength ∧ alu.dp.opB.length = alu.aluLength ∧ 12 < alu.aluLength := by decide

theorem witness_NotShiftReversePointwise : alu.dp.opA.length = alu.aluLength ∧ 12 < alu.aluLength := by decide

theorem witness_PopcountAndZero : alu.dp.opA.length = alu.aluLength := by decide

/-- An index within the vector, and the first past its end. -/
theorem witness_GetAndSetBit :
    alu.dp.opA.length = alu.aluLength ∧ alu.dp.opIndex < alu.aluLength
      ∧ { alu.dp with opIndex := 13 }.opA.length = alu.aluLength ∧ ¬{ alu.dp with opIndex := 13 }.opIndex < alu.aluLength := by
  decide

theorem witness_UnpackAndPackBytes :
    { alu with dp := { alu.dp with opBytes := [0xB3, 0x8F] } }.dp.opBytes.length = (alu.aluLength + 7) / 8
      ∧ alu.dp.opA.length = alu.aluLength := by decide

/-- One bit too many or too few in an operand. -/
theorem witness_UnusableOperandsRefused :
    (machine 8 (bin 9 0) []).dp.opA.length ≠ (machine 8 (bin 9 0) []).aluLength
      ∧ (machine 8 [] (bin 9 0)).dp.opB.length ≠ (machine 8 [] (bin 9 0)).aluLength
      ∧ (machine 9 [] []).dp.opBytes.length ≠ ((machine 9 [] []).aluLength + 7) / 8
      ∧ (machine 8 (bin 9 0) []).dp.opA.length ≠ (machine 8 (bin 9 0) []).cu.fs.toNat
      ∧ (machine 8 (bin 9 0) []).dp.opA.length ≠ (machine 8 (bin 9 0) []).du.fs.toNat
      ∧ (machine 8 [] []).cu.tmp.inp.length ≠ (machine 8 [] []).cu.fs.toNat
      ∧ { (machine 8 [] []).cu with mask := [] }.mask.length ≠ (machine 8 [] []).cu.fs.toNat
      ∧ (machine 8 [] []).cu.tmp.change.length ≠ (machine 8 [] []).cu.fs.toNat
      ∧ (∃ k : Fin 16, ({ (machine 8 [] []).cu with fs := 9 }.hist.get k).length ≠ 9) :=
  ⟨by decide, by decide, by decide, by decide, by decide, by decide, by decide, by decide, ⟨0, by decide⟩⟩

theorem witness_BufferOperations :
    (buffer [] { Datapath.reset with opA := bin 8 0xA5 }).dp.opA.length =
        (buffer [] { Datapath.reset with opA := bin 8 0xA5 }).cu.fs.toNat := by decide

theorem witness_BufferToBytes : 0 < ((buffer [true] Datapath.reset).cu.obuf.length + 7) / 8 := by decide

theorem witness_ReaderAlignAndRemain :
    (reader 16 Datapath.reset).du.numBits.toNat % 8 = 0
      ∧ (reader 16 Datapath.reset).du.bitPos.toNat ≤ (reader 16 Datapath.reset).du.numBits.toNat := by decide

theorem witness_CountEncoderAppends :
    { Datapath.reset with opCount := 0 }.opCount.toNat = 0 ∧ { Datapath.reset with opCount := 1 }.opCount.toNat = 1
      ∧ 2 ≤ { Datapath.reset with opCount := 33 }.opCount.toNat ∧ { Datapath.reset with opCount := 33 }.opCount.toNat ≤ 33
      ∧ 34 ≤ { Datapath.reset with opCount := 65535 }.opCount.toNat
      ∧ 2 ^ (6 - 1) ≤ 34 - 2 ∧ 34 - 2 < 2 ^ 6 ∧ 2 ^ (16 - 1) ≤ 65535 - 2 ∧ 65535 - 2 < 2 ^ 16 := by decide

theorem witness_CountRoundTrip : 65535 ≤ 65535 ∧ cntDec (cntBits 65535 ++ [true]) = .ok (65535, [true]) := by decide

theorem witness_CountFormsDeliverValues :
    (Instr.countLongE26 32767, 29, 32768 + 32767 + 2) = (Instr.countLongE26 32767, 29, 65537)
      ∧ 29 ≤ session.du.numBits.toNat - session.du.bitPos.toNat
      ∧ 1 ≤ (reader 15 Datapath.reset).du.numBits.toNat - (reader 15 Datapath.reset).du.bitPos.toNat := by decide

theorem witness_CountDecoderFollowsForms :
    wellFormed (.countShort 0) = true ∧ Instr.format (.countShort 0) = .wire
      ∧ unreadBits (duSession 8 0 [0xC0]) = wireBits (.countShort 0) ++ []
      ∧ unreadBits (duSession 8 0 [0xE0, 0x00]) = [true, true, true] ++ List.replicate 11 false ++ [false, false]
      ∧ wireBits (.countLongE6 0) = unreadBits (duSession 8 0 [0xF0]) ++ [false] := by decide

theorem witness_RunLengthEncoderAppends :
    (operands 0b10100101 0).dp.opA.length = (operands 0b10100101 0).cu.fs.toNat
      ∧ [7, 5, 2, 0] = ((List.range (operands 0b10100101 0).cu.fs.toNat).filter fun i =>
        (operands 0b10100101 0).dp.opA.getD i false).reverse := by decide

theorem witness_RunLengthRoundTrip :
    1 ≤ [true].length ∧ [true].length ≤ 65535 ∧ rleDec 1 (rleBits [true] ++ [true]) = .ok ([true], [true]) := by decide

/-- Distances 1 and 7, whose sum is F = 8; the distance 9; a malformed code word after the distance 1; a code word of the
distance 2 that is cut after its second bit, after six distances of 1; the code values 65536 and 65537. -/
theorem witness_RunLengthDecoderPositions :
    (∀ d ∈ [1, 7], 1 ≤ d ∧ d ≤ 65537) ∧ [1, 7].sum ≤ (duSession 8 0 [0x62, 0xC0]).fs.toNat
      ∧ unreadBits (duSession 8 0 [0x62, 0xC0]) = ([1, 7].map cntBits).flatten ++ [true, false] ++ bin 5 0
      ∧ (duSession 8 0 [0xC7]).fs.toNat < [9].sum
      ∧ unreadBits (duSession 8 0 [0xC7]) = ([9].map cntBits).flatten ++ []
      ∧ unreadBits (duSession 8 0 [0x70, 0x00]) =
        ([1].map cntBits).flatten ++ ([true, true, true] ++ List.replicate 11 false ++ [false])
      ∧ [1, 1, 1, 1, 1, 1].sum ≤ (duSession 8 0 [0x03]).fs.toNat
      ∧ wireBits (.countShort 0) = [true, true] ++ [false, false, false, false, false, false]
      ∧ unreadBits (duSession 8 0 [0x03]) = ([1, 1, 1, 1, 1, 1].map cntBits).flatten ++ [true, true]
      ∧ (duSession 8 0 [0xE0, 0x07, 0xFF, 0xF0]).fs.toNat < [65536].sum
      ∧ unreadBits (duSession 8 0 [0xE0, 0x07, 0xFF, 0xF0]) = ([65536].map cntBits).flatten ++ [false, false, false]
      ∧ unreadBits (duSession 8 0 [0xE0, 0x07, 0xFF, 0xF8]) = ([65537].map cntBits).flatten ++ [false, false, false] := by
  decide

theorem witness_ExtractionAppendsMaskedBits :
    (operands 1 0b01001010).dp.opA.length = (operands 1 0b01001010).cu.fs.toNat
      ∧ (operands 1 0b01001010).dp.opB.length = (operands 1 0b01001010).cu.fs.toNat
      ∧ [1, 4, 6] = (List.range (operands 1 0b01001010).cu.fs.toNat).filter fun i =>
        (operands 1 0b01001010).dp.opB.getD i false := by decide

theorem witness_InsertionReadsMaskedBits :
    (operands 1 0b01001010).dp.opA.length = (operands 1 0b01001010).du.fs.toNat
      ∧ (operands 1 0b01001010).dp.opB.length = (operands 1 0b01001010).du.fs.toNat
      ∧ [1, 4, 6].length ≤ (unreadBits (reader 13 Datapath.reset).du).length
      ∧ (unreadBits (reader 14 Datapath.reset).du).length < [1, 4, 6].length := by decide

theorem witness_MaskTransformsPointwise :
    (maskRow true).cu.mask.length = (maskRow true).cu.fs.toNat
      ∧ (maskRow true).cu.prevMask.length = (maskRow true).cu.fs.toNat
      ∧ (maskRow true).cu.build.length = (maskRow true).cu.fs.toNat
      ∧ (maskRow true).cu.prevInput.length = (maskRow true).cu.fs.toNat
      ∧ (maskRow true).cu.tmp.inp.length = (maskRow true).cu.fs.toNat
      ∧ (maskRow true).cu.tmp.buildPrev.length = (maskRow true).cu.fs.toNat := by decide

theorem witness_RingPushesOneSlot : history.cu.tmp.change.length = history.cu.fs.toNat := by decide

theorem witness_RobustnessWindowIsOr : ∀ k : Fin 16, (history.cu.hist.get k).length = history.cu.fs.toNat := by decide

/-- With the predicate that its definition names; D_4 is empty, so V is more than R. -/
theorem witness_EffectiveRobustnessCounts :
    (∀ k : Fin 16, (history.cu.hist.get k).length = history.cu.fs.toNat) ∧ history.cu.rs.toNat < history.cu.t.toNat
      ∧ ∃ empty : Nat → Prop, ∀ i, empty i ↔ (i ≤ history.cu.t.toNat ∨ history.params.preHistoryZero = true)
        ∧ ∀ j, (history.cu.hist.get (Fin.ofNat 16 (history.cu.hidx.toNat + 16 - i))).getD j false = false :=
  ⟨by decide, by decide, _, fun _ => Iff.rfl⟩

theorem witness_CountdownFiresEveryLimit : (1 : Word) ≠ 0 ∧ (0xFFFFFFFF : Word) ≠ 0 := by decide

/-- The boundaries of R291: F of 1 and 65535 with R = 7 and no limit or every limit; F of 0 and 65536, R = 8, one limit. -/
theorem witness_CInitBeginsSession :
    (∀ u ∈ [{ Cu.reset with cfgF := 1 }, { Cu.reset with cfgF := 65535, cfgR := 7, cfgPt := 1, cfgFt := 1, cfgRt := 1 }],
        1 ≤ u.cfgF.toNat ∧ u.cfgF.toNat ≤ 65535 ∧ u.cfgR.toNat ≤ 7
          ∧ ((u.cfgPt = 0 ∧ u.cfgFt = 0 ∧ u.cfgRt = 0) ∨ (u.cfgPt ≠ 0 ∧ u.cfgFt ≠ 0 ∧ u.cfgRt ≠ 0)))
      ∧ (∀ u ∈ [Cu.reset, { Cu.reset with cfgF := 65536 }, { Cu.reset with cfgF := 1, cfgR := 8 },
          { Cu.reset with cfgF := 1, cfgPt := 3 }],
        ¬(1 ≤ u.cfgF.toNat ∧ u.cfgF.toNat ≤ 65535 ∧ u.cfgR.toNat ≤ 7
          ∧ ((u.cfgPt = 0 ∧ u.cfgFt = 0 ∧ u.cfgRt = 0) ∨ (u.cfgPt ≠ 0 ∧ u.cfgFt ≠ 0 ∧ u.cfgRt ≠ 0)))) := by decide

theorem witness_DInitBeginsSession :
    (∀ u ∈ [{ Du.reset with cfgF := 1 }, { Du.reset with cfgF := 65535, cfgR := 7 }],
        1 ≤ u.cfgF.toNat ∧ u.cfgF.toNat ≤ 65535 ∧ u.cfgR.toNat ≤ 7)
      ∧ (∀ u ∈ [Du.reset, { Du.reset with cfgF := 65536 }, { Du.reset with cfgF := 1, cfgR := 8 }],
        ¬(1 ≤ u.cfgF.toNat ∧ u.cfgF.toNat ≤ 65535 ∧ u.cfgR.toNat ≤ 7)) := by decide

theorem witness_CompressionNeverOverflows :
    session.cu.Inv ∧ session.cu.st.ready = true ∧ session.cu.inLen.toNat = (session.cu.fs.toNat + 7) / 8 :=
  ⟨cuSession_inv, by decide, by decide⟩

theorem witness_CompressedPacketInOutWindow :
    exec (.cPkt false true true) session = .next (next (exec (.cPkt false true true) session))
      ∧ (next (exec (.cPkt false true true) session)).cu.st.err = .ok ∧ session.cu.st.ready = true
      ∧ session.cu.inLen.toNat = (session.cu.fs.toNat + 7) / 8 := ⟨rfl, by decide, by decide, by decide⟩

theorem witness_CompressionFrame :
    exec (.cPkt false true true) session = .next (next (exec (.cPkt false true true) session))
      ∧ session.cu.auto = false := ⟨rfl, by decide⟩

/-- A packet with the wrong IN_LEN in the CU, a stream that ends inside a packet in the DU. -/
theorem witness_PacketErrorsAreTransactional :
    session.cu.st.ready = true
      ∧ (next (exec (.cPkt false true true) { session with cu := { session.cu with inLen := 2 } })).cu.st.err ≠ .ok
      ∧ session.du.st.ready = true
      ∧ (next (exec .dPkt { session with du := { session.du with numBits := 8 } })).du.st.err ≠ .ok := by decide

theorem witness_PacketCommandsTurnedAway :
    State.reset.cu.st.ready = false ∧ State.reset.du.st.ready = false ∧ session.cu.st.ready = true
      ∧ { session.cu with inLen := 2 }.inLen.toNat ≠ (session.cu.fs.toNat + 7) / 8 := by decide

/-- Packet 0, and packet 1 with its new-mask flag set. -/
theorem witness_CompressionUpdatesSession :
    session.cu.Inv ∧ session.cu.t = 0 ∧ (next (exec (.cPkt false true true) session)).cu.st.err = .ok ∧ session1.cu.Inv
      ∧ session1.cu.t ≠ 0 ∧ session1.cu.st.ready = true
      ∧ session1.cu.inLen.toNat = (session1.cu.fs.toNat + 7) / 8
      ∧ (next (exec (.cPkt true false false) session1)).cu.st.err = .ok
      ∧ (∃ diff : Nat → Bool, ∀ i, diff i =
        ((next (exec (.cPkt true false false) session1)).cu.prevInput.getD i false ^^ session1.cu.prevInput.getD i false))
      ∧ ∃ old : Nat → Bool, ∀ i, old i = session1.cu.mask.getD i false :=
  ⟨cuSession_inv, by decide, by decide, session1_cu_inv, by decide, by decide, by decide, by decide, ⟨_, fun _ => rfl⟩,
    ⟨_, fun _ => rfl⟩⟩

theorem witness_ManualFlagsInPacketInfo :
    session.cu.st.ready = true ∧ session.cu.auto = false ∧ session.cu.inLen.toNat = (session.cu.fs.toNat + 7) / 8
      ∧ (next (exec (.cPkt true true false) session)).cu.st.err = .ok := by decide

/-- The session in automatic mode at index t, with R = 1. -/
def automatic (t : Nat) : State :=
  { session with cu := { session.cu with
      auto := true, ptL := 3, ftL := 2, rtL := 4, ptCnt := 3, ftCnt := 1, rtCnt := 4
      t := BitVec.ofNat 32 t, hidx := BitVec.ofNat 4 t, fidx := BitVec.ofNat 4 t } }

/-- The last forced packet, t = R, and the first of the counters, t = R + 1. -/
theorem witness_InitialisationPacketsForced :
    (∀ k ∈ [1, 2], (automatic k).cu.st.ready = true ∧ (automatic k).cu.auto = true
        ∧ (automatic k).cu.inLen.toNat = ((automatic k).cu.fs.toNat + 7) / 8
        ∧ (next (exec (.cPkt true false false) (automatic k))).cu.st.err = .ok)
      ∧ (automatic 1).cu.t.toNat ≤ (automatic 1).cu.rs.toNat ∧ (automatic 2).cu.rs.toNat < (automatic 2).cu.t.toNat
      ∧ (automatic 2).cu.ptCnt ≠ 0 ∧ (automatic 2).cu.ftCnt ≠ 0 ∧ (automatic 2).cu.rtCnt ≠ 0 := by decide

/-- Packet 0 of program 1: 27 bits, then the five padding bits. -/
theorem witness_DecompressionTracksCompression :
    session.cu.Inv ∧ session.cu.st.ready = true
      ∧ exec (.cPkt false true true) session = .next (next (exec (.cPkt false true true) session))
      ∧ (next (exec (.cPkt false true true) session)).cu.st.err = .ok
      ∧ session.cu.inLen.toNat = (session.cu.fs.toNat + 7) / 8 ∧ session.du.Inv session.params.streamCap
      ∧ session.du.st.ready = true ∧ session.du.fs = session.cu.fs ∧ session.cu.t = 0
      ∧ session.du.dmask = bin 8 0
      ∧ (next (exec (.cPkt false true true) session)).cu.pktInfo.getLsbD 10 = true
      ∧ unreadBits session.du = (next (exec (.cPkt false true true) session)).cu.obuf ++ bin 5 0 :=
  ⟨cuSession_inv, by decide, rfl, by decide, by decide, duSession_inv, by decide, by decide, by decide, by decide,
    by decide, by decide⟩

/-- Packet 1 of program 1, where t is not 0. -/
theorem witness_DecompressionTracksCompression_later :
    session1.cu.Inv ∧ session1.cu.st.ready = true ∧ (next (exec (.cPkt false true true) session1)).cu.st.err = .ok
      ∧ session1.cu.inLen.toNat = (session1.cu.fs.toNat + 7) / 8 ∧ session1.du.Inv session1.params.streamCap
      ∧ session1.du.st.ready = true ∧ session1.du.fs = session1.cu.fs ∧ session1.cu.t ≠ 0
      ∧ session1.du.dmask = session1.cu.mask ∧ session1.du.prevOutput = session1.cu.prevInput
      ∧ unreadBits session1.du = (next (exec (.cPkt false true true) session1)).cu.obuf ++ bin 5 0 :=
  ⟨session1_cu_inv, by decide, by decide, by decide, session1_du_inv, by decide, by decide, by decide, by decide,
    by decide, by decide⟩

theorem witness_DecompressionFrame :
    session.du.Inv session.params.streamCap ∧ exec .dPkt session = .next (next (exec .dPkt session))
      ∧ (next (exec .dPkt session)).du.st.err = .ok ∧ session.du.st.ready = true :=
  ⟨duSession_inv, rfl, by decide, by decide⟩

/-- Program 4's packet 3 (F = 16): a window of three bits, V = 1, e = 1, k = '111', c = 0, d = 1, two inserted bits. -/
def directed : State :=
  { State.reset with du := { duSession 16 0 [0xC3, 0x60, 0x43, 0xEE] with dmask := bin 16 0x00F1 } }

theorem witness_DecompressionFrame_directed :
    directed.du.Inv directed.params.streamCap ∧ directed.du.st.ready = true
      ∧ (bin 16 0x00B0).length = directed.du.fs.toNat ∧ 1 < 16
      ∧ [8, 10, 11] = (List.range directed.du.fs.toNat).filter (fun i => (bin 16 0x00B0).getD i false)
      ∧ (bin 3 7).length = [8, 10, 11].length ∧ (true = true → 0 < 1 ∧ [8, 10, 11] ≠ [])
      ∧ ∃ m pos em : Nat → Bool,
        (∀ i, pos i = (true && (bin 16 0x00B0).getD i false && (bin 3 7).getD ([8, 10, 11].idxOf i) false))
          ∧ (∀ i < directed.du.fs.toNat, m i =
            if (bin 16 0x00B0).getD i false = true then !pos i else directed.du.dmask.getD i false)
          ∧ (∀ i, em i = (m i || (false && pos i)))
          ∧ [9, 15] = (List.range directed.du.fs.toNat).filter em ∧ (bin 2 3).length = [9, 15].length
          ∧ unreadBits directed.du = (rleBits (bin 16 0x00B0) ++ bitsMsb 4 1 ++ ([true] ++ (bin 3 7 ++ [false]))
            ++ [true] ++ [] ++ bin 2 3) ++ [false] :=
  ⟨⟨by decide, by decide, by decide, by decide, by decide, by decide, by decide, by decide, by decide⟩, by decide,
    by decide, by decide, by decide, by decide, by decide,
    fun i => if (bin 16 0x00B0).getD i false = true then
        !(true && (bin 16 0x00B0).getD i false && (bin 3 7).getD ([8, 10, 11].idxOf i) false)
      else directed.du.dmask.getD i false, _, fun i => _ || (false && _),
    fun _ => rfl, fun _ _ => rfl, fun _ => rfl, by decide, by decide, by decide⟩

/-- Packet 0 of program 1: an empty window, d = 0, the mask's list and an uncompressed packet; 27 bits. -/
theorem witness_DecompressionFrame_uncompressed :
    session.du.Inv session.params.streamCap ∧ session.du.st.ready = true ∧ (bin 8 0).length = session.du.fs.toNat
      ∧ [] = (List.range session.du.fs.toNat).filter (fun i => (bin 8 0).getD i false)
      ∧ (∃ m pos em : Nat → Bool, (∀ i, pos i = (false && (bin 8 0).getD i false && ([] : BitSeq).getD ([].idxOf i) false))
        ∧ (∀ i < session.du.fs.toNat,
          m i = ((bin 8 0).getD i false ^^ (decide (i + 1 < session.du.fs.toNat) && m (i + 1))))
        ∧ (∀ i, em i = (m i || (false && pos i))) ∧ [] = (List.range session.du.fs.toNat).filter em)
      ∧ unreadBits session.du = (rleBits (bin 8 0) ++ bitsMsb 4 1 ++ [] ++ [false] ++ (([true] ++ rleBits (bin 8 0)) ++ [true])
        ++ (cntBits 8 ++ bin 8 0xA5)) ++ bin 5 0 :=
  ⟨duSession_inv, by decide, by decide, by decide, ⟨fun _ => false, _, fun i => false || (false && _), fun _ => rfl, by decide,
    fun _ => rfl, by decide⟩, by decide⟩

/-- The session with AUTO_ALIGN off: the packet ends at bit 27, and the stream is cut at 26 or at 0. -/
theorem witness_TruncatedPacketUnderflows :
    session.du.st.ready = true
      ∧ session.du.bitPos.toNat ≤ session.du.numBits.toNat
      ∧ (next (exec .dPkt { session with du := { session.du with autoAlign := false } })).du.st.err = .ok
      ∧ (next (exec .dPkt { session with du := { session.du with autoAlign := false } })).du.bitPos = 27
      ∧ session.du.bitPos.toNat ≤ (0 : Word).toNat ∧ (26 : Word).toNat < 27 :=
  ⟨by decide, by decide, by decide, by decide, by decide, by simp⟩

/-- With an empty window and V = 1: the distance 9 at F = 8 in the window's list, and in the mask's; a malformed COUNT(F). -/
theorem witness_TruncatedPacketUnderflows_malformed :
    (∃ bad : BitSeq → Prop, (∀ w, bad w ↔ ∃ (ds : List Nat) (y : BitSeq), (∀ d ∈ ds, 1 ≤ d ∧ d ≤ 65537)
        ∧ (8 < ds.sum ∧ w = (ds.map cntBits).flatten ++ y
          ∨ ds.sum ≤ 8 ∧ w = (ds.map cntBits).flatten ++ [true, true, true] ++ List.replicate 11 false ++ y))
        ∧ bad (bin 8 0xC7) ∧ bad (bin 15 0b011100000000000))
      ∧ (duSession 8 0 [0xC7]).st.ready = true ∧ (duSession 8 0 [0xC7]).fs = 8 ∧ (duSession 8 0 [0xC7]).dmask.length = 8
      ∧ (bin 8 0).length = 8 ∧ ([] : BitSeq).length = (bin 8 0).count true
      ∧ bin 7 0b1000010 = rleBits (bin 8 0) ++ bitsMsb 4 1 ++ [] ++ [false]
      ∧ unreadBits (duSession 8 0 [0xC7]) = bin 8 0xC7
      ∧ unreadBits (duSession 8 0 [0x85, 0xC7]) = bin 7 0b1000010 ++ [true] ++ bin 8 0xC7
      ∧ unreadBits (duSession 8 0 [0x84, 0xF0, 0x00]) = bin 7 0b1000010 ++ [false] ++ [true]
        ++ [true, true, true] ++ List.replicate 11 false ++ [false] :=
  ⟨⟨_, fun _ => Iff.rfl, ⟨[9], [], by decide, .inl ⟨by decide, by decide⟩⟩,
    ⟨[1], [], by decide, .inr ⟨by decide, by decide⟩⟩⟩, by decide, by decide, by decide, by decide, by decide, by decide,
    by decide, by decide, by decide⟩

theorem witness_EmptyPacketRepeatsOutput :
    (duSession 8 0 [0xBE]).st.ready = true ∧ (duSession 8 0 [0xBE]).dmask = bin 8 0
      ∧ unreadBits (duSession 8 0 [0xBE]) = [true, false] ++ bitsMsb 4 15 ++ [true] ++ [false] := by decide

theorem witness_EmptyPacketRepeatsOutput_inv : (duSession 8 0 [0xBE]).Inv 393216 :=
  ⟨by decide, by decide, by decide, by decide, by decide, by decide, by decide, by decide, by decide⟩

/-- A faulted session with a hazard, and one that is ready. -/
theorem witness_OnlyInitClearsFault :
    exec .dAlign { session with du := (session.du.raise .malformed) } =
        .next (next (exec .dAlign { session with du := (session.du.raise .malformed) }))
      ∧ (session.du.raise .malformed).st.fault = true ∧ session.cu.st.ready = true := ⟨rfl, by decide, by decide⟩

theorem witness_UnitsAreIndependent :
    { session with du := Du.reset }.params = session.params ∧ { session with du := Du.reset }.cu = session.cu
      ∧ { session with cu := Cu.reset }.du = session.du
      ∧ exec (.cPkt false true true) session = .next (next (exec (.cPkt false true true) session))
      ∧ Instr.format (.cPkt false true true) = .cmd .cu ∧ Instr.format .dPkt = .cmd .du :=
  ⟨rfl, rfl, rfl, rfl, rfl, rfl⟩

theorem witness_StepKeepsDataInvariant :
    (session.place (.command .cu 0x602)).Inv
      ∧ step (session.place (.command .cu 0x602)) = .next (next (step (session.place (.command .cu 0x602)))) :=
  ⟨⟨by decide, ⟨by decide, by decide, by decide, by decide, by decide, by decide, by decide, by decide, by decide,
    by decide, by decide⟩, duSession_inv⟩, rfl⟩

theorem witness_BusyUnitAccesses :
    (busy 2 0x13).cu.st.busy = true ∧ cuTarget .word 0x004 = .reg .status ∧ cuTarget .word 0x034 = .reg .pktInfo
      ∧ cuTarget .byte 0x01000 = .byte 0x01000 true ∧ cuTarget .byte 0x6FFFF = .byte 0x6FFFF false
      ∧ (busy 2 0x13).du.st.busy = true ∧ duTarget 393216 .word 0x004 = .reg .status
      ∧ duTarget 393216 .word 0x028 = .reg .lastCountF ∧ duTarget 16 .byte 0x1000F = .byte 0x1000F true
      ∧ duTarget 16 .byte 0x10010 = .nowhere := by decide

theorem witness_ConfigurationReadsBack :
    session.params.ok = true ∧ session.cu.st.busy = false ∧ session.du.st.busy = false
      ∧ (0x01C, { session.cu with inLen := 7 }) ∈ [(0x008, { session.cu with cfgF := 7 }),
        (0x00C, { session.cu with cfgR := 7 }), (0x010, { session.cu with cfgPt := 7 }),
        (0x014, { session.cu with cfgFt := 7 }), (0x018, { session.cu with cfgRt := 7 }),
        (0x01C, { session.cu with inLen := 7 })]
      ∧ (0x014, { session.du with streamLen := 7 }) ∈ [(0x008, { session.du with cfgF := 7 }),
        (0x00C, { session.du with cfgR := 7 }), (0x014, { session.du with streamLen := 7 })]
      ∧ (0x034, session.cu.pktInfo) ∈ [((0x000 : Nat), (0 : Word)), (0x034, session.cu.pktInfo)]
      ∧ (0x028, session.du.lastCountF) ∈ [((0x000 : Nat), (0 : Word)), (0x028, session.du.lastCountF)] :=
  ⟨by decide, by decide, by decide, by simp, by simp, by simp, by simp⟩

theorem witness_UnsupportedAccessesDoNothing :
    session.params.ok = true ∧ session.cu.st.busy = false ∧ session.du.st.busy = false
      ∧ (∀ off ∈ [0x38, 0xFFF, 0x5000, 0xFFFF, 0x70000, 0x7FFFF], off < 0x80000)
      ∧ { session.params with streamCap := 1 }.ok = true ∧ 0x10000 + 1 < 0x80000 := by decide

/-- The last word of CU IN, the last byte of a STREAM of one byte, the last words of the OUT windows. -/
theorem witness_WindowWordsLittleEndian :
    session.params.ok = true ∧ session.cu.st.busy = false ∧ session.du.st.busy = false
      ∧ (0x1000 ≤ 0x4FFC ∧ 0x4FFC < 0x5000 ∧ 0x4FFC % 4 = 0)
      ∧ { session.params with streamCap := 1 }.ok = true
      ∧ (0x10000 ≤ 0x6FFFC ∧ 0x6FFFC + 4 ≤ 0x10000 + session.params.streamCap ∧ 0x6FFFC < 0x70000 ∧ 0x6FFFC % 4 = 0)
      ∧ ∃ word : Memory → Nat, ∀ m, word m = (readByte m 0x4FFC).toNat + 2 ^ 8 * (readByte m (0x4FFC + 1)).toNat
        + 2 ^ 16 * (readByte m (0x4FFC + 2)).toNat + 2 ^ 24 * (readByte m (0x4FFC + 3)).toNat :=
  ⟨by decide, by decide, by decide, by decide, by decide, by decide, _, fun _ => rfl⟩

theorem witness_StatusWordFields :
    ErrCode.number .ok = 0 ∧ ErrCode.number .invalidArgument = 1 ∧ ErrCode.number .overflow = 2
      ∧ ErrCode.number .underflow = 3 ∧ ErrCode.number .notReady = 4 ∧ ErrCode.number .malformed = 5
      ∧ ErrCode.number .badCommand = 6 := by decide

/-- Packet 0 with its flags (0, 1, 1), and packet 1, where t is not 0. -/
theorem witness_CompressedPacketFields :
    session.cu.Inv ∧ session.cu.st.ready = true ∧ session.cu.inLen.toNat = (session.cu.fs.toNat + 7) / 8
      ∧ (next (exec (.cPkt false true true) session)).cu.st.err = .ok
      ∧ session1.cu.Inv ∧ session1.cu.st.ready = true ∧ session1.cu.inLen.toNat = (session1.cu.fs.toNat + 7) / 8
      ∧ (next (exec (.cPkt true false false) session1)).cu.st.err = .ok
      ∧ ∃ (slot : Nat → BitSeq) (empty : Nat → Prop),
        (∀ i, slot i = (next (exec (.cPkt true false false) session1)).cu.hist.get
          (Fin.ofNat 16 (session1.cu.hidx.toNat + 16 - i)))
        ∧ ∀ i, empty i ↔ (i ≤ session1.cu.t.toNat ∨ session1.params.preHistoryZero = true)
          ∧ ∀ j, (slot i).getD j false = false :=
  ⟨cuSession_inv, by decide, by decide, by decide, session1_cu_inv, by decide, by decide, by decide, _, _, fun _ => rfl,
    fun _ => Iff.rfl⟩

end Sys2Proof.Tests
end

