-- ==== Sys2Proof/Proofs/UnitIndependence.lean ====
section
/-! PROOFS. O52: a command of one unit is a function of that unit and of the parameters (R3, R56, R86). -/

namespace Sys2Proof.Machine

/-- The command words of the CU are C_INIT and C_PKT (R101). -/
theorem format_eq_cu_iff (i : Instr) :
    i.format = .cmd .cu ↔ i = .cInit ∨ ∃ nm sm uc, i = .cPkt nm sm uc := by
  cases i <;> simp [Instr.format]

/-- The command words of the DU are D_INIT, D_LOAD, D_PKT and D_ALIGN (R101). -/
theorem format_eq_du_iff (i : Instr) :
    i.format = .cmd .du ↔ i = .dInit ∨ i = .dLoad ∨ i = .dPkt ∨ i = .dAlign := by
  cases i <;> simp [Instr.format]

/-- A command of the CU replaces the CU by a function of the parameters and the CU, and nothing else. -/
theorem exec_cuCommand {i : Instr} (h : i.format = .cmd .cu) :
    ∃ f : Params → Cu → Cu, ∀ s : State, exec i s = .next { s with cu := f s.params s.cu } := by
  obtain rfl | ⟨nm, sm, uc, rfl⟩ := (format_eq_cu_iff i).mp h
  · exact ⟨fun _ => cInit, fun _ => rfl⟩
  · exact ⟨fun p => cPkt p.preHistoryZero nm sm uc, fun _ => rfl⟩

/-- A command of the DU replaces the DU by a function of the parameters and the DU, and nothing else. -/
theorem exec_duCommand {i : Instr} (h : i.format = .cmd .du) :
    ∃ f : Params → Du → Du, ∀ s : State, exec i s = .next { s with du := f s.params s.du } := by
  obtain rfl | rfl | rfl | rfl := (format_eq_du_iff i).mp h
  · exact ⟨fun _ => dInit, fun _ => rfl⟩
  · exact ⟨fun p => dLoad p.streamCap, fun _ => rfl⟩
  · exact ⟨fun _ => dPkt, fun _ => rfl⟩
  · exact ⟨fun _ u => { u.align with st := u.st.report .ok }, fun _ => rfl⟩

/-- Settles O52: the new unit is a function of what the two runs share, the parameters and the unit itself. -/
theorem unitsAreIndependent : Obligations.UnitsAreIndependent := by
  intro i s t s' hparams hexec
  constructor
  · intro hformat hcu
    obtain ⟨f, hf⟩ := exec_cuCommand hformat
    obtain rfl : { s with cu := f s.params s.cu } = t := Host.Outcome.next.inj ((hf s).symm.trans hexec)
    exact ⟨rfl, by rw [hf s', hparams, hcu]⟩
  · intro hformat hdu
    obtain ⟨f, hf⟩ := exec_duCommand hformat
    obtain rfl : { s with du := f s.params s.du } = t := Host.Outcome.next.inj ((hf s).symm.trans hexec)
    exact ⟨rfl, by rw [hf s', hparams, hdu]⟩

end Sys2Proof.Machine
end

