-- ==== Sys2Proof/Proofs/InstructionEffects.lean ====
section
/-! PROOFS. What an instruction can do to the machine, said once (R84, R120): the statements about every instruction are
proved from it by cases. -/

namespace Sys2Proof.Machine

/-- A C_PKT replaces the CU by what the packet makes of it (R300). -/
theorem exec_cPkt (nm sm uc : Bool) (s : State) :
    exec (.cPkt nm sm uc) s = .next { s with cu := cPkt s.params.preHistoryZero nm sm uc s.cu } := by
  rfl

/-- A D_PKT replaces the DU by what the packet makes of it (R350). -/
theorem exec_dPkt (s : State) : exec .dPkt s = .next { s with du := dPkt s.du } := by
  rfl

/-- Everything an instruction that goes on can have done. The hypotheses are the ones its meaning has checked: which
instruction it is for the two INITs, and the operands' lengths (R153) where they bound the result's. -/
inductive Effect (i : Instr) (s : State) : State → Prop
  /-- only the datapath's latches change: the bit_vector_alu, BB.TOBYTES and BR.REMAIN -/
  | latches (d : Datapath) : Effect i s { s with dp := d }
  | cInit (hi : i = .cInit) : Effect i s { s with cu := cInit s.cu }
  | cPkt (nm sm uc : Bool) : Effect i s { s with cu := cPkt s.params.preHistoryZero nm sm uc s.cu }
  | dInit (hi : i = .dInit) : Effect i s { s with du := dInit s.du }
  | dLoad : Effect i s { s with du := dLoad s.params.streamCap s.du }
  | dPkt : Effect i s { s with du := dPkt s.du }
  | dAlign : Effect i s { s with du := { s.du.align with st := s.du.st.report .ok } }
  /-- bits are appended to the output buffer, or OVERFLOW -/
  | put (bits : BitSeq) : Effect i s (s.runCu (put bits s.cu))
  | clear : Effect i s { s with cu := s.cu.clear }
  /-- the stream is read up to `rest` -/
  | read (rest : BitSeq) (d : Datapath) : Effect i s { s with du := s.du.readTo rest, dp := d }
  | readError (e : ErrCode) : Effect i s { s with du := s.du.raise e }
  | align : Effect i s { s with du := s.du.align }
  /-- per-packet values, the flag ring and the counters: MU.CHANGE, the HW operations but HW.PUSH, AP.NEXT -/
  | cuValues (tmp : CuTemps) (fh : Vector Bool 16) (pt ft rt : Word) :
      Effect i s { s with cu := { s.cu with tmp := tmp, fhist := fh, ptCnt := pt, ftCnt := ft, rtCnt := rt } }
  | muBuild (h : haveLength s.cu.fs.toNat [s.cu.build, s.cu.tmp.inp, s.cu.prevInput] = true) :
      Effect i s { s with cu := muBuild s.cu }
  | muMask (h : haveLength s.cu.fs.toNat [s.cu.mask, s.cu.tmp.inp, s.cu.prevInput, s.cu.tmp.buildPrev] = true) :
      Effect i s { s with cu := muMask s.cu }
  | hwPush (h : haveLength s.cu.fs.toNat [s.cu.tmp.change] = true) : Effect i s { s with cu := hwPush s.cu }

variable {i : Instr} {s t : State}

/-! ## The shapes the meanings share -/

/-- An operation that checks its operands' lengths has, where it goes on, the effect behind the check. -/
theorem effect_of_whenLengths {ok : Bool} {s' : State} (h : whenLengths ok (.next s') = .next t)
    (he : ok = true → Effect i s s') : Effect i s t := by
  obtain ⟨hok, hs⟩ := whenLengths_eq_next.mp h
  cases hs
  exact he hok

theorem effect_runReader {α : Type} (r : Except ErrCode (α × BitSeq)) (k : α → Datapath → Datapath) :
    Effect i s (s.runReader r k) := by
  obtain ⟨v, rest, -, hs⟩ | ⟨e, -, hs⟩ := runReader_cases s r k <;> rw [hs]
  · exact .read rest _
  · exact .readError e

theorem effect_apNext : Effect i s { s with cu := apNext s.cu } := by
  unfold apNext
  split
  · exact .cuValues _ s.cu.fhist s.cu.ptCnt s.cu.ftCnt s.cu.rtCnt
  · exact .cuValues _ s.cu.fhist _ _ _

theorem effect_countMalformed (h : execCountMalformed s = .next t) : Effect i s t := by
  unfold execCountMalformed at h
  split at h <;> cases h <;> exact .readError _

/-- Every instruction that goes on has one of the effects. -/
theorem exec_effect (h : exec i s = .next t) : Effect i s t := by
  cases i with
  | cInit => cases h; exact .cInit rfl
  | cPkt nm sm uc => cases h; exact .cPkt nm sm uc
  | dInit => cases h; exact .dInit rfl
  | dLoad => cases h; exact .dLoad
  | dPkt => cases h; exact .dPkt
  | dAlign => cases h; exact .dAlign
  | bvXor | bvOr | bvAnd | bvNot | bvShl1 | bvRev | bvPopcnt | bvGet | bvSet | bvUnpack | bvPack =>
    exact effect_of_whenLengths h fun _ => .latches _
  | bvZero => cases h; exact .latches _
  | bbClear => cases h; exact .clear
  | bbPutbit | bbPutval | cntEnc => cases h; exact .put _
  | bbPutvec | rleEnc | beRev | beFwd => exact effect_of_whenLengths h fun _ => .put _
  | bbTobytes | brRemain => cases h; exact .latches _
  | brGetbit | brGetbits | cntDec | rleDec => cases h; exact effect_runReader _ _
  | brAlign => cases h; exact .align
  | biRev | biFwd => exact effect_of_whenLengths h fun _ => effect_runReader _ _
  | muBuild => exact effect_of_whenLengths h .muBuild
  | muMask => exact effect_of_whenLengths h .muMask
  | muChange => exact effect_of_whenLengths h fun _ => .cuValues _ s.cu.fhist s.cu.ptCnt s.cu.ftCnt s.cu.rtCnt
  | hwPush => exact effect_of_whenLengths h .hwPush
  | hwXwin | hwVeff =>
    exact effect_of_whenLengths h fun _ => .cuValues _ s.cu.fhist s.cu.ptCnt s.cu.ftCnt s.cu.rtCnt
  | hwCt => cases h; exact .cuValues _ s.cu.fhist s.cu.ptCnt s.cu.ftCnt s.cu.rtCnt
  | hwFpush => cases h; exact .cuValues s.cu.tmp _ s.cu.ptCnt s.cu.ftCnt s.cu.rtCnt
  | apNext => cases h; exact effect_apNext
  | countOne | countTerm => cases h; exact effect_runReader _ _
  | countShort a | countLongE6 a | countLongE8 a | countLongE10 a | countLongE12 a | countLongE14 a | countLongE16 a
  | countLongE18 a | countLongE20 a | countLongE22 a | countLongE24 a | countLongE26 a =>
    cases h; exact effect_runReader _ _
  | countMalformed => exact effect_countMalformed h

end Sys2Proof.Machine
end

