-- ==== Sys2Proof/Proofs/PacketPreparation.lean ====
section
/-! PROOFS. What a C_PKT prepares before it emits its packet (R300), field by field: the flags, the mask update, and the unit
that is handed to the emission. -/

namespace Sys2Proof.Machine

/-- The unit once a C_PKT has read its packet from the IN window and has its flags, with the buffer emptied (R300). -/
def cPktInput (nm sm uc : Bool) (u : Cu) : Cu :=
  (packetFlags nm sm uc { u with tmp := { u.tmp with inp := windowVector u.win cuIn u.fs.toNat } }).clear

/-- The rest of the preparation, in the order of R300. -/
theorem cPktPrepare_eq (z nm sm uc : Bool) (u : Cu) :
    cPktPrepare z nm sm uc u = hwCt (hwVeff z (hwXwin (hwPush (muChange (updateMask (cPktInput nm sm uc u)))))) := rfl

/-! ## The packet and its flags -/

section Input

variable (nm sm uc : Bool) (u : Cu)

/-- In automatic mode the flags and the counters are those of AP.NEXT (R295, R296). -/
theorem cPktInput_of_auto (h : u.auto = true) : cPktInput nm sm uc u =
    (apNext { u with tmp := { u.tmp with inp := windowVector u.win cuIn u.fs.toNat } }).clear := by
  rw [cPktInput, packetFlags, if_pos h]

/-- In manual mode the flags are the command word's, and the counters stay (R25, R296). -/
theorem cPktInput_of_manual (h : u.auto = false) : cPktInput nm sm uc u =
    { u with tmp := { u.tmp with inp := windowVector u.win cuIn u.fs.toNat, p := nm, f := sm, r := uc }, obuf := [] } := by
  rw [cPktInput, packetFlags, if_neg (by simp [h])]
  rfl

/-- Reading the packet and its flags changes the packet, the flags, the counters and the buffer, and nothing else. -/
theorem cPktInput_frame : ∃ p f r pt ft rt, cPktInput nm sm uc u =
    { u with
      tmp := { u.tmp with inp := windowVector u.win cuIn u.fs.toNat, p := p, f := f, r := r }, ptCnt := pt, ftCnt := ft,
      rtCnt := rt, obuf := [] } := by
  unfold cPktInput packetFlags apNext
  split
  · split <;> exact ⟨_, _, _, _, _, _, rfl⟩
  · exact ⟨_, _, _, _, _, _, rfl⟩

@[simp] theorem cPktInput_fs : (cPktInput nm sm uc u).fs = u.fs := by
  obtain ⟨_, _, _, _, _, _, h⟩ := cPktInput_frame nm sm uc u; rw [h]
@[simp] theorem cPktInput_inp : (cPktInput nm sm uc u).tmp.inp = windowVector u.win cuIn u.fs.toNat := by
  obtain ⟨_, _, _, _, _, _, h⟩ := cPktInput_frame nm sm uc u; rw [h]

end Input

/-! ## The mask update (R240 to R243) -/

section Update

variable (u : Cu)

/-- The mask update saves the mask, and changes the mask, the build vector and its per-packet copy. -/
theorem updateMask_frame : ∃ m b bp, updateMask u =
    { u with prevMask := u.mask, mask := m, build := b, tmp := { u.tmp with buildPrev := bp } } := by
  unfold updateMask
  dsimp only
  split <;> exact ⟨_, _, _, rfl⟩

@[simp] theorem updateMask_inp : (updateMask u).tmp.inp = u.tmp.inp := by
  obtain ⟨_, _, _, h⟩ := updateMask_frame u; rw [h]
@[simp] theorem updateMask_p : (updateMask u).tmp.p = u.tmp.p := by
  obtain ⟨_, _, _, h⟩ := updateMask_frame u; rw [h]
@[simp] theorem updateMask_f : (updateMask u).tmp.f = u.tmp.f := by
  obtain ⟨_, _, _, h⟩ := updateMask_frame u; rw [h]
@[simp] theorem updateMask_r : (updateMask u).tmp.r = u.tmp.r := by
  obtain ⟨_, _, _, h⟩ := updateMask_frame u; rw [h]
@[simp] theorem updateMask_ptCnt : (updateMask u).ptCnt = u.ptCnt := by
  obtain ⟨_, _, _, h⟩ := updateMask_frame u; rw [h]
@[simp] theorem updateMask_ftCnt : (updateMask u).ftCnt = u.ftCnt := by
  obtain ⟨_, _, _, h⟩ := updateMask_frame u; rw [h]
@[simp] theorem updateMask_rtCnt : (updateMask u).rtCnt = u.rtCnt := by
  obtain ⟨_, _, _, h⟩ := updateMask_frame u; rw [h]

end Update

/-! ## The unit handed to the emission -/

section Prepare

variable (z nm sm uc : Bool) (u : Cu)

/-- The change vector, the window, V_t and c_t go to a slot of the ring and to the per-packet values. -/
theorem windowValues_frame :
    ∃ h tmp, hwCt (hwVeff z (hwXwin (hwPush (muChange u)))) = { u with hist := h, tmp := tmp } := by
  obtain ⟨t1, h1⟩ : ∃ tmp, muChange u = { u with tmp := tmp } := ⟨_, rfl⟩
  obtain ⟨h, h2⟩ : ∃ h, hwPush { u with tmp := t1 } = { u with tmp := t1, hist := h } := ⟨_, rfl⟩
  obtain ⟨t2, h3⟩ : ∃ tmp, hwXwin { u with tmp := t1, hist := h } = { u with tmp := tmp, hist := h } := ⟨_, rfl⟩
  obtain ⟨t3, h4⟩ : ∃ tmp, hwVeff z { u with tmp := t2, hist := h } = { u with tmp := tmp, hist := h } := ⟨_, rfl⟩
  exact ⟨h, _, by rw [h1, h2, h3, h4]; rfl⟩

/-- What the preparation of a packet can change: the mask vectors, the ring, the counters, the buffer and the per-packet
values (R296, R300). -/
theorem cPktPrepare_frame : ∃ m b h pt ft rt tmp, cPktPrepare z nm sm uc u =
    { u with
      prevMask := u.mask, mask := m, build := b, hist := h, ptCnt := pt, ftCnt := ft, rtCnt := rt, obuf := [],
      tmp := tmp } := by
  obtain ⟨p, f, r, pt, ft, rt, hinput⟩ := cPktInput_frame nm sm uc u
  obtain ⟨m, b, bp, hmask⟩ := updateMask_frame (cPktInput nm sm uc u)
  obtain ⟨h, tmp, hrest⟩ := windowValues_frame z (updateMask (cPktInput nm sm uc u))
  exact ⟨m, b, h, pt, ft, rt, tmp, by rw [cPktPrepare_eq, hrest, hmask, hinput]⟩

@[simp] theorem cPktPrepare_fs : (cPktPrepare z nm sm uc u).fs = u.fs := by
  obtain ⟨_, _, _, _, _, _, _, h⟩ := cPktPrepare_frame z nm sm uc u; rw [h]
@[simp] theorem cPktPrepare_rs : (cPktPrepare z nm sm uc u).rs = u.rs := by
  obtain ⟨_, _, _, _, _, _, _, h⟩ := cPktPrepare_frame z nm sm uc u; rw [h]
@[simp] theorem cPktPrepare_st : (cPktPrepare z nm sm uc u).st = u.st := by
  obtain ⟨_, _, _, _, _, _, _, h⟩ := cPktPrepare_frame z nm sm uc u; rw [h]
@[simp] theorem cPktPrepare_t : (cPktPrepare z nm sm uc u).t = u.t := by
  obtain ⟨_, _, _, _, _, _, _, h⟩ := cPktPrepare_frame z nm sm uc u; rw [h]
@[simp] theorem cPktPrepare_hidx : (cPktPrepare z nm sm uc u).hidx = u.hidx := by
  obtain ⟨_, _, _, _, _, _, _, h⟩ := cPktPrepare_frame z nm sm uc u; rw [h]
@[simp] theorem cPktPrepare_fidx : (cPktPrepare z nm sm uc u).fidx = u.fidx := by
  obtain ⟨_, _, _, _, _, _, _, h⟩ := cPktPrepare_frame z nm sm uc u; rw [h]
@[simp] theorem cPktPrepare_fhist : (cPktPrepare z nm sm uc u).fhist = u.fhist := by
  obtain ⟨_, _, _, _, _, _, _, h⟩ := cPktPrepare_frame z nm sm uc u; rw [h]
@[simp] theorem cPktPrepare_win : (cPktPrepare z nm sm uc u).win = u.win := by
  obtain ⟨_, _, _, _, _, _, _, h⟩ := cPktPrepare_frame z nm sm uc u; rw [h]
@[simp] theorem cPktPrepare_obuf : (cPktPrepare z nm sm uc u).obuf = [] := by
  obtain ⟨_, _, _, _, _, _, _, h⟩ := cPktPrepare_frame z nm sm uc u; rw [h]

/-! The per-packet values pass through the later stages, which name only the one they compute. -/

@[simp] theorem muChange_inp : (muChange u).tmp.inp = u.tmp.inp := rfl
@[simp] theorem muChange_p : (muChange u).tmp.p = u.tmp.p := rfl
@[simp] theorem muChange_f : (muChange u).tmp.f = u.tmp.f := rfl
@[simp] theorem muChange_r : (muChange u).tmp.r = u.tmp.r := rfl
@[simp] theorem hwXwin_inp : (hwXwin u).tmp.inp = u.tmp.inp := rfl
@[simp] theorem hwXwin_p : (hwXwin u).tmp.p = u.tmp.p := rfl
@[simp] theorem hwXwin_f : (hwXwin u).tmp.f = u.tmp.f := rfl
@[simp] theorem hwXwin_r : (hwXwin u).tmp.r = u.tmp.r := rfl
@[simp] theorem hwVeff_inp : (hwVeff z u).tmp.inp = u.tmp.inp := rfl
@[simp] theorem hwVeff_window : (hwVeff z u).tmp.window = u.tmp.window := rfl
@[simp] theorem hwVeff_p : (hwVeff z u).tmp.p = u.tmp.p := rfl
@[simp] theorem hwVeff_f : (hwVeff z u).tmp.f = u.tmp.f := rfl
@[simp] theorem hwVeff_r : (hwVeff z u).tmp.r = u.tmp.r := rfl
@[simp] theorem hwCt_inp : (hwCt u).tmp.inp = u.tmp.inp := rfl
@[simp] theorem hwCt_window : (hwCt u).tmp.window = u.tmp.window := rfl
@[simp] theorem hwCt_veff : (hwCt u).tmp.veff = u.tmp.veff := rfl
@[simp] theorem hwCt_p : (hwCt u).tmp.p = u.tmp.p := rfl
@[simp] theorem hwCt_f : (hwCt u).tmp.f = u.tmp.f := rfl
@[simp] theorem hwCt_r : (hwCt u).tmp.r = u.tmp.r := rfl

/-! So the emission reads the values of the stages that made them. -/

theorem cPktPrepare_inp : (cPktPrepare z nm sm uc u).tmp.inp = windowVector u.win cuIn u.fs.toNat := by
  simp [cPktPrepare_eq]

theorem cPktPrepare_ptCnt : (cPktPrepare z nm sm uc u).ptCnt = (cPktInput nm sm uc u).ptCnt := by simp [cPktPrepare_eq]
theorem cPktPrepare_ftCnt : (cPktPrepare z nm sm uc u).ftCnt = (cPktInput nm sm uc u).ftCnt := by simp [cPktPrepare_eq]
theorem cPktPrepare_rtCnt : (cPktPrepare z nm sm uc u).rtCnt = (cPktInput nm sm uc u).rtCnt := by simp [cPktPrepare_eq]
theorem cPktPrepare_p : (cPktPrepare z nm sm uc u).tmp.p = (cPktInput nm sm uc u).tmp.p := by simp [cPktPrepare_eq]
theorem cPktPrepare_f : (cPktPrepare z nm sm uc u).tmp.f = (cPktInput nm sm uc u).tmp.f := by simp [cPktPrepare_eq]
theorem cPktPrepare_r : (cPktPrepare z nm sm uc u).tmp.r = (cPktInput nm sm uc u).tmp.r := by simp [cPktPrepare_eq]

end Prepare

end Sys2Proof.Machine
end

