-- ==== Sys2Proof/Proofs/StateInvariant.lean ====
section
/-! PROOFS. O53, O54: the invariant of the units and the windows holds after reset and is kept by every step (R23, R31, R33,
R50, R153, R170). -/

namespace Sys2Proof.Machine

/-! ## The lengths of what D_PKT reads (R153) -/

/-- A computation that may raise an error answers only where both of its parts do. -/
theorem bind_eq_ok_iff {α β : Type} {x : Except ErrCode α} {f : α → Except ErrCode β} {b : β} :
    x >>= f = .ok b ↔ ∃ a, x = .ok a ∧ f a = .ok b := by
  cases x with
  | error e => exact ⟨fun h => (nomatch h), fun ⟨_, h, _⟩ => (nomatch h)⟩
  | ok a => exact ⟨fun h => ⟨a, rfl, h⟩, fun ⟨_, ha, h⟩ => by cases ha; exact h⟩

theorem length_of_rleDecFrom {fuel pos : Nat} {acc bits x rest : BitSeq}
    (h : rleDecFrom fuel pos acc bits = .ok (x, rest)) : x.length = pos + acc.length := by
  induction fuel generalizing pos acc bits with
  | zero => cases h
  | succ fuel ih =>
    obtain ⟨⟨a, r⟩, -, h⟩ := bind_eq_ok_iff.mp h
    dsimp only at h
    split at h
    · cases h; simp
    · split at h
      · cases h
      · have hx := ih h
        simp at hx
        omega

theorem length_of_rleDec {n : Nat} {bits x rest : BitSeq} (h : rleDec n bits = .ok (x, rest)) : x.length = n := by
  simpa using length_of_rleDecFrom h

theorem length_of_getVec {n : Nat} {bits v rest : BitSeq} (h : getVec n bits = .ok (v, rest)) : v.length = n := by
  induction n generalizing bits v with
  | zero => cases h; rfl
  | succ n ih =>
    obtain ⟨⟨b, r⟩, -, h⟩ := bind_eq_ok_iff.mp h
    obtain ⟨⟨w, r'⟩, hw, h⟩ := bind_eq_ok_iff.mp h
    cases h
    simp [ih hw]

theorem length_of_biFwd {a m bits v rest : BitSeq} (h : biFwd a m bits = .ok (v, rest)) : v.length = a.length := by
  induction a generalizing m bits v with
  | nil => cases m <;> cases h <;> rfl
  | cons x a ih =>
    match m with
    | [] => cases h; rfl
    | true :: m =>
      obtain ⟨⟨b, r⟩, -, h⟩ := bind_eq_ok_iff.mp h
      obtain ⟨⟨w, r'⟩, hw, h⟩ := bind_eq_ok_iff.mp h
      cases h
      simp [ih hw]
    | false :: m =>
      obtain ⟨⟨w, r'⟩, hw, h⟩ := bind_eq_ok_iff.mp h
      cases h
      simp [ih hw]

theorem length_of_biRev {a m bits v rest : BitSeq} (h : biRev a m bits = .ok (v, rest)) : v.length = a.length := by
  obtain ⟨⟨w, r⟩, hw, h⟩ := bind_eq_ok_iff.mp h
  cases h
  simpa using length_of_biFwd hw

theorem length_of_readDirections {x m bits m' pos rest : BitSeq}
    (h : readDirections x m bits = .ok ((m', pos), rest)) : m'.length = m.length ∧ pos.length = m.length := by
  induction x generalizing m bits m' pos with
  | nil => cases m <;> cases h <;> simp
  | cons b x ih =>
    match b, m with
    | true, [] => cases h; simp
    | false, [] => cases h; simp
    | true, y :: m =>
      obtain ⟨⟨k, r⟩, -, h⟩ := bind_eq_ok_iff.mp h
      obtain ⟨⟨⟨w, p⟩, r'⟩, hw, h⟩ := bind_eq_ok_iff.mp h
      cases h
      simp [ih hw]
    | false, y :: m =>
      obtain ⟨⟨⟨w, p⟩, r'⟩, hw, h⟩ := bind_eq_ok_iff.mp h
      cases h
      simp [ih hw]

theorem length_of_readDirection {v : Nat} {x m bits rest : BitSeq} {d : Direction} (hx : x.length = m.length)
    (h : readDirection v x m bits = .ok (d, rest)) : d.m.length = m.length ∧ d.pos.length = m.length := by
  unfold readDirection at h
  split at h
  · obtain ⟨⟨e, r⟩, -, h⟩ := bind_eq_ok_iff.mp h
    dsimp only at h
    split at h
    · obtain ⟨⟨⟨m', p⟩, r'⟩, hd, h⟩ := bind_eq_ok_iff.mp h
      obtain ⟨⟨c, r''⟩, -, h⟩ := bind_eq_ok_iff.mp h
      cases h
      exact length_of_readDirections hd
    · cases h; simp [hx]
  · cases h
    refine ⟨?_, by simp⟩
    dsimp only
    split <;> simp [hx]

@[simp] theorem length_undelta (d : BitSeq) : (undelta d).length = d.length := by
  induction d with
  | nil => rfl
  | cons b r ih => simp [undelta, ih]

theorem length_of_readMaskField {n : Nat} {m bits rest : BitSeq} {mf : MaskField} (hm : m.length = n)
    (h : readMaskField n m bits = .ok (mf, rest)) : mf.m.length = n := by
  obtain ⟨⟨d, r⟩, -, h⟩ := bind_eq_ok_iff.mp h
  dsimp only at h
  split at h
  · cases h; exact hm
  · obtain ⟨⟨fb, r1⟩, -, h⟩ := bind_eq_ok_iff.mp h
    dsimp only at h
    split at h
    · obtain ⟨⟨delta, r2⟩, hdelta, h⟩ := bind_eq_ok_iff.mp h
      obtain ⟨⟨r, r3⟩, -, h⟩ := bind_eq_ok_iff.mp h
      cases h
      simp [length_of_rleDec hdelta]
    · obtain ⟨⟨r, r2⟩, -, h⟩ := bind_eq_ok_iff.mp h
      cases h
      exact hm

theorem length_of_readData {n v : Nat} {dir : Direction} {mf : MaskField} {out bits out' rest : BitSeq} {lcf : Option Nat}
    (ho : out.length = n) (h : readData n v dir mf out bits = .ok ((lcf, out'), rest)) : out'.length = n := by
  unfold readData at h
  split at h
  · obtain ⟨⟨l, r⟩, -, h⟩ := bind_eq_ok_iff.mp h
    obtain ⟨⟨raw, r1⟩, hraw, h⟩ := bind_eq_ok_iff.mp h
    cases h
    exact length_of_getVec hraw
  · obtain ⟨⟨o, r⟩, hbi, h⟩ := bind_eq_ok_iff.mp h
    cases h
    rw [length_of_biRev hbi, ho]

/-- A packet that is read has vectors of the session's length. -/
theorem length_of_readPacket {n : Nat} {dmask out bits rest : BitSeq} {k : Packet} (hm : dmask.length = n)
    (ho : out.length = n) (h : readPacket n dmask out bits = .ok (k, rest)) :
    k.mf.m.length = n ∧ k.out.length = n ∧ k.dir.pos.length = n := by
  obtain ⟨⟨x, r1⟩, hx, h⟩ := bind_eq_ok_iff.mp h
  obtain ⟨⟨v, r2⟩, -, h⟩ := bind_eq_ok_iff.mp h
  obtain ⟨⟨dir, r3⟩, hdir, h⟩ := bind_eq_ok_iff.mp h
  obtain ⟨⟨mf, r4⟩, hmf, h⟩ := bind_eq_ok_iff.mp h
  obtain ⟨⟨⟨lcf, out'⟩, r5⟩, hdata, h⟩ := bind_eq_ok_iff.mp h
  cases h
  obtain ⟨hdm, hdp⟩ := length_of_readDirection (by rw [length_of_rleDec hx, hm]) hdir
  exact ⟨length_of_readMaskField (hdm.trans hm) hmf, length_of_readData ho hdata, hdp.trans hm⟩

/-! ## The compressor unit -/

namespace Cu.Inv

variable {u : Cu}

theorem reset : Cu.reset.Inv where
  win_wf := Memory.wf_nil
  length_pos := by decide
  mask_length := rfl
  prevMask_length := rfl
  build_length := rfl
  prevInput_length := rfl
  hist_length := by decide
  obuf_cap := by decide
  not_ready_and_fault := by decide
  indices_equal := rfl
  index_counts := by decide

/-- A status in which READY and FAULT are not both 1 can replace the unit's. -/
theorem withStatus (h : u.Inv) {st : Status} (hst : ¬(st.ready = true ∧ st.fault = true)) : { u with st := st }.Inv :=
  { h with not_ready_and_fault := hst }

theorem raise (h : u.Inv) (e : ErrCode) : (u.raise e).Inv := h.withStatus (by simp)

theorem report (h : u.Inv) (e : ErrCode) : { u with st := u.st.report e }.Inv := h.withStatus h.not_ready_and_fault

theorem values (h : u.Inv) (tmp : CuTemps) (fh : Vector Bool 16) (pt ft rt : Word) :
    { u with tmp := tmp, fhist := fh, ptCnt := pt, ftCnt := ft, rtCnt := rt }.Inv := { h with }

theorem withObuf (h : u.Inv) {bits : BitSeq} (hb : bits.length ≤ 48 * u.fs.toNat) : { u with obuf := bits }.Inv :=
  { h with obuf_cap := hb }

theorem clear (h : u.Inv) : u.clear.Inv := h.withObuf (by simp)

theorem orRaise_put (h : u.Inv) (bits : BitSeq) : (u.orRaise (put bits u)).Inv := by
  rcases hp : put bits u with e | u'
  · exact h.raise e
  · obtain ⟨hlen, rfl⟩ := put_eq_ok.mp hp
    exact h.withObuf (by simpa using hlen)

theorem muBuild (h : u.Inv) (hinp : u.tmp.inp.length = u.fs.toNat) : (Machine.muBuild u).Inv :=
  { h with
    build_length := by
      show List.length (ite _ _ _) = u.fs.toNat
      split <;> simp [h.build_length, h.prevInput_length, hinp] }

theorem muMask (h : u.Inv) (hinp : u.tmp.inp.length = u.fs.toNat) (hb : u.tmp.buildPrev.length = u.fs.toNat) :
    (Machine.muMask u).Inv :=
  { h with
    mask_length := by
      show List.length (ite _ _ _) = u.fs.toNat
      split <;> simp [h.mask_length, h.prevInput_length, hinp, hb] }

theorem hwPush (h : u.Inv) (hc : u.tmp.change.length = u.fs.toNat) : (Machine.hwPush u).Inv :=
  { h with
    hist_length := fun k => by
      show ((u.hist.set u.hidx.toNat u.tmp.change u.hidx.isLt)[k.val]).length = u.fs.toNat
      rw [Vector.getElem_set]
      split
      · exact hc
      · exact h.hist_length k }

theorem hwXwin (h : u.Inv) : (Machine.hwXwin u).Inv := { h with }

theorem hwVeff (h : u.Inv) (z : Bool) : (Machine.hwVeff z u).Inv := { h with }

theorem hwCt (h : u.Inv) : (Machine.hwCt u).Inv := { h with }

end Cu.Inv

/-! ### C_INIT -/

theorem cInitOk_iff (u : Cu) :
    cInitOk u = true ↔ 1 ≤ u.cfgF.toNat ∧ u.cfgF.toNat ≤ 65535 ∧ u.cfgR.toNat ≤ 7
      ∧ ((u.cfgPt = 0 ∧ u.cfgFt = 0 ∧ u.cfgRt = 0) ∨ (u.cfgPt ≠ 0 ∧ u.cfgFt ≠ 0 ∧ u.cfgRt ≠ 0)) := by
  simp [cInitOk, and_assoc]

/-- The latched length is the configured one, which R291 has found to fit (R21). -/
theorem toNat_setWidth_16 {f : Word} (h : f.toNat ≤ 65535) : (f.setWidth 16).toNat = f.toNat := by
  rw [BitVec.toNat_setWidth]; omega

theorem Cu.Inv.cInit {u : Cu} (h : u.Inv) : (cInit u).Inv := by
  unfold Machine.cInit
  split
  · rename_i hok
    obtain ⟨hpos, hmax, -⟩ := (cInitOk_iff u).mp hok
    have hfs : (cInitSession u).fs.toNat = u.cfgF.toNat := toNat_setWidth_16 hmax
    exact {
      win_wf := h.win_wf
      length_pos := by rw [hfs]; exact hpos
      mask_length := by rw [hfs]; exact length_windowVector ..
      prevMask_length := by rw [hfs]; exact length_zeros _
      build_length := by rw [hfs]; exact length_zeros _
      prevInput_length := by rw [hfs]; exact length_zeros _
      hist_length := fun k => by
        rw [hfs]
        show ((Vector.replicate 16 (zeros u.cfgF.toNat))[k.val]).length = _
        simp
      obuf_cap := Nat.zero_le _
      not_ready_and_fault := by simp [cInitSession]
      indices_equal := rfl
      index_counts := fun _ => rfl }
  · exact { h.withStatus (st := u.st.initFailed) (by simp) with }

/-! ### C_PKT -/

/-- The mask update keeps the invariant (R240 to R242). -/
theorem Cu.Inv.updateMask {u : Cu} (h : u.Inv) (hinp : u.tmp.inp.length = u.fs.toNat) : (updateMask u).Inv := by
  have hsaved : { u with prevMask := u.mask }.Inv := { h with prevMask_length := h.mask_length }
  unfold Machine.updateMask
  dsimp only
  split
  · exact (hsaved.muBuild hinp).muMask hinp h.build_length
  · exact hsaved

theorem Cu.Inv.length_change_muChange {u : Cu} (h : u.Inv) : (muChange u).tmp.change.length = u.fs.toNat := by
  show List.length (ite _ _ _) = _
  split <;> simp [h.mask_length, h.prevMask_length]

/-- The unit that is prepared for emission keeps the invariant (R300). -/
theorem Cu.Inv.cPktPrepare {u : Cu} (h : u.Inv) (z nm sm uc : Bool) : (cPktPrepare z nm sm uc u).Inv := by
  have hinput : (cPktInput nm sm uc u).Inv := by
    obtain ⟨p, f, r, pt, ft, rt, hframe⟩ := cPktInput_frame nm sm uc u
    rw [hframe]
    exact (h.values _ u.fhist pt ft rt).withObuf (Nat.zero_le _)
  have hmask := hinput.updateMask (by simp)
  have hchange : (muChange (Machine.updateMask (cPktInput nm sm uc u))).Inv := { hmask with }
  have hpush := hchange.hwPush hmask.length_change_muChange
  exact (hpush.hwXwin.hwVeff z).hwCt

theorem satInc_of_ne {t : Word} (h : t ≠ BitVec.allOnes 32) : satInc t = t + 1 := if_neg h

/-- The commit of a packet keeps the invariant: the ring indices move on with the packet count (R23, R308). -/
theorem Cu.Inv.cPktCommit {u : Cu} (h : u.Inv) (hinp : u.tmp.inp.length = u.fs.toNat) : (cPktCommit u).Inv :=
  { h with
    win_wf := Memory.wf_writeBytes h.win_wf _ _
    prevInput_length := hinp
    indices_equal := congrArg (· + 1) h.indices_equal
    index_counts := fun ht => by
      rw [cPktCommit_t] at ht
      have hlt : u.t ≠ BitVec.allOnes 32 := fun hc => ht (by rw [satInc, if_pos hc, hc])
      rw [cPktCommit_t, cPktCommit_hidx, satInc_of_ne hlt, h.index_counts hlt]
      exact (BitVec.setWidth_add u.t 1 (by decide)).symm }

theorem Cu.Inv.cPkt {u : Cu} (h : u.Inv) (z nm sm uc : Bool) : (cPkt z nm sm uc u).Inv := by
  rcases cPkt_cases z nm sm uc u with ⟨-, hu⟩ | ⟨-, -, hu⟩ | ⟨-, -, -, hu⟩ | ⟨-, -, u', hemit, hu⟩ <;> rw [hu]
  · exact h.report _
  · exact h.raise _
  · exact h.raise _
  · rcases cPktEmit_cases (Machine.cPktPrepare z nm sm uc u) with ⟨hlen, he⟩ | ⟨-, he⟩ <;> rw [he] at hemit <;> cases hemit
    exact ((h.cPktPrepare z nm sm uc).withObuf (by simpa using hlen)).cPktCommit (by simp [Machine.cPktPrepare_inp])

/-! ## The decompressor unit -/

namespace Du.Inv

variable {cap : Nat} {u : Du}

theorem reset (cap : Nat) : Du.reset.Inv cap where
  win_wf := Memory.wf_nil
  length_pos := by decide
  dmask_length := rfl
  prevOutput_length := rfl
  pos_length := rfl
  not_ready_and_fault := by decide
  bitPos_le := by decide
  numBits_bytes := rfl
  numBits_cap := Nat.zero_le _

/-- A status in which READY and FAULT are not both 1 can replace the unit's. -/
theorem withStatus (h : u.Inv cap) {st : Status} (hst : ¬(st.ready = true ∧ st.fault = true)) :
    { u with st := st }.Inv cap := { h with not_ready_and_fault := hst }

theorem raise (h : u.Inv cap) (e : ErrCode) : (u.raise e).Inv cap := h.withStatus (by simp)

theorem report (h : u.Inv cap) (e : ErrCode) : { u with st := u.st.report e }.Inv cap :=
  h.withStatus h.not_ready_and_fault

/-- The cursor after a read is where it was and what was read further (R181). -/
theorem toNat_bitPos_readTo (h : u.Inv cap) (rest : BitSeq) :
    (u.readTo rest).bitPos.toNat = u.bitPos.toNat + (remaining u - rest.length) := by
  have := u.numBits.isLt
  have := h.bitPos_le
  rw [Du.readTo_bitPos, length_unreadBits, BitVec.toNat_add, BitVec.toNat_ofNat]
  unfold remaining
  omega

theorem readTo (h : u.Inv cap) (rest : BitSeq) : (u.readTo rest).Inv cap :=
  { h with
    bitPos_le := by
      have := h.bitPos_le
      rw [h.toNat_bitPos_readTo]
      show _ ≤ u.numBits.toNat
      unfold remaining
      omega }

/-- The next byte boundary is within the stream, which ends on one (R50, R183). -/
theorem toNat_bitPos_align (h : u.Inv cap) : u.align.bitPos.toNat = 8 * byteCount u.bitPos.toNat := by
  have := u.numBits.isLt
  have := h.bitPos_le
  have := h.numBits_bytes
  rw [Du.align_bitPos, BitVec.toNat_ofNat]
  unfold byteCount
  omega

theorem align (h : u.Inv cap) : u.align.Inv cap :=
  { h with
    bitPos_le := by
      have := h.bitPos_le
      have := h.numBits_bytes
      rw [h.toNat_bitPos_align]
      show _ ≤ u.numBits.toNat
      unfold byteCount
      omega }

theorem dInit (h : u.Inv cap) : (dInit u).Inv cap := by
  unfold Machine.dInit
  split
  · rename_i hok
    simp only [dInitOk, Bool.and_eq_true, decide_eq_true_eq] at hok
    obtain ⟨⟨hpos, hmax⟩, -⟩ := hok
    have hfs : (dInitSession u).fs.toNat = u.cfgF.toNat := toNat_setWidth_16 hmax
    exact
      { h with
        length_pos := by rw [hfs]; exact hpos
        dmask_length := by rw [hfs]; exact length_zeros _
        prevOutput_length := by rw [hfs]; exact length_zeros _
        pos_length := by rw [hfs]; exact length_zeros _
        not_ready_and_fault := by simp [dInitSession] }
  · exact h.withStatus (by simp)

theorem dLoad (h : u.Inv cap) (hcap : cap ≤ streamWindowBytes) : (dLoad cap u).Inv cap := by
  unfold Machine.dLoad
  split
  · exact h.report _
  · rename_i hlen
    have hbits : (BitVec.ofNat 32 (8 * u.streamLen.toNat)).toNat = 8 * u.streamLen.toNat := by
      rw [BitVec.toNat_ofNat]
      unfold streamWindowBytes at hcap
      omega
    exact
      { h with
        bitPos_le := Nat.zero_le _
        numBits_bytes := by rw [hbits]; omega
        numBits_cap := by rw [hbits]; omega }

theorem dPktCommit (h : u.Inv cap) {k : Packet} {rest : BitSeq} (hm : k.mf.m.length = u.fs.toNat)
    (ho : k.out.length = u.fs.toNat) (hp : k.dir.pos.length = u.fs.toNat) : (dPktCommit u k rest).Inv cap := by
  unfold Machine.dPktCommit
  have hcommit : ∀ (t info last : Word), { u.readTo rest with
      dmask := k.mf.m, prevOutput := k.out, pos := k.dir.pos, win := writeBytes u.win duOut (packBits k.out), t := t,
      pktInfo := info, lastCountF := last, st := u.st.report .ok }.Inv cap := fun t info last =>
    { h.readTo rest with
      win_wf := Memory.wf_writeBytes h.win_wf _ _, dmask_length := hm, prevOutput_length := ho, pos_length := hp }
  dsimp only
  split
  · exact (hcommit _ _ _).align
  · exact hcommit _ _ _

theorem dPkt (h : u.Inv cap) : (dPkt u).Inv cap := by
  rcases dPkt_cases u with ⟨-, hu⟩ | ⟨-, e, -, hu⟩ | ⟨-, k, rest, hread, hu⟩ <;> rw [hu]
  · exact h.report _
  · exact h.raise _
  · obtain ⟨hm, ho, hp⟩ := length_of_readPacket h.dmask_length h.prevOutput_length hread
    exact h.dPktCommit hm ho hp

end Du.Inv

/-! ## Instructions -/

/-- The capacity is within the STREAM window (R74). -/
theorem State.Inv.streamCap_le {s : State} (h : s.Inv) : s.params.streamCap ≤ streamWindowBytes := by
  have hok := h.params_ok
  simp only [Params.ok, Bool.and_eq_true, decide_eq_true_eq] at hok
  exact hok.2

/-- Every effect of an instruction keeps the invariant. -/
theorem State.Inv.of_effect {i : Instr} {s t : State} (h : s.Inv) (he : Effect i s t) : t.Inv := by
  have hp := h.params_ok
  cases he with
  | latches d => exact { h with }
  | cInit hi => exact ⟨hp, h.cu.cInit, h.du⟩
  | cPkt nm sm uc => exact ⟨hp, h.cu.cPkt _ nm sm uc, h.du⟩
  | dInit hi => exact ⟨hp, h.cu, h.du.dInit⟩
  | dLoad => exact ⟨hp, h.cu, h.du.dLoad h.streamCap_le⟩
  | dPkt => exact ⟨hp, h.cu, h.du.dPkt⟩
  | dAlign => exact ⟨hp, h.cu, h.du.align.report .ok⟩
  | put bits => exact ⟨hp, h.cu.orRaise_put bits, h.du⟩
  | clear => exact ⟨hp, h.cu.clear, h.du⟩
  | read rest d => exact ⟨hp, h.cu, h.du.readTo rest⟩
  | readError e => exact ⟨hp, h.cu, h.du.raise e⟩
  | align => exact ⟨hp, h.cu, h.du.align⟩
  | cuValues tmp fh pt ft rt => exact ⟨hp, h.cu.values tmp fh pt ft rt, h.du⟩
  | muBuild hl =>
    simp only [haveLength_cons] at hl
    obtain ⟨-, hinp, -⟩ := hl
    exact ⟨hp, h.cu.muBuild hinp, h.du⟩
  | muMask hl =>
    simp only [haveLength_cons] at hl
    obtain ⟨-, hinp, -, hbuild, -⟩ := hl
    exact ⟨hp, h.cu.muMask hinp hbuild, h.du⟩
  | hwPush hl => exact ⟨hp, h.cu.hwPush ((haveLength_cons _ _ _).mp hl).1, h.du⟩

/-! ## The host's accesses -/

theorem Status.issue_ready_fault (u : CodecUnit) (w : Word) (st : Status) :
    (st.issue u w).ready = st.ready ∧ (st.issue u w).fault = st.fault := by
  unfold Status.issue
  split <;> exact ⟨rfl, rfl⟩

/-- A host write that reaches something of a BUSY unit sets HZD; any other is a write to an idle unit, or nothing. -/
theorem cuWrite_cases (u : Cu) (w : Width) (off : Nat) (v : Word) :
    cuWrite u w off v = { u with st := u.st.hazardous } ∨ cuWrite u w off v = u.hostWrite v (cuTarget w off) := by
  unfold cuWrite
  split
  · rename_i h; rw [h]; exact .inr rfl
  · split
    · exact .inl rfl
    · exact .inr rfl

theorem duWrite_cases (cap : Nat) (u : Du) (w : Width) (off : Nat) (v : Word) :
    duWrite cap u w off v = { u with st := u.st.hazardous }
      ∨ duWrite cap u w off v = u.hostWrite v (duTarget cap w off) := by
  unfold duWrite
  split
  · rename_i h; rw [h]; exact .inr rfl
  · split
    · exact .inl rfl
    · exact .inr rfl

theorem Cu.Inv.hostWrite {u : Cu} (h : u.Inv) (v : Word) (tgt : Target CuReg) : (u.hostWrite v tgt).Inv := by
  cases tgt with
  | nowhere => exact h
  | reg r =>
    cases r with
    | cmd =>
      obtain ⟨hr, hf⟩ := Status.issue_ready_fault .cu v u.st
      exact h.withStatus (by rw [hr, hf]; exact h.not_ready_and_fault)
    | cfgF | cfgR | cfgPt | cfgFt | cfgRt | inLen => exact { h with }
    | status | t | outBits | ptCnt | ftCnt | rtCnt | pktInfo => exact h
  | byte a writable =>
    cases writable with
    | false => exact h
    | true => exact { h with win_wf := Memory.wf_writeByte h.win_wf _ _ }
  | word a writable =>
    cases writable with
    | false => exact h
    | true => exact { h with win_wf := Memory.wf_writeBytes h.win_wf _ _ }

theorem Du.Inv.hostWrite {cap : Nat} {u : Du} (h : u.Inv cap) (v : Word) (tgt : Target DuReg) :
    (u.hostWrite v tgt).Inv cap := by
  cases tgt with
  | nowhere => exact h
  | reg r =>
    cases r with
    | cmd =>
      obtain ⟨hr, hf⟩ := Status.issue_ready_fault .du v u.st
      exact h.withStatus (by rw [hr, hf]; exact h.not_ready_and_fault)
    | cfgF | cfgR | ctrl | streamLen => exact { h with }
    | status | bitPos | numBits | t | pktInfo | lastCountF => exact h
  | byte a writable =>
    cases writable with
    | false => exact h
    | true => exact { h with win_wf := Memory.wf_writeByte h.win_wf _ _ }
  | word a writable =>
    cases writable with
    | false => exact h
    | true => exact { h with win_wf := Memory.wf_writeBytes h.win_wf _ _ }

theorem Cu.Inv.cuWrite {u : Cu} (h : u.Inv) (w : Width) (off : Nat) (v : Word) : (cuWrite u w off v).Inv := by
  rcases cuWrite_cases u w off v with hw | hw <;> rw [hw]
  · exact h.withStatus h.not_ready_and_fault
  · exact h.hostWrite v _

theorem Du.Inv.duWrite {cap : Nat} {u : Du} (h : u.Inv cap) (w : Width) (off : Nat) (v : Word) :
    (duWrite cap u w off v).Inv cap := by
  rcases duWrite_cases cap u w off v with hw | hw <;> rw [hw]
  · exact h.withStatus h.not_ready_and_fault
  · exact h.hostWrite v _

theorem State.Inv.hostAct {s t : State} {a : HostAction} (h : s.Inv) (ha : hostAct s a = .next t) : t.Inv := by
  rcases hostAct_cases ha with ⟨-, rfl⟩ | ⟨w, -, off, -, -, rfl⟩ | ⟨w, -, off, -, -, rfl⟩ | ⟨w, -, v, off, -, -, rfl⟩
    | ⟨w, -, v, off, -, -, rfl⟩
  · exact ⟨h.params_ok, Cu.Inv.reset, Du.Inv.reset _⟩
  · obtain ⟨v, n, hr⟩ := cuRead_frame s w off
    rw [hr]; exact { h with }
  · obtain ⟨v, n, hr⟩ := duRead_frame s w off
    rw [hr]; exact { h with }
  · exact ⟨h.params_ok, h.cu.cuWrite w off v, h.du⟩
  · exact ⟨h.params_ok, h.cu, h.du.duWrite w off v⟩

/-! ## Steps -/

/-- Taking a turn and completing a command change neither the data of a unit nor READY and FAULT. -/
theorem State.Inv.fetch {s s' : State} {c : Code} (h : s.Inv) (hf : s.fetch = some (c, s')) : s'.Inv := by
  rcases fetch_cases hf with ⟨b, -, -, rfl⟩ | ⟨-, -, rfl⟩ | ⟨u, w, -, -, -, -, rfl⟩
  · exact { h with }
  · exact { h with }
  · cases u with
    | cu => exact ⟨h.params_ok, h.cu.withStatus h.cu.not_ready_and_fault, h.du⟩
    | du => exact ⟨h.params_ok, h.cu, h.du.withStatus h.du.not_ready_and_fault⟩

theorem State.Inv.rejected {s t : State} {e : DecodeError} (h : s.Inv) (hr : rejected s e = .next t) : t.Inv := by
  cases e with
  | badCommand u =>
    cases hr
    cases u with
    | cu => exact ⟨h.params_ok, h.cu.report _, h.du⟩
    | du => exact ⟨h.params_ok, h.cu, h.du.report _⟩
  | unknownUop b => cases hr
  | incomplete => cases hr; exact ⟨h.params_ok, h.cu, h.du.raise _⟩

theorem State.Inv.quietStep {s t : State} (h : s.Inv) (hq : quietStep s = .next t) : t.Inv := by
  have hpass : s.passTurn.Inv := { h with }
  rcases quietStep_cases s with ⟨a, rest, -, -, hs⟩ | ⟨-, -, hs⟩ | ⟨u, -, hs⟩ <;> rw [hs] at hq
  · exact State.Inv.hostAct (s := { s.passTurn with host := rest }) { hpass with } hq
  · cases hq; exact hpass
  · cases hq; exact hpass

/-- Settles O54: a step runs one instruction, rejects the bits it fetched, or is the host's, and each keeps the invariant. -/
theorem stepKeepsDataInvariant : Obligations.StepKeepsDataInvariant := by
  intro s t h hstep
  rcases step_cases hstep with ⟨c, s', i, hf, -, hi⟩ | ⟨c, s', e, hf, -, he⟩ | ⟨-, hq⟩
  · exact (h.fetch hf).of_effect (exec_effect hi)
  · exact (h.fetch hf).rejected he
  · exact h.quietStep hq

/-- Settles O53. -/
theorem resetKeepsDataInvariant : Obligations.ResetKeepsDataInvariant :=
  ⟨by decide, Cu.Inv.reset, Du.Inv.reset _⟩

end Sys2Proof.Machine
end

