-- ==== Sys2Proof/Proofs/StatusAndReset.lean ====
section
/-! PROOFS. O1, O43, O51, O59: STATUS, its fields (R35, R45), what sets and clears them (R394 to R398), and reset (R57, R420). -/

namespace Sys2Proof.Machine

/-! ## The fields of a register word -/

theorem flagAt_eq (k : Nat) (b : Bool) : flagAt k b = 2 ^ k * b.toNat := by cases b <;> simp [flagAt]

/-- A bit of a register word is the flag that its number has in that place. -/
theorem getLsbD_of_toNat {w : Nat} {x : BitVec w} {k : Nat} {b : Bool} (h : x.toNat / 2 ^ k % 2 = b.toNat) :
    x.getLsbD k = b := by
  rw [BitVec.getLsbD, Nat.testBit_eq_decide_div_mod_eq, h]
  cases b <;> rfl

theorem ErrCode.number_le (e : ErrCode) : e.number ≤ 6 := by cases e <;> decide

/-- Bits 7 to 0 of STATUS as a number: the fields do not overlap. -/
theorem Status.low_eq (s : Status) : s.low =
    s.busy.toNat + 2 * s.ready.toNat + 4 * s.fault.toNat + 8 * s.hazard.toNat + 16 * s.err.number := by
  simp [Status.low, flagAt_eq]

theorem Status.low_lt (s : Status) : s.low < 2 ^ 8 := by
  have := s.busy.toNat_le; have := s.ready.toNat_le; have := s.fault.toNat_le; have := s.hazard.toNat_le
  have := s.err.number_le
  rw [s.low_eq]
  omega

/-- The four flags of a STATUS word and the code of ERR are where R35 and R45 put them, whatever stands from bit 8 on. -/
theorem statusFields {s : Status} {x : Word} {high : Nat} (hx : x.toNat = s.low + 2 ^ 8 * high) :
    x.getLsbD 0 = s.busy ∧ x.getLsbD 1 = s.ready ∧ x.getLsbD 2 = s.fault ∧ x.getLsbD 3 = s.hazard
      ∧ x.toNat / 16 % 16 = s.err.number := by
  have := s.busy.toNat_le; have := s.ready.toNat_le; have := s.fault.toNat_le; have := s.hazard.toNat_le
  have := s.err.number_le
  rw [s.low_eq] at hx
  refine ⟨getLsbD_of_toNat ?_, getLsbD_of_toNat ?_, getLsbD_of_toNat ?_, getLsbD_of_toNat ?_, ?_⟩ <;> omega

theorem Cu.toNat_statusWord (u : Cu) : u.statusWord.toNat = u.st.low + 2 ^ 8 * u.auto.toNat := by
  have := u.st.low_lt; have := u.auto.toNat_le
  rw [Cu.statusWord, BitVec.toNat_ofNat, flagAt_eq]
  omega

theorem Du.toNat_statusWord (u : Du) : u.statusWord.toNat = u.st.low := by
  have := u.st.low_lt
  rw [Du.statusWord, BitVec.toNat_ofNat]
  omega

/-- Settles O59. -/
theorem statusWordFields : Obligations.StatusWordFields := by
  intro c d code hok hinv hover hunder hready hmal hbad
  have hcode : ∀ e, code e = e.number := by
    rintro (_ | _ | _ | _ | _ | _ | _) <;> assumption
  have hc := c.toNat_statusWord
  have hd := d.toNat_statusWord
  obtain ⟨c0, c1, c2, c3, c4⟩ := statusFields hc
  obtain ⟨d0, d1, d2, d3, d4⟩ := statusFields (high := 0) hd
  have := c.st.low_lt; have := d.st.low_lt; have := c.auto.toNat_le
  rw [hcode, hcode]
  exact ⟨⟨c0, c1, c2, c3, c4, getLsbD_of_toNat (by omega), by omega⟩, d0, d1, d2, d3, d4, by omega⟩

/-! ## Reset -/

/-- After reset only CTRL of the DU reads anything but 0 (R57). -/
theorem readReg_reset : (∀ r, Cu.reset.readReg r = 0) ∧ ∀ r, Du.reset.readReg r = if r = .ctrl then 1 else 0 := by
  constructor
  · rintro (_ | _) <;> rfl
  · rintro (_ | _) <;> rfl

/-- Settles O1. -/
theorem resetFromAnyState : Obligations.ResetFromAnyState := by
  intro s t ht
  have hunits : t.cu = Cu.reset ∧ t.du = Du.reset := by
    rcases List.mem_pair.mp ht with rfl | rfl <;> exact ⟨rfl, rfl⟩
  obtain ⟨hcu, hdu⟩ := hunits
  obtain ⟨hcuRegs, hduRegs⟩ := readReg_reset
  rw [hcu, hdu]
  exact ⟨rfl, hcuRegs, hduRegs, readByte_nil, readByte_nil, rfl, rfl⟩

/-! ## Packet commands that are turned away -/

theorem cPkt_of_not_ready {z nm sm uc : Bool} {u : Cu} (hr : u.st.ready = false) :
    cPkt z nm sm uc u = { u with st := u.st.report .notReady } := by rw [cPkt, if_pos hr]

theorem dPkt_of_not_ready {u : Du} (hr : u.st.ready = false) : dPkt u = { u with st := u.st.report .notReady } := by
  rw [dPkt, if_pos hr]

theorem cPkt_of_wrong_inLen {z nm sm uc : Bool} {u : Cu} (hr : u.st.ready = true)
    (hlen : u.inLen.toNat ≠ byteCount u.fs.toNat) : cPkt z nm sm uc u = u.raise .invalidArgument := by
  rw [cPkt, if_neg (by simp [hr]), if_pos hlen]

/-- Settles O43. -/
theorem packetCommandsTurnedAway : Obligations.PacketCommandsTurnedAway := by
  intro s nm sm uc
  refine ⟨fun hr => ?_, fun hr => ?_, fun hr hlen => ?_⟩
  · rw [exec_cPkt, cPkt_of_not_ready hr]; rfl
  · rw [exec_dPkt, dPkt_of_not_ready hr]; rfl
  · rw [exec_cPkt, cPkt_of_wrong_inLen hr hlen]; rfl

/-! ## Only an INIT clears FAULT and HZD or sets READY -/

/-- FAULT and HZD stay where they are set, and READY is not set (R397). -/
def Status.Sticky (s t : Status) : Prop :=
  (s.fault = true → t.fault = true) ∧ (s.hazard = true → t.hazard = true) ∧ (t.ready = true → s.ready = true)

namespace Status.Sticky

theorem refl (s : Status) : s.Sticky s := ⟨id, id, id⟩

theorem report (s : Status) (e : ErrCode) : s.Sticky (s.report e) := ⟨id, id, id⟩

theorem raise (s : Status) (e : ErrCode) : s.Sticky (s.raise e) := ⟨fun _ => rfl, id, fun h => nomatch h⟩

end Status.Sticky

/-- Whatever a C_PKT does, it makes a report or raises an error (R391, R394). -/
theorem cPkt_sticky (z nm sm uc : Bool) (u : Cu) : u.st.Sticky (cPkt z nm sm uc u).st := by
  rcases cPkt_cases z nm sm uc u with ⟨-, hu⟩ | ⟨-, -, hu⟩ | ⟨-, -, -, hu⟩ | ⟨-, -, u', hemit, hu⟩ <;> rw [hu]
  · exact .report _ _
  · exact .raise _ _
  · exact .raise _ _
  · have hst : u'.st = u.st := by
      rcases cPktEmit_cases (cPktPrepare z nm sm uc u) with ⟨-, he⟩ | ⟨-, he⟩ <;> rw [he] at hemit <;> cases hemit
      exact cPktPrepare_st z nm sm uc u
    rw [cPktCommit_st, hst]
    exact .report _ _

theorem dPkt_sticky (u : Du) : u.st.Sticky (dPkt u).st := by
  rcases dPkt_cases u with ⟨-, hu⟩ | ⟨-, e, -, hu⟩ | ⟨-, k, rest, -, hu⟩ <;> rw [hu]
  · exact .report _ _
  · exact .raise _ _
  · obtain ⟨hst, -⟩ := dPktCommit_fields u k rest
    rw [hst]
    exact .report _ _

theorem dLoad_sticky (cap : Nat) (u : Du) : u.st.Sticky (dLoad cap u).st := by
  unfold dLoad
  split <;> exact .report _ _

theorem orRaise_put_sticky (bits : BitSeq) (u : Cu) : u.st.Sticky (u.orRaise (put bits u)).st := by
  rcases hp : put bits u with e | u'
  · exact .raise _ _
  · obtain ⟨-, rfl⟩ := put_eq_ok.mp hp
    exact .refl _

/-- No effect but an INIT's clears FAULT or HZD of its unit, or sets READY. -/
theorem Effect.sticky {i : Instr} {s t : State} (he : Effect i s t) :
    (i ≠ .cInit → s.cu.st.Sticky t.cu.st) ∧ (i ≠ .dInit → s.du.st.Sticky t.du.st) := by
  cases he with
  | cInit hi => exact ⟨fun h => absurd hi h, fun _ => .refl _⟩
  | dInit hi => exact ⟨fun _ => .refl _, fun h => absurd hi h⟩
  | cPkt nm sm uc => exact ⟨fun _ => cPkt_sticky _ nm sm uc s.cu, fun _ => .refl _⟩
  | put bits => exact ⟨fun _ => orRaise_put_sticky bits s.cu, fun _ => .refl _⟩
  | dLoad => exact ⟨fun _ => .refl _, fun _ => dLoad_sticky _ s.du⟩
  | dPkt => exact ⟨fun _ => .refl _, fun _ => dPkt_sticky s.du⟩
  | dAlign => exact ⟨fun _ => .refl _, fun _ => .report _ _⟩
  | readError e => exact ⟨fun _ => .refl _, fun _ => .raise _ _⟩
  | latches | clear | read | align | cuValues | muBuild | muMask | hwPush => exact ⟨fun _ => .refl _, fun _ => .refl _⟩

/-- Both outcomes of an INIT clear FAULT and HZD (R291, R341, R396). -/
theorem cInit_clears (u : Cu) : (cInit u).st.fault = false ∧ (cInit u).st.hazard = false := by
  unfold cInit
  split <;> exact ⟨rfl, rfl⟩

theorem dInit_clears (u : Du) : (dInit u).st.fault = false ∧ (dInit u).st.hazard = false := by
  unfold dInit
  split <;> exact ⟨rfl, rfl⟩

/-- Settles O51. -/
theorem onlyInitClearsFault : Obligations.OnlyInitClearsFault := by
  refine ⟨fun i s t h => (exec_effect h).sticky, fun s => ?_⟩
  obtain ⟨hcf, hch⟩ := cInit_clears s.cu
  obtain ⟨hdf, hdh⟩ := dInit_clears s.du
  exact ⟨{ s with cu := cInit s.cu }, { s with du := dInit s.du }, rfl, hcf, hch, rfl, hdf, hdh⟩

end Sys2Proof.Machine
end

