-- ==== Sys2Proof/Proofs/CompressorState.lean ====
section
/-! PROOFS. O41, O45, O46: what a C_PKT leaves of the CU's state, and the flags of its packet in PKT_INFO (R43, R295, R296). -/

namespace Sys2Proof.Machine

/-! ## The two outcomes of a C_PKT -/

/-- The packet `h_t q_t u_t` (R110). -/
def packetBits (u : Cu) : BitSeq := headerBits u ++ maskBits u ++ dataBits u

/-- The unit with its packet in the buffer: what the emission leaves (R300). -/
def Cu.withPacket (u : Cu) : Cu := { u with obuf := packetBits u }

@[simp] theorem Cu.withPacket_obuf (u : Cu) : u.withPacket.obuf = packetBits u := rfl
@[simp] theorem Cu.withPacket_fs (u : Cu) : u.withPacket.fs = u.fs := rfl
@[simp] theorem Cu.withPacket_ptCnt (u : Cu) : u.withPacket.ptCnt = u.ptCnt := rfl
@[simp] theorem Cu.withPacket_ftCnt (u : Cu) : u.withPacket.ftCnt = u.ftCnt := rfl
@[simp] theorem Cu.withPacket_rtCnt (u : Cu) : u.withPacket.rtCnt = u.rtCnt := rfl
@[simp] theorem Cu.withPacket_win (u : Cu) : u.withPacket.win = u.win := rfl
@[simp] theorem Cu.withPacket_tmp (u : Cu) : u.withPacket.tmp = u.tmp := rfl

/-- A C_PKT changes STATUS alone, BUSY and HZD staying, or emits its packet within the buffer's capacity and commits it. -/
theorem cPkt_outcomes (z nm sm uc : Bool) (u : Cu) :
    (∃ st : Status, st.cmd = u.st.cmd ∧ st.hazard = u.st.hazard ∧ cPkt z nm sm uc u = { u with st := st })
      ∨ ((packetBits (cPktPrepare z nm sm uc u)).length ≤ 48 * u.fs.toNat
        ∧ cPkt z nm sm uc u = cPktCommit (cPktPrepare z nm sm uc u).withPacket) := by
  rcases cPkt_cases z nm sm uc u with ⟨-, hu⟩ | ⟨-, -, hu⟩ | ⟨-, -, -, hu⟩ | ⟨-, -, u', hemit, hu⟩
  · exact .inl ⟨u.st.report .notReady, rfl, rfl, hu⟩
  · exact .inl ⟨u.st.raise .invalidArgument, rfl, rfl, hu⟩
  · exact .inl ⟨u.st.raise .overflow, rfl, rfl, hu⟩
  · rcases cPktEmit_cases (cPktPrepare z nm sm uc u) with ⟨hlen, he⟩ | ⟨-, he⟩ <;> rw [he] at hemit <;> cases hemit
    rw [cPktPrepare_obuf] at hlen hu
    rw [List.nil_append] at hu
    rw [cPktPrepare_fs, List.length_nil, Nat.zero_add] at hlen
    exact .inr ⟨hlen, hu⟩

/-- A C_PKT of a ready unit with the right IN_LEN that ends with ERR = OK has committed its packet (R308). -/
theorem cPkt_of_ok {s t : State} {nm sm uc : Bool} (hr : s.cu.st.ready = true)
    (hlen : s.cu.inLen.toNat = (s.cu.fs.toNat + 7) / 8) (hexec : exec (.cPkt nm sm uc) s = .next t)
    (hok : t.cu.st.err = .ok) :
    t.cu = cPktCommit (cPktPrepare s.params.preHistoryZero nm sm uc s.cu).withPacket := by
  rw [exec_cPkt] at hexec
  cases hexec
  have hcommit := cPkt_eq_commit hr hlen hok
  rw [cPktPrepare_obuf, List.nil_append] at hcommit
  exact hcommit

/-- A buffer within its capacity has a length that OUT_BITS holds exactly (R41, R170). -/
theorem toNat_outBits {u : Cu} (h : u.obuf.length ≤ 48 * u.fs.toNat) : (cPktCommit u).outBits.toNat = u.obuf.length := by
  have := u.fs.isLt
  rw [cPktCommit_outBits, BitVec.toNat_ofNat]
  omega

/-- Outside the OUT bytes that OUT_BITS counts a committed packet leaves the windows as they are (R73, R75). -/
theorem readByte_of_committed {z nm sm uc : Bool} {u : Cu}
    (hlen : (packetBits (cPktPrepare z nm sm uc u)).length ≤ 48 * u.fs.toNat) (a : Nat)
    (ha : ¬(cuOut ≤ a ∧ a < cuOut + byteCount (cPktCommit (cPktPrepare z nm sm uc u).withPacket).outBits.toNat)) :
    readByte (cPktCommit (cPktPrepare z nm sm uc u).withPacket).win a = readByte u.win a := by
  rw [toNat_outBits (by simpa using hlen)] at ha
  rw [cPktCommit_win, readByte_writeBytes, length_packBits, if_neg ha, Cu.withPacket_win, cPktPrepare_win]

/-- In manual mode the preparation leaves the counters (R25, R296). -/
theorem cPktPrepare_counters_of_manual (z nm sm uc : Bool) {u : Cu} (hmanual : u.auto = false) :
    (cPktPrepare z nm sm uc u).ptCnt = u.ptCnt ∧ (cPktPrepare z nm sm uc u).ftCnt = u.ftCnt
      ∧ (cPktPrepare z nm sm uc u).rtCnt = u.rtCnt := by
  rw [cPktPrepare_ptCnt, cPktPrepare_ftCnt, cPktPrepare_rtCnt, cPktInput_of_manual nm sm uc u hmanual]
  exact ⟨rfl, rfl, rfl⟩

/-- Settles O41. -/
theorem compressionFrame : Obligations.CompressionFrame := by
  intro s t nm sm uc hexec
  rw [exec_cPkt] at hexec
  cases hexec
  refine ⟨rfl, ?_⟩
  dsimp only
  rcases cPkt_outcomes s.params.preHistoryZero nm sm uc s.cu with ⟨st, hcmd, hhzd, hu⟩ | ⟨hlen, hu⟩ <;> rw [hu]
  · exact ⟨rfl, rfl, rfl, rfl, rfl, rfl, rfl, rfl, rfl, rfl, rfl, rfl, hcmd, hhzd, fun _ => ⟨rfl, rfl, rfl⟩, fun _ _ => rfl⟩
  · have hframe := cPktPrepare_frame s.params.preHistoryZero nm sm uc s.cu
    have hcounters := @cPktPrepare_counters_of_manual s.params.preHistoryZero nm sm uc s.cu
    have hwindows := readByte_of_committed hlen
    generalize cPktPrepare s.params.preHistoryZero nm sm uc s.cu = prepared at hframe hcounters hwindows ⊢
    obtain ⟨m, b, h, pt, ft, rt, tmp, hprepared⟩ := hframe
    refine ⟨?_, ?_, ?_, ?_, ?_, ?_, ?_, ?_, ?_, ?_, ?_, ?_, ?_, ?_, hcounters, hwindows⟩ <;> rw [hprepared] <;> rfl

/-! ## The flags of a packet -/

/-- PKT_INFO of a committed packet holds its flags in bits 8, 9 and 10, d in bit 7, and nothing above (R43). -/
theorem pktInfoWord_flags (v : BitVec 4) (ePresent e c d p f r : Bool) :
    (pktInfoWord v ePresent e c d p f r).getLsbD 8 = p ∧ (pktInfoWord v ePresent e c d p f r).getLsbD 9 = f
      ∧ (pktInfoWord v ePresent e c d p f r).getLsbD 10 = r ∧ (pktInfoWord v ePresent e c d p f r).getLsbD 7 = d
      ∧ (pktInfoWord v ePresent e c d p f r).toNat < 2 ^ 11 := by
  have hword := toNat_pktInfoWord v ePresent e c d p f r
  simp only [flagAt_eq] at hword
  have := v.isLt; have := ePresent.toNat_le; have := e.toNat_le; have := c.toNat_le; have := d.toNat_le
  have := p.toNat_le; have := f.toNat_le; have := r.toNat_le
  refine ⟨getLsbD_of_toNat ?_, getLsbD_of_toNat ?_, getLsbD_of_toNat ?_, getLsbD_of_toNat ?_, ?_⟩ <;> omega

/-- PKT_INFO after the commit (R308). -/
theorem cPktCommit_pktInfo (u : Cu) : (cPktCommit u).pktInfo =
    pktInfoWord u.tmp.veff (eFlag u).isSome ((eFlag u).getD false) u.tmp.ct (dFlag u) u.tmp.p u.tmp.f u.tmp.r := rfl

/-- PKT_INFO of a packet that a C_PKT has committed, from the flags it was prepared with. -/
theorem pktInfo_flags_of_ok {s t : State} {nm sm uc : Bool} {tmp : CuTemps} (hr : s.cu.st.ready = true)
    (hlen : s.cu.inLen.toNat = (s.cu.fs.toNat + 7) / 8) (hexec : exec (.cPkt nm sm uc) s = .next t)
    (hok : t.cu.st.err = .ok) (htmp : (cPktInput nm sm uc s.cu).tmp = tmp) :
    t.cu.pktInfo.getLsbD 8 = tmp.p ∧ t.cu.pktInfo.getLsbD 9 = tmp.f ∧ t.cu.pktInfo.getLsbD 10 = tmp.r
      ∧ t.cu.pktInfo.getLsbD 7 = (!tmp.f && !tmp.r) ∧ t.cu.pktInfo.toNat < 2 ^ 11 := by
  rw [cPkt_of_ok hr hlen hexec hok, cPktCommit_pktInfo]
  simpa [dFlag, cPktPrepare_p, cPktPrepare_f, cPktPrepare_r, htmp] using pktInfoWord_flags _ _ _ _ _ _ _ _

/-- The counters after a C_PKT are those its flags were made with. -/
theorem counters_of_ok {s t : State} {nm sm uc : Bool} (hr : s.cu.st.ready = true)
    (hlen : s.cu.inLen.toNat = (s.cu.fs.toNat + 7) / 8) (hexec : exec (.cPkt nm sm uc) s = .next t)
    (hok : t.cu.st.err = .ok) :
    t.cu.ptCnt = (cPktInput nm sm uc s.cu).ptCnt ∧ t.cu.ftCnt = (cPktInput nm sm uc s.cu).ftCnt
      ∧ t.cu.rtCnt = (cPktInput nm sm uc s.cu).rtCnt := by
  rw [cPkt_of_ok hr hlen hexec hok]
  simp [cPktPrepare_ptCnt, cPktPrepare_ftCnt, cPktPrepare_rtCnt]

/-- Settles O45. -/
theorem manualFlagsInPacketInfo : Obligations.ManualFlagsInPacketInfo := by
  intro s t nm sm uc hr hmanual hlen hexec hok
  exact pktInfo_flags_of_ok hr hlen hexec hok (congrArg Cu.tmp (cPktInput_of_manual nm sm uc s.cu hmanual))

/-- A counter that is not 0 fires at 1 and is reloaded, and else counts down (R295). -/
theorem countdown_of_ne_zero {cnt : Word} (limit : Word) (h : cnt ≠ 0) :
    (countdown cnt limit).1 = (cnt == 1)
      ∧ (countdown cnt limit).2.toNat = if cnt = 1 then limit.toNat else cnt.toNat - 1 := by
  unfold countdown
  split
  · rename_i h1; simp [h1]
  · rename_i h1
    refine ⟨(beq_eq_false_iff_ne.mpr h1).symm, ?_⟩
    show (cnt - 1).toNat = _
    bv_omega

/-- Settles O46: the flags and the counters are those of AP.NEXT. -/
theorem initialisationPacketsForced : Obligations.InitialisationPacketsForced := by
  intro s t nm sm uc hr hauto hlen hexec hok
  have hinput := cPktInput_of_auto nm sm uc s.cu hauto
  obtain ⟨hp, hf, hrt, -⟩ := pktInfo_flags_of_ok hr hlen hexec hok (congrArg Cu.tmp hinput)
  obtain ⟨hpt, hft, hrtCnt⟩ := counters_of_ok hr hlen hexec hok
  rw [hinput] at hpt hft hrtCnt
  rw [hp, hf, hrt, hpt, hft, hrtCnt]
  constructor
  · intro hle
    rw [apNext, if_pos hle]
    exact ⟨rfl, rfl, rfl, rfl, rfl, rfl⟩
  · intro hlt hp0 hf0 hr0
    rw [apNext, if_neg (Nat.not_le.mpr hlt)]
    obtain ⟨hp1, hp2⟩ := countdown_of_ne_zero s.cu.ptL hp0
    obtain ⟨hf1, hf2⟩ := countdown_of_ne_zero s.cu.ftL hf0
    obtain ⟨hr1, hr2⟩ := countdown_of_ne_zero s.cu.rtL hr0
    exact ⟨hp1, hf1, hr1, hp2, hf2, hr2⟩

end Sys2Proof.Machine
end

