-- ==== Sys2Proof/Proofs/RegisterAccess.lean ====
section
/-! PROOFS. O56, O57: the registers as the host reads and writes them (R34, R44), and the accesses that do nothing (R77). -/

namespace Sys2Proof.Machine

/-! ## The register maps -/

/-- The region offset of a CU register (R34). -/
def CuReg.offset : CuReg → Nat
  | .cmd => 0x000
  | .status => 0x004
  | .cfgF => 0x008
  | .cfgR => 0x00C
  | .cfgPt => 0x010
  | .cfgFt => 0x014
  | .cfgRt => 0x018
  | .inLen => 0x01C
  | .t => 0x020
  | .outBits => 0x024
  | .ptCnt => 0x028
  | .ftCnt => 0x02C
  | .rtCnt => 0x030
  | .pktInfo => 0x034

/-- The region offset of a DU register (R44). -/
def DuReg.offset : DuReg → Nat
  | .cmd => 0x000
  | .status => 0x004
  | .cfgF => 0x008
  | .cfgR => 0x00C
  | .ctrl => 0x010
  | .streamLen => 0x014
  | .bitPos => 0x018
  | .numBits => 0x01C
  | .t => 0x020
  | .pktInfo => 0x024
  | .lastCountF => 0x028

/-- The map finds a register at its own offset and nowhere else. -/
theorem cuRegAt_eq_some {off : Nat} {r : CuReg} : cuRegAt off = some r ↔ off = r.offset := by
  constructor
  · intro h
    unfold cuRegAt at h
    split at h <;> cases h <;> rfl
  · rintro rfl
    cases r <;> rfl

theorem duRegAt_eq_some {off : Nat} {r : DuReg} : duRegAt off = some r ↔ off = r.offset := by
  constructor
  · intro h
    unfold duRegAt at h
    split at h <;> cases h <;> rfl
  · rintro rfl
    cases r <;> rfl

theorem CuReg.offset_lt (r : CuReg) : r.offset < 0x38 := by cases r <;> decide

theorem DuReg.offset_lt (r : DuReg) : r.offset < 0x2C := by cases r <;> decide

theorem cuTarget_offset (r : CuReg) : cuTarget .word r.offset = .reg r := by cases r <;> rfl

theorem duTarget_offset (cap : Nat) (r : DuReg) : duTarget cap .word r.offset = .reg r := by cases r <;> rfl

/-! ## The windows -/

theorem cuWindowAt_eq_some {off : Nat} {writable : Bool} : cuWindowAt off = some writable ↔
    (writable = true ∧ 0x1000 ≤ off ∧ off < 0x5000) ∨ (writable = false ∧ 0x10000 ≤ off ∧ off < 0x70000) := by
  unfold cuWindowAt
  split
  · cases writable <;> simp <;> omega
  · split
    · cases writable <;> simp <;> omega
    · simp only [reduceCtorEq, false_iff]; omega

theorem duWindowAt_eq_some {cap off : Nat} {writable : Bool} : duWindowAt cap off = some writable ↔
    (writable = false ∧ 0x3000 ≤ off ∧ off < 0x5000)
      ∨ (writable = true ∧ 0x10000 ≤ off ∧ off < 0x70000 ∧ off < 0x10000 + cap) := by
  unfold duWindowAt
  split
  · cases writable <;> simp <;> omega
  · split
    · cases writable <;> simp <;> omega
    · simp only [reduceCtorEq, false_iff]; omega

/-! ## What an access reaches -/

/-- Everything an access can reach: nothing, a register by an aligned 32-bit access, a window byte by an 8-bit access, or
window bytes by an aligned 32-bit access (R76, R77). -/
theorem target_cases {ρ : Type} (regAt : Nat → Option ρ) (windowAt : Nat → Option Bool) (w : Width) (off : Nat) :
    target regAt windowAt w off = .nowhere
      ∨ (∃ r, w = .word ∧ off % 4 = 0 ∧ off < 0x1000 ∧ regAt off = some r ∧ target regAt windowAt w off = .reg r)
      ∨ (∃ b, w = .byte ∧ windowAt off = some b ∧ target regAt windowAt w off = .byte off b)
      ∨ (∃ b, w = .word ∧ off % 4 = 0 ∧ 0x1000 ≤ off ∧ windowAt off = some b
        ∧ target regAt windowAt w off = .word off b) := by
  cases w with
  | half => exact .inl rfl
  | other => exact .inl rfl
  | byte =>
    rcases hb : windowAt off with _ | b
    · exact .inl (by simp [target, hb])
    · exact .inr (.inr (.inl ⟨b, rfl, rfl, by simp [target, hb]⟩))
  | word =>
    by_cases ha : off % 4 = 0
    · by_cases hreg : off < 0x1000
      · rcases hr : regAt off with _ | r
        · exact .inl (by simp [target, ha, hreg, hr])
        · exact .inr (.inl ⟨r, rfl, ha, hreg, rfl, by simp [target, ha, hreg, hr]⟩)
      · rcases hb : windowAt off with _ | b
        · exact .inl (by simp [target, ha, hreg, hb])
        · rcases he : windowAt (off + 3) with _ | e
          · exact .inl (by simp [target, ha, hreg, hb, he])
          · exact .inr (.inr (.inr ⟨b, rfl, ha, by omega, rfl, by simp [target, ha, hreg, hb, he]⟩))
    · exact .inl (by simp [target, ha])

/-! ## Accesses to the two regions -/

section Access

variable {s : State} {off : Nat}

theorem hostAct_read_cu (w : Width) (h : off < regionBytes) :
    hostAct s (.read w (s.params.cBase + off)) = .next (cuRead s w off) := by
  rw [hostAct, locate_cu h]

theorem hostAct_write_cu (w : Width) (v : Word) (h : off < regionBytes) :
    hostAct s (.write w (s.params.cBase + off) v) = .next { s with cu := cuWrite s.cu w off v } := by
  rw [hostAct, locate_cu h]

theorem hostAct_read_du (hp : s.params.ok = true) (w : Width) (h : off < regionBytes) :
    hostAct s (.read w (s.params.dBase + off)) = .next (duRead s w off) := by
  rw [hostAct, locate_du hp h]

theorem hostAct_write_du (hp : s.params.ok = true) (w : Width) (v : Word) (h : off < regionBytes) :
    hostAct s (.write w (s.params.dBase + off) v) = .next { s with du := duWrite s.params.streamCap s.du w off v } := by
  rw [hostAct, locate_du hp h]

/-- A write to an idle unit goes to what it reaches (R76). -/
theorem cuWrite_of_idle {u : Cu} (hb : u.st.busy = false) (w : Width) (off : Nat) (v : Word) :
    cuWrite u w off v = u.hostWrite v (cuTarget w off) := by
  unfold cuWrite
  split
  · rename_i h; rw [h]; rfl
  · rw [if_neg (by simp [hb])]

theorem duWrite_of_idle {cap : Nat} {u : Du} (hb : u.st.busy = false) (w : Width) (off : Nat) (v : Word) :
    duWrite cap u w off v = u.hostWrite v (duTarget cap w off) := by
  unfold duWrite
  split
  · rename_i h; rw [h]; rfl
  · rw [if_neg (by simp [hb])]

/-- A 32-bit write to a register of an idle unit at the unit's base and the register's offset (R34). -/
theorem hostAct_write_cuReg (hb : s.cu.st.busy = false) (r : CuReg) (v : Word) :
    hostAct s (.write .word (s.params.cBase + r.offset) v) = .next { s with cu := s.cu.writeReg v r } := by
  have := r.offset_lt
  rw [hostAct_write_cu .word v (by unfold regionBytes; omega), cuWrite_of_idle hb, cuTarget_offset]
  rfl

theorem hostAct_write_duReg (hp : s.params.ok = true) (hb : s.du.st.busy = false) (r : DuReg) (v : Word) :
    hostAct s (.write .word (s.params.dBase + r.offset) v) = .next { s with du := s.du.writeReg v r } := by
  have := r.offset_lt
  rw [hostAct_write_du hp .word v (by unfold regionBytes; omega), duWrite_of_idle hb, duTarget_offset]
  rfl

/-- A 32-bit read of a register of an idle unit gives the register's value and changes nothing else (R34). -/
theorem hostAct_read_cuReg (hb : s.cu.st.busy = false) (r : CuReg) :
    hostAct s (.read .word (s.params.cBase + r.offset)) = .next { s with readData := s.cu.readReg r } := by
  have := r.offset_lt
  rw [hostAct_read_cu .word (by unfold regionBytes; omega), cuRead, cuTarget_offset]
  cases r <;> simp [hb] <;> rfl

theorem hostAct_read_duReg (hp : s.params.ok = true) (hb : s.du.st.busy = false) (r : DuReg) :
    hostAct s (.read .word (s.params.dBase + r.offset)) = .next { s with readData := s.du.readReg r } := by
  have := r.offset_lt
  rw [hostAct_read_du hp .word (by unfold regionBytes; omega), duRead, duTarget_offset]
  cases r <;> simp [hb] <;> rfl

/-- What a write leaves in a register of an idle unit is what a read of it then gives. -/
theorem hostAct_cuReg_readsBack (hb : s.cu.st.busy = false) (r : CuReg) (v : Word) {x : Word}
    (hb' : (s.cu.writeReg v r).st.busy = false) (hx : (s.cu.writeReg v r).readReg r = x) :
    hostAct s (.write .word (s.params.cBase + r.offset) v) = .next { s with cu := s.cu.writeReg v r }
      ∧ hostAct { s with cu := s.cu.writeReg v r } (.read .word (s.params.cBase + r.offset)) =
        .next { s with cu := s.cu.writeReg v r, readData := x } := by
  subst hx
  exact ⟨hostAct_write_cuReg hb r v, hostAct_read_cuReg (s := { s with cu := s.cu.writeReg v r }) hb' r⟩

theorem hostAct_duReg_readsBack (hp : s.params.ok = true) (hb : s.du.st.busy = false) (r : DuReg) (v : Word) {x : Word}
    (hb' : (s.du.writeReg v r).st.busy = false) (hx : (s.du.writeReg v r).readReg r = x) :
    hostAct s (.write .word (s.params.dBase + r.offset) v) = .next { s with du := s.du.writeReg v r }
      ∧ hostAct { s with du := s.du.writeReg v r } (.read .word (s.params.dBase + r.offset)) =
        .next { s with du := s.du.writeReg v r, readData := x } := by
  subst hx
  exact ⟨hostAct_write_duReg hp hb r v, hostAct_read_duReg (s := { s with du := s.du.writeReg v r }) hp hb' r⟩

end Access

/-! ## Registers read back -/

theorem flagAt_zero_getLsbD (v : Word) : flagAt 0 (v.getLsbD 0) = v.toNat % 2 := by
  rw [BitVec.getLsbD, Nat.testBit_zero, flagAt_eq]
  rcases Nat.mod_two_eq_zero_or_one v.toNat with h | h <;> simp [h]

/-- Settles O56. -/
theorem configurationReadsBack : Obligations.ConfigurationReadsBack := by
  intro s v off hp
  refine ⟨fun hb u hu => ?_, fun hb u hu => ?_, fun hb u hu => ?_, fun hb x hx => ?_, fun hb x hx => ?_⟩
  · simp only [List.mem_cons, Prod.mk.injEq, List.not_mem_nil, or_false] at hu
    rcases hu with ⟨rfl, rfl⟩ | ⟨rfl, rfl⟩ | ⟨rfl, rfl⟩ | ⟨rfl, rfl⟩ | ⟨rfl, rfl⟩ | ⟨rfl, rfl⟩
    · exact hostAct_cuReg_readsBack hb .cfgF v hb rfl
    · exact hostAct_cuReg_readsBack hb .cfgR v hb rfl
    · exact hostAct_cuReg_readsBack hb .cfgPt v hb rfl
    · exact hostAct_cuReg_readsBack hb .cfgFt v hb rfl
    · exact hostAct_cuReg_readsBack hb .cfgRt v hb rfl
    · exact hostAct_cuReg_readsBack hb .inLen v hb rfl
  · simp only [List.mem_cons, Prod.mk.injEq, List.not_mem_nil, or_false] at hu
    rcases hu with ⟨rfl, rfl⟩ | ⟨rfl, rfl⟩ | ⟨rfl, rfl⟩
    · exact hostAct_duReg_readsBack hp hb .cfgF v hb rfl
    · exact hostAct_duReg_readsBack hp hb .cfgR v hb rfl
    · exact hostAct_duReg_readsBack hp hb .streamLen v hb rfl
  · subst hu
    exact hostAct_duReg_readsBack hp hb .ctrl v hb (congrArg (BitVec.ofNat 32) (flagAt_zero_getLsbD v))
  · simp only [List.mem_cons, Prod.mk.injEq, List.not_mem_nil, or_false] at hx
    have hread := fun r : CuReg => hostAct_read_cuReg hb r
    rcases hx with ⟨rfl, rfl⟩ | ⟨rfl, rfl⟩ | ⟨rfl, rfl⟩ | ⟨rfl, rfl⟩ | ⟨rfl, rfl⟩ | ⟨rfl, rfl⟩ | ⟨rfl, rfl⟩ | ⟨rfl, rfl⟩
      | ⟨rfl, rfl⟩ | ⟨rfl, rfl⟩ | ⟨rfl, rfl⟩ | ⟨rfl, rfl⟩ | ⟨rfl, rfl⟩ | ⟨rfl, rfl⟩
    exacts [hread .cmd, hread .status, hread .cfgF, hread .cfgR, hread .cfgPt, hread .cfgFt, hread .cfgRt, hread .inLen,
      hread .t, hread .outBits, hread .ptCnt, hread .ftCnt, hread .rtCnt, hread .pktInfo]
  · simp only [List.mem_cons, Prod.mk.injEq, List.not_mem_nil, or_false] at hx
    have hread := fun r : DuReg => hostAct_read_duReg hp hb r
    have hctrl : BitVec.ofNat 32 s.du.autoAlign.toNat = s.du.readReg .ctrl := by simp [Du.readReg, flagAt_eq]
    rcases hx with ⟨rfl, rfl⟩ | ⟨rfl, rfl⟩ | ⟨rfl, rfl⟩ | ⟨rfl, rfl⟩ | ⟨rfl, rfl⟩ | ⟨rfl, rfl⟩ | ⟨rfl, rfl⟩ | ⟨rfl, rfl⟩
      | ⟨rfl, rfl⟩ | ⟨rfl, rfl⟩ | ⟨rfl, rfl⟩
    exacts [hread .cmd, hread .status, hread .cfgF, hread .cfgR, hctrl ▸ hread .ctrl, hread .streamLen, hread .bitPos,
      hread .numBits, hread .t, hread .pktInfo, hread .lastCountF]

/-! ## Accesses that do nothing -/

/-- The accesses of R77 that reach nothing of the CU. -/
theorem cuTarget_eq_nowhere {w : Width} {off : Nat} (h : w = .half ∨ w = .other ∨ (w = .word ∧ off % 4 ≠ 0)
    ∨ (w = .byte ∧ off < 0x1000) ∨ (0x38 ≤ off ∧ off < 0x1000) ∨ (0x5000 ≤ off ∧ off < 0x10000) ∨ 0x70000 ≤ off) :
    cuTarget w off = .nowhere := by
  rcases target_cases cuRegAt cuWindowAt w off with ht | ⟨r, rfl, ha, hlt, hr, -⟩ | ⟨b, rfl, hb, -⟩ | ⟨b, rfl, ha, hge, hb, -⟩
  · exact ht
  · have := r.offset_lt
    rw [cuRegAt_eq_some] at hr
    simp only [reduceCtorEq, true_and, false_and, false_or] at h
    omega
  · rw [cuWindowAt_eq_some] at hb
    simp only [reduceCtorEq, true_and, false_and, false_or] at h
    omega
  · rw [cuWindowAt_eq_some] at hb
    simp only [reduceCtorEq, true_and, false_and, false_or] at h
    omega

/-- The accesses of R77 that reach nothing of the DU. -/
theorem duTarget_eq_nowhere {cap : Nat} {w : Width} {off : Nat} (h : w = .half ∨ w = .other ∨ (w = .word ∧ off % 4 ≠ 0)
    ∨ (w = .byte ∧ off < 0x1000) ∨ (0x2C ≤ off ∧ off < 0x3000) ∨ (0x5000 ≤ off ∧ off < 0x10000)
    ∨ 0x10000 + cap ≤ off) : duTarget cap w off = .nowhere := by
  rcases target_cases duRegAt (duWindowAt cap) w off with ht | ⟨r, rfl, ha, hlt, hr, -⟩ | ⟨b, rfl, hb, -⟩
    | ⟨b, rfl, ha, hge, hb, -⟩
  · exact ht
  · have := r.offset_lt
    rw [duRegAt_eq_some] at hr
    simp only [reduceCtorEq, true_and, false_and, false_or] at h
    omega
  · rw [duWindowAt_eq_some] at hb
    simp only [reduceCtorEq, true_and, false_and, false_or] at h
    omega
  · rw [duWindowAt_eq_some] at hb
    simp only [reduceCtorEq, true_and, false_and, false_or] at h
    omega

/-- An access that reaches nothing reads 0 and writes nothing, also where the unit is BUSY (R77). -/
theorem cuAccess_nowhere {w : Width} {off : Nat} (h : cuTarget w off = .nowhere) (s : State) (v : Word) :
    cuRead s w off = { s with readData := 0 } ∧ cuWrite s.cu w off v = s.cu := by
  simp [cuRead, cuWrite, h, State.returns]

theorem duAccess_nowhere {w : Width} {off : Nat} {s : State} (h : duTarget s.params.streamCap w off = .nowhere)
    (v : Word) : duRead s w off = { s with readData := 0 } ∧ duWrite s.params.streamCap s.du w off v = s.du := by
  simp [duRead, duWrite, h, State.returns]

/-- A write to a read-only register or window of an idle CU changes nothing (R34, R77). -/
theorem cuWrite_readOnly {u : Cu} (hb : u.st.busy = false) {off : Nat}
    (h : off = 0x4 ∨ (0x20 ≤ off ∧ off < 0x1000) ∨ 0x10000 ≤ off) (w : Width) (v : Word) : cuWrite u w off v = u := by
  rw [cuWrite_of_idle hb]
  rcases target_cases cuRegAt cuWindowAt w off with ht | ⟨r, rfl, ha, hlt, hr, ht⟩ | ⟨b, rfl, hw, ht⟩
    | ⟨b, rfl, ha, hge, hw, ht⟩ <;> rw [cuTarget, ht]
  · rfl
  · rw [cuRegAt_eq_some] at hr
    subst hr
    cases r with
    | status | t | outBits | ptCnt | ftCnt | rtCnt | pktInfo => rfl
    | cmd | cfgF | cfgR | cfgPt | cfgFt | cfgRt | inLen => simp [CuReg.offset] at h
  · obtain ⟨rfl, hlo, hhi⟩ | ⟨rfl, -⟩ := cuWindowAt_eq_some.mp hw
    · omega
    · rfl
  · obtain ⟨rfl, hlo, hhi⟩ | ⟨rfl, -⟩ := cuWindowAt_eq_some.mp hw
    · omega
    · rfl

/-- A write to a read-only register or window of an idle DU changes nothing (R44, R77). -/
theorem duWrite_readOnly {cap : Nat} {u : Du} (hb : u.st.busy = false) {off : Nat}
    (h : off = 0x4 ∨ (0x18 ≤ off ∧ off < 0x10000)) (w : Width) (v : Word) : duWrite cap u w off v = u := by
  rw [duWrite_of_idle hb]
  rcases target_cases duRegAt (duWindowAt cap) w off with ht | ⟨r, rfl, ha, hlt, hr, ht⟩ | ⟨b, rfl, hw, ht⟩
    | ⟨b, rfl, ha, hge, hw, ht⟩ <;> rw [duTarget, ht]
  · rfl
  · rw [duRegAt_eq_some] at hr
    subst hr
    cases r with
    | status | bitPos | numBits | t | pktInfo | lastCountF => rfl
    | cmd | cfgF | cfgR | ctrl | streamLen => simp [DuReg.offset] at h
  · obtain ⟨rfl, -⟩ | ⟨rfl, hlo, hhi, -⟩ := duWindowAt_eq_some.mp hw
    · rfl
    · omega
  · obtain ⟨rfl, -⟩ | ⟨rfl, hlo, hhi, -⟩ := duWindowAt_eq_some.mp hw
    · rfl
    · omega

/-- Settles O57. -/
theorem unsupportedAccessesDoNothing : Obligations.UnsupportedAccessesDoNothing := by
  intro s w off v hp hoff
  refine ⟨fun h => ?_, fun h => ?_, fun hb h => ?_, fun hb h => ?_⟩
  · obtain ⟨hread, hwrite⟩ := cuAccess_nowhere (cuTarget_eq_nowhere h) s v
    rw [hostAct_read_cu w hoff, hostAct_write_cu w v hoff, hread, hwrite]
    exact ⟨rfl, rfl⟩
  · obtain ⟨hread, hwrite⟩ := duAccess_nowhere (duTarget_eq_nowhere h) v
    rw [hostAct_read_du hp w hoff, hostAct_write_du hp w v hoff, hread, hwrite]
    exact ⟨rfl, rfl⟩
  · rw [hostAct_write_cu w v hoff, cuWrite_readOnly hb h]
  · rw [hostAct_write_du hp w v hoff, duWrite_readOnly hb h]

end Sys2Proof.Machine
end

