-- ==== Sys2Proof/Proofs/MaskPositions.lean ====
section
/-! PROOFS. The set positions of a mask, and bit extraction as reading a vector at them (R220, R221). -/

namespace Sys2Proof.Machine

/-- The positions of the one bits of a vector, in ascending order. -/
def setPositions (m : BitSeq) : List Nat := (List.range m.length).filter fun i => m.getD i false

theorem mem_setPositions {m : BitSeq} {i : Nat} : i ∈ setPositions m ↔ m.getD i false = true := by
  simp only [setPositions, List.mem_filter, List.mem_range, and_iff_right_iff_imp]
  intro h
  by_contra hlt
  simp [List.getD_eq_getElem?_getD, List.getElem?_eq_none (Nat.le_of_not_lt hlt)] at h

theorem lt_of_mem_setPositions {m : BitSeq} {i : Nat} (h : i ∈ setPositions m) : i < m.length := by
  simp only [setPositions, List.mem_filter, List.mem_range] at h
  exact h.1

theorem setPositions_cons (b : Bool) (m : BitSeq) :
    setPositions (b :: m) = (if b = true then [0] else []) ++ (setPositions m).map (· + 1) := by
  simp only [setPositions, List.length_cons, List.range_succ_eq_map, List.filter_cons, List.filter_map]
  cases b <;> rfl

/-- A set of positions given by a predicate is that of the vector with these bits. -/
theorem filter_range_eq_setPositions {m : BitSeq} {n : Nat} {p : Nat → Bool} (hm : m.length = n)
    (h : ∀ i < n, p i = m.getD i false) : (List.range n).filter p = setPositions m := by
  subst hm
  exact List.filter_congr fun i hi => h i (List.mem_range.mp hi)

theorem anySet_eq_true_iff_setPositions (m : BitSeq) : anySet m = true ↔ setPositions m ≠ [] := by
  rw [anySet_iff, ne_eq, List.eq_nil_iff_forall_not_mem]
  simp only [mem_setPositions, not_forall, not_not]

/-! ## Extraction -/

/-- `BE.FWD`: the bits at the set positions of the mask, lowest first (R221). -/
theorem beFwd_eq_map {a m : BitSeq} (h : a.length = m.length) :
    beFwd a m = (setPositions m).map fun i => a.getD i false := by
  induction a generalizing m with
  | nil =>
    obtain rfl := List.eq_nil_of_length_eq_zero h.symm
    rfl
  | cons x a ih =>
    match m, h with
    | true :: m, h => simp [beFwd, setPositions_cons, ih (Nat.succ.inj h)]
    | false :: m, h => simp [beFwd, setPositions_cons, ih (Nat.succ.inj h)]

theorem beFwd_append {a m : BitSeq} (h : a.length = m.length) (a' m' : BitSeq) :
    beFwd (a ++ a') (m ++ m') = beFwd a m ++ beFwd a' m' := by
  induction a generalizing m with
  | nil =>
    obtain rfl := List.eq_nil_of_length_eq_zero h.symm
    rfl
  | cons x a ih =>
    match m, h with
    | true :: m, h => simp [beFwd, ih (Nat.succ.inj h)]
    | false :: m, h => simp [beFwd, ih (Nat.succ.inj h)]

/-- Extraction from the highest position down is extraction upwards, reversed (R220). -/
theorem beRev_eq_reverse {a m : BitSeq} (h : a.length = m.length) : beRev a m = (beFwd a m).reverse := by
  unfold beRev
  induction a generalizing m with
  | nil =>
    obtain rfl := List.eq_nil_of_length_eq_zero h.symm
    rfl
  | cons x a ih =>
    match m, h with
    | true :: m, h =>
      have hlen : a.length = m.length := Nat.succ.inj h
      simp [beFwd_append (a := a.reverse) (m := m.reverse) (by simpa using hlen), ih hlen, beFwd]
    | false :: m, h =>
      have hlen : a.length = m.length := Nat.succ.inj h
      simp [beFwd_append (a := a.reverse) (m := m.reverse) (by simpa using hlen), ih hlen, beFwd]

/-- `BE.REV`: the bits at the set positions of the mask, highest first (R220). -/
theorem beRev_eq_map {a m : BitSeq} (h : a.length = m.length) :
    beRev a m = (setPositions m).reverse.map fun i => a.getD i false := by
  rw [beRev_eq_reverse h, beFwd_eq_map h, List.map_reverse]

/-- A bit at a set position is the extracted bit of that position's number. -/
theorem getD_of_beFwd {a m ks : BitSeq} (h : a.length = m.length) (hks : beFwd a m = ks) {i : Nat}
    (hi : m.getD i false = true) : a.getD i false = ks.getD ((setPositions m).idxOf i) false := by
  have hmem := mem_setPositions.mpr hi
  rw [← hks, beFwd_eq_map h, List.getD_eq_getElem?_getD (l := List.map _ _), List.getElem?_map,
    List.getElem?_idxOf hmem]
  rfl

end Sys2Proof.Machine
end

