-- ==== Sys2Proof/Proofs/CompressedPacket.lean ====
section
/-! PROOFS. O60: the bits of a C_PKT and its PKT_INFO, field by field (R43, R110 to R113, R260 to R267, R302 to R307). -/

namespace Sys2Proof.Machine

/-! ## The rings read back from the slots (R260) -/

/-- The slot `i` packets back, as an index. -/
theorem ringIndex_eq (x : BitVec 4) {i : Nat} (hi : i ≤ 15) :
    (⟨(x - BitVec.ofNat 4 i).toNat, (x - BitVec.ofNat 4 i).isLt⟩ : Fin 16) = Fin.ofNat 16 (x.toNat + 16 - i) := by
  apply Fin.ext
  simp only [Fin.ofNat, BitVec.toNat_sub, BitVec.toNat_ofNat]
  omega

theorem histBack_eq (u : Cu) {i : Nat} (hi : i ≤ 15) :
    histBack u i = u.hist.get (Fin.ofNat 16 (u.hidx.toNat + 16 - i)) := by
  rw [histBack, ringIndex_eq u.hidx hi]

theorem fhistBack_eq (u : Cu) {i : Nat} (hi : i ≤ 15) :
    fhistBack u i = u.fhist.get (Fin.ofNat 16 (u.fidx.toNat + 16 - i)) := by
  rw [fhistBack, ringIndex_eq u.fidx hi]

theorem Cu.Inv.length_histBack {u : Cu} (h : u.Inv) (i : Nat) : (histBack u i).length = u.fs.toNat := h.hist_length _

/-! ## The robustness window (R262) -/

theorem foldl_vOr {n : Nat} {g : Nat → BitSeq} (hg : ∀ i, (g i).length = n) (l : List Nat) {z : BitSeq}
    (hz : z.length = n) :
    (l.foldl (fun x i => vOr x (g i)) z).length = n
      ∧ ∀ j < n, (l.foldl (fun x i => vOr x (g i)) z).getD j false =
        (z.getD j false || l.any fun i => (g i).getD j false) := by
  induction l generalizing z with
  | nil => simp [hz]
  | cons i l ih =>
    obtain ⟨hlen, hbits⟩ := ih (z := vOr z (g i)) (by simp [hz, hg])
    refine ⟨hlen, fun j hj => ?_⟩
    rw [List.foldl_cons, hbits j hj, getD_vOr (by omega) (by rw [hg]; exact hj), List.any_cons, Bool.or_assoc]

theorem Cu.Inv.length_windowOr {u : Cu} (h : u.Inv) (n : Nat) : (windowOr u n).length = u.fs.toNat :=
  (foldl_vOr h.length_histBack _ (length_zeros _)).1

/-- A bit of the window is set where it is set in one of the last change vectors. -/
theorem Cu.Inv.getD_windowOr {u : Cu} (h : u.Inv) (n : Nat) {j : Nat} (hj : j < u.fs.toNat) :
    (windowOr u n).getD j false = true ↔ ∃ k, k ≤ n ∧ (histBack u k).getD j false = true := by
  rw [windowOr, (foldl_vOr h.length_histBack _ (length_zeros _)).2 j hj, getD_zeros]
  simp only [Bool.false_or, List.any_eq_true, List.mem_range, Nat.lt_succ_iff]

/-! ## The effective robustness (R264) -/

/-- The walk of R264 takes slot `i` as empty. -/
def EmptySlot (z : Bool) (u : Cu) (i : Nat) : Prop := (i ≤ u.t.toNat ∨ z = true) ∧ anySet (histBack u i) = false

/-- The walk from `i = 16 - fuel` counts the empty slots before the first that is not, up to `i = 15`. -/
theorem emptyRun_spec (z : Bool) (u : Cu) {fuel : Nat} (hfuel : fuel ≤ 15) :
    emptyRun z u fuel ≤ fuel ∧ (∀ i, 15 - fuel < i → i ≤ 15 - fuel + emptyRun z u fuel → EmptySlot z u i)
      ∧ (emptyRun z u fuel < fuel → ¬EmptySlot z u (15 - fuel + emptyRun z u fuel + 1)) := by
  induction fuel with
  | zero => exact ⟨Nat.le_refl 0, fun i h1 h2 => absurd h2 (by simp [emptyRun]; omega), fun h => absurd h (by simp)⟩
  | succ fuel ih =>
    obtain ⟨hle, hempty, hstop⟩ := ih (by omega)
    have hstart : 15 - (fuel + 1) + 1 = 15 - fuel := by omega
    rw [emptyRun]
    split
    · rename_i hslot
      refine ⟨by omega, fun i h1 h2 => ?_, fun hlt => ?_⟩
      · by_cases hi : i = 15 - fuel
        · rw [hi]; exact hslot
        · exact hempty i (by omega) (by omega)
      · have := hstop (by omega)
        rwa [show 15 - (fuel + 1) + (1 + emptyRun z u fuel) + 1 = 15 - fuel + emptyRun z u fuel + 1 by omega]
    · rename_i hslot
      refine ⟨by omega, fun i h1 h2 => by omega, fun _ => ?_⟩
      rw [Nat.add_zero, hstart]
      exact hslot

/-- V_t is R, and past the initialisation the empty slots before R + 1 with it (R264). -/
theorem effectiveRobustness_spec (z : Bool) (u : Cu) :
    u.rs.toNat ≤ effectiveRobustness z u ∧ effectiveRobustness z u ≤ 15
      ∧ (u.t.toNat ≤ u.rs.toNat → effectiveRobustness z u = u.rs.toNat)
      ∧ (u.rs.toNat < u.t.toNat →
        (∀ i, u.rs.toNat < i → i ≤ effectiveRobustness z u → EmptySlot z u i)
          ∧ (effectiveRobustness z u < 15 → ¬EmptySlot z u (effectiveRobustness z u + 1))) := by
  have hrs := u.rs.isLt
  unfold effectiveRobustness
  split
  · exact ⟨by omega, by omega, fun _ => rfl, fun h => by omega⟩
  · obtain ⟨hle, hempty, hstop⟩ := emptyRun_spec z u (fuel := 15 - u.rs.toNat) (by omega)
    rw [show 15 - (15 - u.rs.toNat) = u.rs.toNat by omega] at hempty hstop
    exact ⟨by omega, by omega, fun h => by omega, fun _ => ⟨hempty, fun h => hstop (by omega)⟩⟩

/-! ## The multiple-update flag (R266) -/

theorem length_filter_range_eq_card (v : Nat) (p : Nat → Prop) [DecidablePred p] :
    (((List.range v).map (· + 1)).filter fun i => p i).length = ((Finset.Icc 1 v).filter p).card := by
  have hnodup : (((List.range v).map (· + 1)).filter fun i => p i).Nodup :=
    (List.nodup_range.map (add_left_injective 1)).filter _
  rw [← List.toFinset_card_of_nodup hnodup]
  congr 1
  ext i
  simp only [List.mem_toFinset, List.mem_filter, List.mem_map, List.mem_range, decide_eq_true_eq, Finset.mem_filter,
    Finset.mem_Icc, and_congr_left_iff]
  exact fun _ => ⟨fun ⟨j, hj, hi⟩ => by omega, fun ⟨h1, h2⟩ => ⟨i - 1, by omega, by omega⟩⟩

/-- The count of R266 is one of the last V_t + 1 flags. -/
theorem newMaskCount_eq (u : Cu) : newMaskCount u = u.tmp.p.toNat
    + ((Finset.Icc 1 u.tmp.veff.toNat).filter fun i =>
      i ≤ u.t.toNat ∧ u.fhist.get (Fin.ofNat 16 (u.fidx.toNat + 16 - i)) = true).card := by
  have hv := u.tmp.veff.isLt
  rw [newMaskCount, ← length_filter_range_eq_card]
  congr 2
  refine List.filter_congr fun i hi => ?_
  obtain ⟨j, hj, rfl⟩ := List.mem_map.mp hi
  rw [List.mem_range] at hj
  rw [fhistBack_eq u (by omega)]
  simp

/-! ## The prepared unit's window, V_t and c_t are those of its own rings -/

section Prepared

variable {u w : Cu}

theorem histBack_congr (hh : u.hist = w.hist) (hi : u.hidx = w.hidx) : histBack u = histBack w := by
  funext i
  simp only [histBack, hh, hi]

theorem windowOr_congr (hh : u.hist = w.hist) (hi : u.hidx = w.hidx) (hf : u.fs = w.fs) : windowOr u = windowOr w := by
  funext n
  simp only [windowOr, histBack_congr hh hi, hf]

theorem emptyRun_congr (z : Bool) (hh : u.hist = w.hist) (hi : u.hidx = w.hidx) (ht : u.t = w.t) (fuel : Nat) :
    emptyRun z u fuel = emptyRun z w fuel := by
  induction fuel with
  | zero => rfl
  | succ fuel ih => simp only [emptyRun, ih, histBack_congr hh hi, ht]

theorem effectiveRobustness_congr (z : Bool) (hh : u.hist = w.hist) (hi : u.hidx = w.hidx) (ht : u.t = w.t)
    (hr : u.rs = w.rs) : effectiveRobustness z u = effectiveRobustness z w := by
  simp only [effectiveRobustness, emptyRun_congr z hh hi ht, ht, hr]

theorem hwXwin_window (u : Cu) : (hwXwin u).tmp.window = windowOr u (min u.t.toNat u.rs.toNat) := rfl

theorem hwVeff_veff (z : Bool) (u : Cu) : (hwVeff z u).tmp.veff = BitVec.ofNat 4 (effectiveRobustness z u) := rfl

theorem hwCt_ct (u : Cu) : (hwCt u).tmp.ct = decide (2 ≤ newMaskCount u) := rfl

theorem newMaskCount_hwCt (u : Cu) : newMaskCount (hwCt u) = newMaskCount u := rfl

/-- The last three stages leave the rings they read, so their results can be read off the unit they leave. -/
theorem windowValues_eq (z : Bool) (w : Cu) {u : Cu} (hu : u = hwCt (hwVeff z (hwXwin w))) :
    u.tmp.window = windowOr u (min u.t.toNat u.rs.toNat)
      ∧ u.tmp.veff = BitVec.ofNat 4 (effectiveRobustness z u) ∧ u.tmp.ct = decide (2 ≤ newMaskCount u) := by
  have hhist : u.hist = w.hist := by simp [hu]
  have hhidx : u.hidx = w.hidx := by simp [hu]
  have ht : u.t = w.t := by simp [hu]
  have hrs : u.rs = w.rs := by simp [hu]
  have hfs : u.fs = w.fs := by simp [hu]
  refine ⟨?_, ?_, ?_⟩
  · rw [windowOr_congr hhist hhidx hfs, ht, hrs, hu, hwCt_window, hwVeff_window, hwXwin_window]
  · rw [effectiveRobustness_congr (w := hwXwin w) z hhist hhidx ht hrs, hu, hwCt_veff, hwVeff_veff]
  · rw [hu, hwCt_ct, newMaskCount_hwCt]

end Prepared

/-! ## The packet, field by field -/

section Emission

variable {u : Cu} {n : Nat}

/-- e_t is present where V_t > 0 and the window has a set bit, and then says that one of these is 0 in the mask (R304). -/
theorem eFlag_eq (hm : u.mask.length = n) (hx : u.tmp.window.length = n) :
    ((eFlag u).isSome = decide (0 < u.tmp.veff.toNat ∧ setPositions u.tmp.window ≠ []))
      ∧ (eFlag u).getD false = (decide (0 < u.tmp.veff.toNat)
        && (setPositions u.tmp.window).any fun i => !u.mask.getD i false) := by
  have hany : anySet (vAnd u.tmp.window (vNot u.mask)) =
      (setPositions u.tmp.window).any fun i => !u.mask.getD i false := by
    rw [Bool.eq_iff_iff, anySet_iff, List.any_eq_true]
    constructor
    · rintro ⟨i, hi⟩
      have hlt : i < n := by
        have := lt_of_mem_setPositions (mem_setPositions.mpr hi)
        simp at this
        omega
      rw [getD_vAnd (by omega) (by simp; omega), getD_vNot (by omega), Bool.and_eq_true] at hi
      exact ⟨i, mem_setPositions.mpr hi.1, hi.2⟩
    · rintro ⟨i, hi, hmi⟩
      have hlt := lt_of_mem_setPositions hi
      refine ⟨i, ?_⟩
      rw [getD_vAnd (by omega) (by simp; omega), getD_vNot (by omega), mem_setPositions.mp hi, hmi]
      rfl
  unfold eFlag
  simp only [anySet_eq_true_iff_setPositions]
  split
  · rename_i h; simp [h, hany]
  · rename_i h
    refine ⟨by simp [h], ?_⟩
    by_cases hv : 0 < u.tmp.veff.toNat
    · have hnil : setPositions u.tmp.window = [] := not_not.mp fun hne => h ⟨hv, hne⟩
      simp [hnil]
    · simp [hv]

/-- The optional part of h_t: e_t, and where it is 1 the k_t bits in ascending order and c_t (R304). -/
theorem directionBits_eq (hm : u.mask.length = n) (hx : u.tmp.window.length = n) {e : Bool}
    (he : (eFlag u).getD false = e) : directionBits u =
      if 0 < u.tmp.veff.toNat ∧ setPositions u.tmp.window ≠ [] then
        [e] ++ (if e = true then (setPositions u.tmp.window).map (fun i => !u.mask.getD i false) ++ [u.tmp.ct] else [])
      else [] := by
  obtain ⟨hsome, -⟩ := eFlag_eq hm hx
  have hk : beFwd (vNot u.mask) u.tmp.window = (setPositions u.tmp.window).map fun i => !u.mask.getD i false := by
    rw [beFwd_eq_map (by simp; omega)]
    refine List.map_congr_left fun i hi => getD_vNot ?_
    have := lt_of_mem_setPositions hi
    omega
  unfold directionBits
  rcases hflag : eFlag u with _ | e'
  · rw [hflag, Option.isSome_none, eq_comm, decide_eq_false_iff_not] at hsome
    rw [if_neg hsome]
  · rw [hflag, Option.isSome_some, eq_comm, decide_eq_true_eq] at hsome
    rw [hflag, Option.getD_some] at he
    subst he
    rw [if_pos hsome]
    cases e' <;> simp [hk]

/-- q_t: f and, where it is 1, the run-length list of the mask's differences; nothing where d is 1 (R305). -/
theorem maskBits_eq (u : Cu) : maskBits u = if dFlag u = true then [] else
    [u.tmp.f] ++ if u.tmp.f = true then rleBits (vXor u.mask (vShl1 u.mask)) else [] := by
  unfold maskBits
  cases u.tmp.f <;> rfl

theorem length_extractionMask (hm : u.mask.length = n) (hx : u.tmp.window.length = n) :
    (extractionMask u).length = n := by
  unfold extractionMask
  split <;> simp [hm, hx]

/-- The positions that a compressed u_t reads: those of the mask, and those of the window where c_t is 1 and V_t > 0
(R306). -/
theorem getD_extractionMask (hm : u.mask.length = n) (hx : u.tmp.window.length = n) {i : Nat} (hi : i < n) :
    (extractionMask u).getD i false =
      (u.mask.getD i false || (u.tmp.ct && decide (0 < u.tmp.veff.toNat) && u.tmp.window.getD i false)) := by
  unfold extractionMask
  split
  · rename_i h; rw [getD_vOr (by omega) (by omega), h.1, decide_eq_true h.2]; rfl
  · rename_i h
    have hfalse : (u.tmp.ct && decide (0 < u.tmp.veff.toNat)) = false := by simpa using h
    rw [hfalse, Bool.false_and, Bool.or_false]

/-- u_t: the packet itself with COUNT(F), or its bits at the extraction mask from the highest position down (R307). -/
theorem dataBits_eq (hm : u.mask.length = n) (hx : u.tmp.window.length = n) (hinp : u.tmp.inp.length = n) :
    dataBits u = if u.tmp.r = true then [true] ++ cntBits u.fs.toNat ++ u.tmp.inp else
      (if dFlag u = true then [] else [false])
        ++ (setPositions (extractionMask u)).reverse.map fun i => u.tmp.inp.getD i false := by
  rw [dataBits, beRev_eq_map (by rw [hinp, length_extractionMask hm hx])]

/-- PKT_INFO of a committed packet as a number (R43). -/
theorem toNat_pktInfo_cPktCommit (hm : u.mask.length = n) (hx : u.tmp.window.length = n) {e : Bool}
    (he : (eFlag u).getD false = e) : (cPktCommit u).pktInfo.toNat = u.tmp.veff.toNat
      + (if 0 < u.tmp.veff.toNat ∧ setPositions u.tmp.window ≠ [] then 16 else 0) + 32 * e.toNat + 64 * u.tmp.ct.toNat
      + 128 * (dFlag u).toNat + 256 * u.tmp.p.toNat + 512 * u.tmp.f.toNat + 1024 * u.tmp.r.toNat := by
  obtain ⟨hsome, -⟩ := eFlag_eq hm hx
  rw [cPktCommit_pktInfo, toNat_pktInfoWord, hsome, he]
  split <;> rename_i h <;> simp [flagAt_eq, h]

end Emission

/-- The whole packet, field by field (R110 to R113). -/
theorem packetBits_eq {u : Cu} {n : Nat} (hm : u.mask.length = n) (hx : u.tmp.window.length = n)
    (hinp : u.tmp.inp.length = n) {e : Bool} (he : (eFlag u).getD false = e) : packetBits u =
      rleBits u.tmp.window ++ bitsMsb 4 u.tmp.veff.toNat
        ++ (if 0 < u.tmp.veff.toNat ∧ setPositions u.tmp.window ≠ [] then
          [e] ++ (if e = true then (setPositions u.tmp.window).map (fun i => !u.mask.getD i false) ++ [u.tmp.ct] else [])
          else [])
        ++ [dFlag u]
        ++ (if dFlag u = true then [] else [u.tmp.f] ++ if u.tmp.f = true then rleBits (vXor u.mask (vShl1 u.mask)) else [])
        ++ (if u.tmp.r = true then [true] ++ cntBits u.fs.toNat ++ u.tmp.inp else (if dFlag u = true then [] else [false])
          ++ (setPositions (extractionMask u)).reverse.map fun i => u.tmp.inp.getD i false) := by
  rw [packetBits, headerBits, directionBits_eq hm hx he, maskBits_eq, dataBits_eq hm hx hinp]

/-! ## The unit handed to the emission, in terms of the slots of the ring it leaves -/

/-- Empty slots of R264, as the obligation writes them. -/
theorem emptySlot_iff (z : Bool) (u : Cu) (i : Nat) :
    EmptySlot z u i ↔ (i ≤ u.t.toNat ∨ z = true) ∧ ∀ j, (histBack u i).getD j false = false := by
  rw [EmptySlot, anySet_eq_false_iff]

/-- What is committed of a prepared unit (R308). -/
theorem cPktCommit_withPacket (u : Cu) : (cPktCommit u.withPacket).mask = u.mask ∧ (cPktCommit u.withPacket).hist = u.hist
    ∧ (cPktCommit u.withPacket).prevInput = u.tmp.inp ∧ (cPktCommit u.withPacket).obuf = packetBits u
    ∧ (cPktCommit u.withPacket).pktInfo = (cPktCommit u).pktInfo := ⟨rfl, rfl, rfl, rfl, rfl⟩

/-- Settles O60: the packet and PKT_INFO are those of the prepared unit, whose window, V_t and c_t are read from the ring with
the new change vector in it. -/
theorem compressedPacketFields : Obligations.CompressedPacketFields := by
  intro s t nm sm uc slot empty hinv hr hlen hexec hok hslot hempty
  have ht := cPkt_of_ok hr hlen hexec hok
  have hP := hinv.cPktPrepare s.params.preHistoryZero nm sm uc
  obtain ⟨hwin, hveff, hct⟩ :=
    windowValues_eq s.params.preHistoryZero _ (cPktPrepare_eq s.params.preHistoryZero nm sm uc s.cu)
  have hinp : (cPktPrepare s.params.preHistoryZero nm sm uc s.cu).tmp.inp.length = s.cu.fs.toNat := by
    rw [cPktPrepare_inp, length_windowVector]
  rw [newMaskCount_eq] at hct
  have hfs := cPktPrepare_fs s.params.preHistoryZero nm sm uc s.cu
  have hrs := cPktPrepare_rs s.params.preHistoryZero nm sm uc s.cu
  have htt := cPktPrepare_t s.params.preHistoryZero nm sm uc s.cu
  have hhidx := cPktPrepare_hidx s.params.preHistoryZero nm sm uc s.cu
  have hfidx := cPktPrepare_fidx s.params.preHistoryZero nm sm uc s.cu
  have hfhist := cPktPrepare_fhist s.params.preHistoryZero nm sm uc s.cu
  generalize cPktPrepare s.params.preHistoryZero nm sm uc s.cu = u at *
  obtain ⟨hmaskEq, hhistEq, hprevEq, hobufEq, hinfoEq⟩ := cPktCommit_withPacket u
  rw [← ht] at hmaskEq hhistEq hprevEq hobufEq hinfoEq
  rw [hfhist, hfidx, htt] at hct
  have hm : u.mask.length = s.cu.fs.toNat := hfs ▸ hP.mask_length
  have hx : u.tmp.window.length = s.cu.fs.toNat := by rw [hwin, hP.length_windowOr, hfs]
  -- V_t fits its four bits, and the slots of the obligation are the ring's
  obtain ⟨hle, h15, hinit, hlater⟩ := effectiveRobustness_spec s.params.preHistoryZero u
  have hv : u.tmp.veff.toNat = effectiveRobustness s.params.preHistoryZero u := by
    rw [hveff, BitVec.toNat_ofNat]; omega
  have hback : ∀ i ≤ 15, slot i = histBack u i := fun i hi => by rw [hslot, histBack_eq u hi, hhistEq, hhidx]
  have hslotEmpty : ∀ i ≤ 15, (empty i ↔ EmptySlot s.params.preHistoryZero u i) := fun i hi => by
    rw [hempty, hback i hi, emptySlot_iff, htt]
  rw [hrs, htt] at hinit hlater
  rw [hrs] at hle
  rw [← hv] at hle h15 hinit hlater
  obtain ⟨-, he⟩ := eFlag_eq hm hx
  rw [hmaskEq, hprevEq, hobufEq, hinfoEq]
  refine ⟨u.tmp.window, vXor u.mask (vShl1 u.mask), setPositions u.tmp.window, setPositions (extractionMask u),
    u.tmp.veff.toNat, (eFlag u).getD false, u.tmp.ct, dFlag u, u.tmp.p, u.tmp.f, u.tmp.r, hx, by simp [hm],
    fun i hi => ?_, fun i hi => ?_, hle, h15, hinit, fun hlt => ⟨fun i h1 h2 => ?_, fun hlt15 => ?_⟩, hct,
    (filter_range_eq_setPositions hx fun _ _ => rfl).symm,
    (filter_range_eq_setPositions (length_extractionMask hm hx) fun i hi => (getD_extractionMask hm hx hi).symm).symm,
    he, rfl, toNat_pktInfo_cPktCommit hm hx rfl, ?_⟩
  · rw [hwin, hP.getD_windowOr _ (hfs ▸ hi), htt, hrs]
    have := s.cu.rs.isLt
    exact exists_congr fun k => and_congr_right fun hk => by rw [hback k (by omega)]
  · rw [getD_vXor (by omega) (by simp; omega), getD_vShl1]
  · exact (hslotEmpty i (by omega)).mpr ((hlater hlt).1 i h1 h2)
  · exact fun h => (hlater hlt).2 hlt15 ((hslotEmpty _ (by omega)).mp h)
  · rw [packetBits_eq hm hx hinp rfl, hfs]

end Sys2Proof.Machine
end

