-- ==== Sys2Proof/Proofs/PacketDecoding.lean ====
section
/-! PROOFS. What the readers of the stream make of the bits the grammar gives each field (R110 to R116, R181, R204, R212,
R222, R352 to R357), and that no reader's error is OK. -/

namespace Sys2Proof.Machine

/-! ## Readers and the bits they read -/

/-- The reader reads exactly these bits, whatever follows them, and answers `v`. -/
def Reads {α : Type} (r : BitSeq → Except ErrCode (α × BitSeq)) (bits : BitSeq) (v : α) : Prop :=
  ∀ rest, r (bits ++ rest) = .ok (v, rest)

namespace Reads

variable {α β : Type}

theorem pure (v : α) : Reads (fun bits => .ok (v, bits)) [] v := fun _ => rfl

/-- Readers in sequence read their bits in sequence. -/
theorem bind {r : BitSeq → Except ErrCode (α × BitSeq)} {k : α × BitSeq → Except ErrCode (β × BitSeq)} {p q : BitSeq}
    {v : α} {w : β} (hr : Reads r p v) (hk : Reads (fun bits => k (v, bits)) q w) :
    Reads (fun bits => r bits >>= k) (p ++ q) w := fun rest => by
  beta_reduce
  rw [List.append_assoc, hr]
  exact hk rest

theorem getBit (b : Bool) : Reads Machine.getBit [b] b := fun _ => rfl

theorem getNumFrom (s : BitSeq) (acc : Nat) : Reads (Machine.getNumFrom acc s.length) s (natMsbFrom acc s) := by
  induction s generalizing acc with
  | nil => exact pure acc
  | cons b s ih => exact bind (getBit b) (ih (2 * acc + b.toNat))

/-- A field of bits is read as the number it spells (R14, R181). -/
theorem getNum {n : Nat} {s : BitSeq} (h : s.length = n) : Reads (Machine.getNum n) s (natMsb s) := by
  subst h
  exact getNumFrom s 0

theorem getNum_bitsMsb {n v : Nat} (h : v < 2 ^ n) : Reads (Machine.getNum n) (bitsMsb n v) v := by
  have := getNum (length_bitsMsb n v)
  rwa [natMsb_bitsMsb, Nat.mod_eq_of_lt h] at this

theorem getVec (s : BitSeq) : Reads (Machine.getVec s.length) s s := by
  induction s with
  | nil => exact pure []
  | cons b s ih =>
    intro rest
    show (Machine.getVec s.length (s ++ rest) >>= _) = _
    rw [ih]
    rfl

/-! ## COUNT (R115, R116, R204) -/

theorem zeroRun {z n : Nat} (h : z + n ≤ 10) :
    Reads (Machine.zeroRun z) (List.replicate n false ++ [true]) (z + n) := by
  induction n generalizing z with
  | zero => exact fun _ => rfl
  | succ n ih =>
    intro rest
    have hz : ¬z + 1 = 11 := by omega
    rw [List.replicate_succ, List.cons_append, List.cons_append, Machine.zeroRun, if_neg hz, ih (by omega)]
    congr 2
    omega

theorem cntDec_110 (r : BitSeq) : Machine.cntDec (true :: true :: false :: r) =
    Machine.getNum 5 r >>= fun y => .ok (y.1 + 2, y.2) := rfl

theorem cntDec_111 (r : BitSeq) : Machine.cntDec (true :: true :: true :: r) = Machine.zeroRun 0 r >>= fun y =>
    Machine.getNum (y.1 + 5) y.2 >>= fun x => .ok (2 ^ (y.1 + 5) + x.1 + 2, x.2) := rfl

theorem cntDec_short {a : Nat} (ha : a < 2 ^ 5) : Reads Machine.cntDec ([true, true, false] ++ bitsMsb 5 a) (a + 2) := by
  intro rest
  simp only [List.cons_append, List.nil_append]
  rw [cntDec_110, getNum_bitsMsb ha rest]
  rfl

/-- The long code word: '111', the zeros of the length, a one and the field below the leading bit. -/
theorem cntDec_long {z a : Nat} (hz : z ≤ 10) (ha : a < 2 ^ (z + 5)) :
    Reads Machine.cntDec (longBits z a) (2 ^ (z + 5) + a + 2) := by
  intro rest
  have hzeros := zeroRun (z := 0) (n := z) (by omega) (bitsMsb (z + 5) a ++ rest)
  rw [Nat.zero_add] at hzeros
  simp only [longBits, List.append_assoc, List.cons_append, List.nil_append] at hzeros ⊢
  rw [cntDec_111, hzeros]
  show (Machine.getNum (z + 5) (bitsMsb (z + 5) a ++ rest) >>= _) = _
  rw [getNum_bitsMsb ha rest]
  rfl

end Reads

/-- The bits of a number in a wider field: zeros before them. -/
theorem bitsMsb_add {n w : Nat} (h : w < 2 ^ n) (z : Nat) : bitsMsb (z + n) w = List.replicate z false ++ bitsMsb n w := by
  induction z with
  | zero => simp
  | succ z ih =>
    have hbit : w.testBit (z + n) = false :=
      Nat.testBit_lt_two_pow (Nat.lt_of_lt_of_le h (Nat.pow_le_pow_right (by omega) (by omega)))
    rw [Nat.succ_add, bitsMsb, ih, hbit]
    rfl

/-- The bits of a number with its leading one: a one, and the bits of what is below it. -/
theorem bitsMsb_succ_of_lt {n a : Nat} (h : a < 2 ^ n) : bitsMsb (n + 1) (2 ^ n + a) = true :: bitsMsb n a := by
  have hlow : ∀ m k, m ≤ n → k < 2 ^ n → bitsMsb m (2 ^ n + k) = bitsMsb m k := by
    intro m k hm hk
    induction m with
    | zero => rfl
    | succ m ih => rw [bitsMsb, bitsMsb, ih (by omega), Nat.testBit_two_pow_add_gt (by omega)]
  rw [bitsMsb, hlow n a (Nat.le_refl n) h, Nat.testBit_two_pow_add_eq, Nat.testBit_lt_two_pow h]
  rfl

/-- A count of 34 or more has the long code word of its length (R201, R202). -/
theorem cntBits_eq_longBits {z a : Nat} (ha : a < 2 ^ (z + 5)) : cntBits (2 ^ (z + 5) + a + 2) = longBits z a := by
  have h32 : 2 ^ 5 ≤ 2 ^ (z + 5) := Nat.pow_le_pow_right (by omega) (by omega)
  have hlog : (2 ^ (z + 5) + a).log2 = z + 5 := by
    rw [Nat.log2_eq_iff (by omega), pow_succ 2 (z + 5)]
    omega
  have hwidth : 2 * (z + 5 + 1) - 6 = z + (z + 5 + 1) := by omega
  rw [cntBits, if_neg (by omega), if_neg (by omega), if_neg (by omega), Nat.add_sub_cancel, hlog, hwidth,
    bitsMsb_add (by rw [pow_succ 2 (z + 5)]; omega), bitsMsb_succ_of_lt ha]
  simp [longBits]

/-- A count decodes to itself, up to the greatest one with a long code word of ten zeros (R204). -/
theorem Reads.cntDec {a : Nat} (h : a ≤ 65537) : Reads Machine.cntDec (cntBits a) a := by
  by_cases h0 : a = 0
  · subst h0; exact fun _ => rfl
  by_cases h1 : a = 1
  · subst h1; exact fun _ => rfl
  by_cases h33 : a ≤ 33
  · rw [cntBits, if_neg h0, if_neg h1, if_pos h33]
    obtain ⟨b, rfl⟩ := Nat.exists_eq_add_of_le' (show 2 ≤ a by omega)
    exact Reads.cntDec_short (by omega)
  · obtain ⟨hlow, hhigh⟩ := (Nat.log2_eq_iff (n := a - 2) (by omega)).mp rfl
    have hge : 5 ≤ (a - 2).log2 := (Nat.le_log2 (by omega)).mpr (by omega)
    have hlt : (a - 2).log2 < 16 := (Nat.log2_lt (by omega)).mpr (by omega)
    obtain ⟨z, hz⟩ := Nat.exists_eq_add_of_le' hge
    obtain ⟨b, hb⟩ := Nat.exists_eq_add_of_le hlow
    rw [hz, pow_succ] at hhigh
    rw [hz] at hb
    have hbit : b < 2 ^ (z + 5) := by omega
    obtain rfl : a = 2 ^ (z + 5) + b + 2 := by omega
    rw [cntBits_eq_longBits hbit]
    exact Reads.cntDec_long (by omega) hbit

/-! ## Run-length lists (R210, R212) -/

/-- The list of the bits `w` from the highest index down, `gap` behind the last one bit, decodes to these bits in index order
before what was decoded already. -/
theorem Reads.rleDecFrom {w acc : BitSeq} {gap fuel : Nat} (hgap : 1 ≤ gap) (hlen : w.length + gap ≤ 65536)
    (hfuel : w.length + gap ≤ fuel) :
    Reads (Machine.rleDecFrom fuel (w.length + gap - 1) acc) (rleFrom gap w) (w.reverse ++ zeros (gap - 1) ++ acc) := by
  induction w generalizing gap fuel acc with
  | nil =>
    obtain ⟨fuel, rfl⟩ := Nat.exists_eq_add_of_le' (Nat.le_trans hgap (by simpa using hfuel))
    intro rest
    rw [rleFrom, Machine.rleDecFrom, Reads.cntDec (Nat.zero_le _) rest]
    show Except.ok (zeros ([].length + gap - 1) ++ acc, rest) = _
    simp
  | cons b w ih =>
    rw [List.length_cons] at hlen hfuel
    cases b with
    | false =>
      have h := ih (gap := gap + 1) (acc := acc) (fuel := fuel) (by omega) (by omega) (by omega)
      have hzeros : zeros gap = false :: zeros (gap - 1) := by
        rw [zeros, zeros, ← List.replicate_succ, Nat.sub_add_cancel hgap]
      rw [show w.length + (gap + 1) - 1 = (false :: w).length + gap - 1 by simp, Nat.add_sub_cancel, hzeros] at h
      simpa [rleFrom] using h
    | true =>
      obtain ⟨fuel, rfl⟩ := Nat.exists_eq_add_of_le' (show 1 ≤ fuel by omega)
      have h := ih (gap := 1) (acc := true :: zeros (gap - 1) ++ acc) (fuel := fuel) (by omega) (by omega) (by omega)
      intro rest
      have hpos : (true :: w).length + gap - 1 = w.length + gap := by rw [List.length_cons]; omega
      rw [rleFrom, Machine.rleDecFrom, List.append_assoc, Reads.cntDec (by omega) _, hpos]
      show (if gap = 0 then _ else if gap > w.length + gap then _ else
        Machine.rleDecFrom fuel (w.length + gap - gap) (true :: zeros (gap - 1) ++ acc) (rleFrom 1 w ++ rest)) = _
      rw [Nat.add_sub_cancel] at h ⊢
      rw [if_neg (by omega), if_neg (by omega), h rest]
      simp [zeros]

/-- A vector's run-length list decodes to the vector (R114). -/
theorem Reads.rleDec {x : BitSeq} {n : Nat} (hx : x.length = n) (hn : n ≤ 65535) :
    Reads (Machine.rleDec n) (rleBits x) x := by
  subst hx
  have h := Reads.rleDecFrom (w := x.reverse) (acc := []) (gap := 1) (fuel := x.length + 1) (by omega)
    (by simp; omega) (by simp)
  simp only [List.length_reverse, List.reverse_reverse, Nat.sub_self, Nat.add_sub_cancel, List.append_nil] at h
  rwa [show zeros 0 = [] from rfl, List.append_nil] at h

/-! ## Insertion and the direction fields (R222, R223, R352) -/

theorem length_setPositions_cons (b : Bool) (m : BitSeq) :
    (setPositions (b :: m)).length = b.toNat + (setPositions m).length := by
  rw [setPositions_cons]
  cases b <;> simp [Nat.add_comm]

/-- Insertion puts the bits that are read at the set positions of the mask, and leaves the others. -/
theorem Reads.biFwd {a m ins : BitSeq} (h : a.length = m.length) (hins : ins.length = (setPositions m).length) :
    ∃ a', Reads (Machine.biFwd a m) ins a' ∧ a'.length = a.length ∧ Machine.beFwd a' m = ins
      ∧ ∀ i, m.getD i false = false → a'.getD i false = a.getD i false := by
  induction a generalizing m ins with
  | nil =>
    obtain rfl := List.eq_nil_of_length_eq_zero h.symm
    obtain rfl := List.eq_nil_of_length_eq_zero hins
    exact ⟨[], fun _ => rfl, rfl, rfl, fun _ _ => rfl⟩
  | cons y a ih =>
    match m, h with
    | true :: m, h =>
      rw [length_setPositions_cons] at hins
      match ins, hins with
      | [], hins => simp at hins; omega
      | b :: ins, hins =>
        obtain ⟨a', hr, hl, hb, ho⟩ := ih (Nat.succ.inj h) (ins := ins) (by simp at hins; omega)
        refine ⟨b :: a', fun rest => ?_, by simp [hl], by simp [Machine.beFwd, hb], fun i hi => ?_⟩
        · show (Machine.biFwd a m (ins ++ rest) >>= _) = _
          rw [hr]; rfl
        · cases i with
          | zero => simp at hi
          | succ i => simpa using ho i (by simpa using hi)
    | false :: m, h =>
      rw [length_setPositions_cons] at hins
      obtain ⟨a', hr, hl, hb, ho⟩ := ih (Nat.succ.inj h) (ins := ins) (by simpa using hins)
      refine ⟨y :: a', fun rest => ?_, by simp [hl], by simp [Machine.beFwd, hb], fun i hi => ?_⟩
      · show (Machine.biFwd a m (ins ++ rest) >>= _) = _
        rw [hr]; rfl
      · cases i with
        | zero => rfl
        | succ i => simpa using ho i (by simpa using hi)

/-- BI.REV fills the set positions of the mask from the highest down (R222). -/
theorem Reads.biRev {a m ins : BitSeq} (h : a.length = m.length) (hins : ins.length = (setPositions m).length) :
    ∃ a', Reads (Machine.biRev a m) ins a' ∧ a'.length = a.length
      ∧ (setPositions m).reverse.map (fun i => a'.getD i false) = ins
      ∧ ∀ i < a.length, m.getD i false = false → a'.getD i false = a.getD i false := by
  have hcount : (setPositions m).length = (setPositions m.reverse).length := by
    have h1 := congrArg List.length (beRev_eq_reverse (a := m) (m := m) rfl)
    have h2 : Machine.beRev m m = Machine.beFwd m.reverse m.reverse := rfl
    rw [h2, List.length_reverse, beFwd_eq_map rfl, beFwd_eq_map rfl] at h1
    simpa using h1.symm
  obtain ⟨a', hr, hl, hb, ho⟩ :=
    Reads.biFwd (a := a.reverse) (m := m.reverse) (ins := ins) (by simpa using h) (by rw [hins, hcount])
  rw [List.length_reverse] at hl
  refine ⟨a'.reverse, fun rest => ?_, by simp [hl], ?_, fun i hi hmi => ?_⟩
  · rw [Machine.biRev, hr]; rfl
  · rw [← beRev_eq_map (by simp; omega), Machine.beRev, List.reverse_reverse, hb]
  · have hm' : (vRev m).getD (a.length - 1 - i) false = false := by
      rw [getD_vRev (by omega), show m.length - 1 - (a.length - 1 - i) = i by omega, hmi]
    have := ho _ hm'
    change (vRev a').getD i false = _
    rw [getD_vRev (by omega), show a'.length - 1 - i = a.length - 1 - i by omega, this]
    change (vRev a).getD _ false = _
    rw [getD_vRev (by omega), show a.length - 1 - (a.length - 1 - i) = i by omega]

/-- The k_t bits go to the set positions of the window; there the mask becomes their complement (R352). -/
theorem Reads.readDirections {x m ks : BitSeq} (h : x.length = m.length) (hks : ks.length = (setPositions x).length) :
    ∃ m' pos, Reads (Machine.readDirections x m) ks (m', pos) ∧ m'.length = m.length ∧ pos.length = m.length
      ∧ Machine.beFwd pos x = ks ∧ ∀ i, (x.getD i false = false → pos.getD i false = false ∧ m'.getD i false = m.getD i false)
        ∧ (x.getD i false = true → m'.getD i false = !pos.getD i false) := by
  induction x generalizing m ks with
  | nil =>
    obtain rfl := List.eq_nil_of_length_eq_zero h.symm
    obtain rfl := List.eq_nil_of_length_eq_zero hks
    exact ⟨[], [], fun _ => rfl, rfl, rfl, rfl, fun i => ⟨fun _ => ⟨rfl, rfl⟩, fun hi => by simp at hi⟩⟩
  | cons b x ih =>
    match m, h with
    | y :: m, h =>
      rw [length_setPositions_cons] at hks
      cases b with
      | true =>
        match ks, hks with
        | [], hks => simp at hks; omega
        | k :: ks, hks =>
          obtain ⟨m', pos, hr, hm, hp, hb, ho⟩ := ih (Nat.succ.inj h) (ks := ks) (by simp at hks; omega)
          refine ⟨(!k) :: m', k :: pos, fun rest => ?_, by simp [hm], by simp [hp], by simp [Machine.beFwd, hb], fun i => ?_⟩
          · show (Machine.readDirections x m (ks ++ rest) >>= _) = _
            rw [hr]; rfl
          · cases i with
            | zero => simp
            | succ i => simpa using ho i
      | false =>
        obtain ⟨m', pos, hr, hm, hp, hb, ho⟩ := ih (Nat.succ.inj h) (ks := ks) (by simpa using hks)
        refine ⟨y :: m', false :: pos, fun rest => ?_, by simp [hm], by simp [hp], by simp [Machine.beFwd, hb], fun i => ?_⟩
        · show (Machine.readDirections x m (ks ++ rest) >>= _) = _
          rw [hr]; rfl
        · cases i with
          | zero => simp
          | succ i => simpa using ho i

/-! ## The fields of a packet (R352 to R357) -/

/-- What the direction fields `e`, `ks` and `c` of a window `x` make of a mask `m` (R352, R353): pos holds the k_t bits at the
set positions of the window; there the mask is toggled where V = 0, and else is the complement of pos. -/
structure Directs (v : Nat) (x m ks : BitSeq) (e c : Bool) (dir : Direction) : Prop where
  ePresent_eq : dir.ePresent = decide (0 < v ∧ setPositions x ≠ [])
  e_eq : dir.e = e
  c_eq : dir.c = c
  m_length : dir.m.length = m.length
  pos_length : dir.pos.length = m.length
  pos_bits : ∀ i, dir.pos.getD i false = (e && x.getD i false && ks.getD ((setPositions x).idxOf i) false)
  m_bits : ∀ i < m.length, dir.m.getD i false =
    if x.getD i false = true then (if v = 0 then !m.getD i false else !dir.pos.getD i false) else m.getD i false

section Directions

variable {v : Nat} {x m : BitSeq}

/-- With e = 1 the k_t bits follow, and c. -/
theorem Reads.readDirection_directed {ks : BitSeq} (c : Bool) (h : x.length = m.length)
    (hks : ks.length = (setPositions x).length) (hp : 0 < v ∧ setPositions x ≠ []) :
    ∃ dir, Reads (Machine.readDirection v x m) ([true] ++ (ks ++ [c])) dir ∧ Directs v x m ks true c dir := by
  obtain ⟨m', pos, hr, hm, hpos, hb, ho⟩ := Reads.readDirections h hks
  have hany : 0 < v ∧ anySet x = true := ⟨hp.1, (anySet_eq_true_iff_setPositions x).mpr hp.2⟩
  refine ⟨⟨true, true, c, m', pos⟩, fun rest => ?_, (decide_eq_true hp).symm, rfl, rfl, hm, hpos, fun i => ?_, fun i hi => ?_⟩
  · rw [Machine.readDirection, if_pos hany]
    show (Machine.readDirections x m (ks ++ [c] ++ rest) >>= _) = _
    rw [List.append_assoc, hr]
    rfl
  · cases hx : x.getD i false with
    | false => exact ((ho i).1 hx).1
    | true => exact getD_of_beFwd (by omega) hb hx
  · by_cases hx : x.getD i false = true
    · rw [if_pos hx, if_neg (by omega)]
      exact (ho i).2 hx
    · rw [if_neg hx]
      exact ((ho i).1 (by simpa using hx)).2

/-- With e = 0 the mask is set at the set positions of the window. -/
theorem Reads.readDirection_set (ks : BitSeq) (h : x.length = m.length) (hp : 0 < v ∧ setPositions x ≠ []) :
    ∃ dir, Reads (Machine.readDirection v x m) [false] dir ∧ Directs v x m ks false false dir := by
  have hany : 0 < v ∧ anySet x = true := ⟨hp.1, (anySet_eq_true_iff_setPositions x).mpr hp.2⟩
  refine ⟨⟨true, false, false, vOr m x, zeros m.length⟩, fun rest => ?_, (decide_eq_true hp).symm, rfl, rfl, by simp [h],
    length_zeros _, fun i => getD_zeros _ i, fun i hi => ?_⟩
  · rw [Machine.readDirection, if_pos hany]
    rfl
  · rw [getD_vOr hi (by omega), getD_zeros, if_neg (by omega : ¬v = 0)]
    cases x.getD i false <;> simp

/-- Without e, where V = 0 or the window is empty, the mask is toggled at the set positions of the window. -/
theorem Reads.readDirection_toggled (ks : BitSeq) (h : x.length = m.length) (hp : ¬(0 < v ∧ setPositions x ≠ [])) :
    ∃ dir, Reads (Machine.readDirection v x m) [] dir ∧ Directs v x m ks false false dir := by
  have hany : ¬(0 < v ∧ anySet x = true) := fun hc => hp ⟨hc.1, (anySet_eq_true_iff_setPositions x).mp hc.2⟩
  refine ⟨⟨false, false, false, if anySet x = true then vXor m x else m, zeros m.length⟩, fun rest => ?_,
    (decide_eq_false hp).symm, rfl, rfl, ?_, length_zeros _, fun i => getD_zeros _ i, fun i hi => ?_⟩
  · rw [Machine.readDirection, if_neg hany]
    rfl
  · dsimp only
    split <;> simp [h]
  · by_cases hx : anySet x = true
    · have hv : v = 0 := by
        by_contra hne
        exact hany ⟨by omega, hx⟩
      rw [if_pos hx, getD_vXor hi (by omega), if_pos hv]
      cases x.getD i false <;> simp
    · rw [Bool.not_eq_true] at hx
      rw [if_neg (by simp [hx]), (anySet_eq_false_iff x).mp hx i]
      rfl

/-- The direction fields of the grammar: e where it is present, and the k_t bits and c where it is 1 (R111). -/
theorem Reads.readDirection {ks : BitSeq} {e c : Bool} (h : x.length = m.length)
    (hks : ks.length = (setPositions x).length) (he : e = true → 0 < v ∧ setPositions x ≠ []) (hc : c = true → e = true) :
    ∃ dir, Reads (Machine.readDirection v x m)
        (if 0 < v ∧ setPositions x ≠ [] then [e] ++ (if e = true then ks ++ [c] else []) else []) dir
      ∧ Directs v x m ks e c dir := by
  by_cases hp : 0 < v ∧ setPositions x ≠ []
  · rw [if_pos hp]
    cases e with
    | true => exact Reads.readDirection_directed c h hks hp
    | false =>
      obtain rfl : c = false := by simpa using hc
      exact Reads.readDirection_set ks h hp
  · obtain rfl : e = false := by simpa using fun h => hp (he h)
    obtain rfl : c = false := by simpa using hc
    rw [if_neg hp]
    exact Reads.readDirection_toggled ks h hp

end Directions

/-- The running XOR of R354: each bit is its difference against the next. -/
theorem getD_undelta (d : BitSeq) (i : Nat) :
    (undelta d).getD i false = (d.getD i false ^^ (undelta d).getD (i + 1) false) := by
  induction d generalizing i with
  | nil => rfl
  | cons b r ih =>
    cases i with
    | zero => cases hr : undelta r <;> simp [undelta, hr]
    | succ i => simpa [undelta] using ih i

/-- The mask field: d, and where it is 0 f with its run-length list and r (R112, R354). -/
theorem Reads.readMaskField {n : Nat} {m delta : BitSeq} {d f r : Bool} (hdelta : delta.length = n) (hn : n ≤ 65535)
    (hd : d = true → f = false ∧ r = false) : Reads (Machine.readMaskField n m)
      ([d] ++ (if d = true then [] else (if f = true then [true] ++ rleBits delta else [false]) ++ [r]))
      ⟨d, f, r, if f = true then undelta delta else m⟩ := by
  intro rest
  cases d with
  | true =>
    obtain ⟨rfl, rfl⟩ := hd rfl
    rfl
  | false =>
    cases f with
    | false => rfl
    | true =>
      show (Machine.rleDec n (rleBits delta ++ [r] ++ rest) >>= _) = _
      rw [List.append_assoc, Reads.rleDec hdelta hn]
      rfl

/-- The data field with COUNT(F): the packet as it is (R355). -/
theorem Reads.readData_raw {n v lcf : Nat} {dir : Direction} {mf : MaskField} {out raw : BitSeq} (hr : mf.r = true)
    (hraw : raw.length = n) (hlcf : lcf ≤ 65537) :
    Reads (Machine.readData n v dir mf out) (cntBits lcf ++ raw) (some lcf, raw) := by
  subst hraw
  intro rest
  rw [Machine.readData, if_pos hr, List.append_assoc, Reads.cntDec hlcf]
  show (Machine.getVec raw.length (raw ++ rest) >>= _) = _
  rw [Reads.getVec]
  rfl

/-- The data field without it: the bits at the extraction mask (R356, R357). -/
theorem Reads.readData_inserted {n v : Nat} {dir : Direction} {mf : MaskField} {out ins : BitSeq} (hr : mf.r = false)
    (ho : out.length = (decoderMask v dir.c mf.m dir.pos).length)
    (hins : ins.length = (setPositions (decoderMask v dir.c mf.m dir.pos)).length) :
    ∃ out', Reads (Machine.readData n v dir mf out) ins (none, out')
      ∧ (setPositions (decoderMask v dir.c mf.m dir.pos)).reverse.map (fun i => out'.getD i false) = ins
      ∧ ∀ i < out.length, (decoderMask v dir.c mf.m dir.pos).getD i false = false → out'.getD i false = out.getD i false := by
  obtain ⟨out', hread, -, hbits, hkept⟩ := Reads.biRev ho hins
  refine ⟨out', fun rest => ?_, hbits, hkept⟩
  rw [Machine.readData, if_neg (by simp [hr]), hread]
  rfl

/-- A packet is its window, V, the direction fields, the mask field and the data field in this order (R110). -/
theorem Reads.readPacket {n v : Nat} {dmask out x out' p1 p2 p3 p4 p5 : BitSeq} {dir : Direction} {mf : MaskField}
    {lcf : Option Nat} (hx : Reads (Machine.rleDec n) p1 x) (hv : Reads (Machine.getNum 4) p2 v)
    (hdir : Reads (Machine.readDirection v x dmask) p3 dir) (hmf : Reads (Machine.readMaskField n dir.m) p4 mf)
    (hdata : Reads (Machine.readData n v dir mf out) p5 (lcf, out')) :
    Reads (Machine.readPacket n dmask out) (p1 ++ p2 ++ p3 ++ p4 ++ p5) ⟨v, dir, mf, lcf, out'⟩ := by
  intro rest
  simp only [List.append_assoc]
  rw [Machine.readPacket, hx]
  show (Machine.getNum 4 _ >>= _) = _
  rw [hv]
  show (Machine.readDirection v x dmask _ >>= _) = _
  rw [hdir]
  show (Machine.readMaskField n dir.m _ >>= _) = _
  rw [hmf]
  show (Machine.readData n v dir mf out _ >>= _) = _
  rw [hdata]
  rfl

/-! ## No error is OK -/

/-- An error that is raised names a reason (R391). -/
def NamesError {α : Type} (r : Except ErrCode α) : Prop := r ≠ .error .ok

namespace NamesError

variable {α β : Type}

theorem ok (a : α) : NamesError (.ok a : Except ErrCode α) := fun h => nomatch h

theorem underflow : NamesError (.error .underflow : Except ErrCode α) := fun h => nomatch h

theorem malformed : NamesError (.error .malformed : Except ErrCode α) := fun h => nomatch h

theorem bind {x : Except ErrCode α} {f : α → Except ErrCode β} (hx : NamesError x) (hf : ∀ a, NamesError (f a)) :
    NamesError (x >>= f) := by
  cases x with
  | error e => exact fun h => hx (by cases h; rfl)
  | ok a => exact hf a

theorem getBit (bits : BitSeq) : NamesError (Machine.getBit bits) := by
  cases bits with
  | nil => exact underflow
  | cons b r => exact ok _

theorem getNumFrom (n acc : Nat) (bits : BitSeq) : NamesError (Machine.getNumFrom acc n bits) := by
  induction n generalizing acc bits with
  | zero => exact ok _
  | succ n ih => exact bind (getBit bits) fun y => ih _ _

theorem getVec (n : Nat) (bits : BitSeq) : NamesError (Machine.getVec n bits) := by
  induction n generalizing bits with
  | zero => exact ok _
  | succ n ih => exact bind (getBit bits) fun y => bind (ih _) fun w => ok _

theorem zeroRun (z : Nat) (bits : BitSeq) : NamesError (Machine.zeroRun z bits) := by
  induction bits generalizing z with
  | nil => exact underflow
  | cons b r ih =>
    cases b with
    | true => exact ok _
    | false =>
      rw [Machine.zeroRun]
      split
      · exact malformed
      · exact ih _

theorem cntDec (bits : BitSeq) : NamesError (Machine.cntDec bits) := by
  refine bind (getBit bits) fun (b, r) => ?_
  dsimp only
  split
  · exact ok _
  refine bind (getBit r) fun (b, r) => ?_
  dsimp only
  split
  · exact ok _
  refine bind (getBit r) fun (b, r) => ?_
  dsimp only
  split
  · exact bind (getNumFrom 5 0 r) fun y => ok _
  · exact bind (zeroRun 0 r) fun y => bind (getNumFrom _ 0 _) fun w => ok _

theorem rleDecFrom (fuel pos : Nat) (acc bits : BitSeq) : NamesError (Machine.rleDecFrom fuel pos acc bits) := by
  induction fuel generalizing pos acc bits with
  | zero => exact malformed
  | succ fuel ih =>
    refine bind (cntDec bits) fun (a, r) => ?_
    dsimp only
    split
    · exact ok _
    · split
      · exact malformed
      · exact ih _ _ _

theorem biFwd (a m bits : BitSeq) : NamesError (Machine.biFwd a m bits) := by
  induction a generalizing m bits with
  | nil => cases m <;> exact ok _
  | cons y a ih =>
    match m with
    | [] => exact ok _
    | true :: m => exact bind (getBit bits) fun y => bind (ih m _) fun w => ok _
    | false :: m => exact bind (ih m bits) fun w => ok _

theorem readDirections (x m bits : BitSeq) : NamesError (Machine.readDirections x m bits) := by
  induction x generalizing m bits with
  | nil => cases m <;> exact ok _
  | cons b x ih =>
    match b, m with
    | true, [] => exact ok _
    | false, [] => exact ok _
    | true, y :: m => exact bind (getBit bits) fun k => bind (ih m _) fun w => ok _
    | false, y :: m => exact bind (ih m bits) fun w => ok _

theorem readDirection (v : Nat) (x m bits : BitSeq) : NamesError (Machine.readDirection v x m bits) := by
  unfold Machine.readDirection
  split
  · refine bind (getBit bits) fun (e, r) => ?_
    dsimp only
    split
    · exact bind (readDirections x m r) fun w => bind (getBit _) fun c => ok _
    · exact ok _
  · exact ok _

theorem readMaskField (n : Nat) (m bits : BitSeq) : NamesError (Machine.readMaskField n m bits) := by
  refine bind (getBit bits) fun (d, r) => ?_
  dsimp only
  split
  · exact ok _
  refine bind (getBit r) fun (fb, r) => ?_
  dsimp only
  split
  · exact bind (rleDecFrom _ n [] r) fun w => bind (getBit _) fun y => ok _
  · exact bind (getBit r) fun y => ok _

theorem readData (n v : Nat) (dir : Direction) (mf : MaskField) (out bits : BitSeq) :
    NamesError (Machine.readData n v dir mf out bits) := by
  unfold Machine.readData
  split
  · exact bind (cntDec bits) fun l => bind (getVec n _) fun w => ok _
  · exact bind (bind (biFwd _ _ bits) fun w => ok _) fun w => ok _

theorem readPacket (n : Nat) (dmask out bits : BitSeq) : NamesError (Machine.readPacket n dmask out bits) :=
  bind (rleDecFrom _ n [] bits) fun _ => bind (getNumFrom 4 0 _) fun _ => bind (readDirection _ _ _ _) fun _ =>
    bind (readMaskField n _ _) fun _ => bind (readData n _ _ _ _ _) fun _ => ok _

end NamesError

end Sys2Proof.Machine
end

