-- ==== Sys2Proof/Proofs/DecompressorState.lean ====
section
/-! PROOFS. O48: what a D_PKT leaves of the DU's state, and its effect on every packet of the grammar (R74, R79, R350 to
R358). -/

namespace Sys2Proof.Machine

/-! ## The commit of a packet (R358) -/

/-- What the commit of a packet writes; every other element of the DU stays. -/
theorem dPktCommit_eq (u : Du) (k : Packet) (rest : BitSeq) : dPktCommit u k rest =
    { u with
      dmask := k.mf.m, prevOutput := k.out, pos := k.dir.pos, win := writeBytes u.win duOut (packBits k.out),
      t := satInc u.t,
      pktInfo := pktInfoWord (BitVec.ofNat 4 k.v) k.dir.ePresent k.dir.e k.dir.c k.mf.d false k.mf.fb k.mf.r,
      lastCountF := (k.lcf.map (BitVec.ofNat 32)).getD u.lastCountF, st := u.st.report .ok,
      bitPos := if u.autoAlign then (u.readTo rest).align.bitPos else (u.readTo rest).bitPos } := by
  obtain ⟨v, dir, mf, lcf, out⟩ := k
  obtain ⟨_, _, autoAlign, _, _, _, _, _, _, _, _, _, _, _, _, _⟩ := u
  cases autoAlign <;> cases lcf <;> rfl

/-- The bits of a packed vector in a window, the padding of its last byte 0 (R72, R79). -/
theorem getLsbD_readByte_packBits (m : Memory) (a : Nat) {v : BitSeq} {k : Nat} (hk : k < 8 * byteCount v.length) :
    (readByte (writeBytes m a (packBits v)) (a + k / 8)).getLsbD (7 - k % 8) = v.getD k false := by
  rw [readByte_writeBytes, length_packBits, if_pos ⟨by omega, by omega⟩, Nat.add_sub_cancel_left,
    getLsbD_packBits v (k / 8) (k % 8) (by omega) (Nat.mod_lt _ (by omega)), Nat.div_add_mod]

/-- The frame of D_PKT, and OUT after it (R74, R79, R358). -/
theorem dPkt_frame {cap : Nat} {u : Du} (h : u.Inv cap) :
    (dPkt u).cfgF = u.cfgF ∧ (dPkt u).cfgR = u.cfgR ∧ (dPkt u).autoAlign = u.autoAlign ∧ (dPkt u).streamLen = u.streamLen
      ∧ (dPkt u).numBits = u.numBits ∧ (dPkt u).fs = u.fs ∧ (dPkt u).rs = u.rs
      ∧ (dPkt u).st.cmd = u.st.cmd ∧ (dPkt u).st.hazard = u.st.hazard
      ∧ (∀ a, ¬(0x3000 ≤ a ∧ a < 0x3000 + (u.fs.toNat + 7) / 8) → readByte (dPkt u).win a = readByte u.win a)
      ∧ ((dPkt u).st.err = .ok → u.st.ready = true →
        ∀ k < 8 * ((u.fs.toNat + 7) / 8), (readByte (dPkt u).win (0x3000 + k / 8)).getLsbD (7 - k % 8) =
          if k < u.fs.toNat then (dPkt u).prevOutput.getD k false else false) := by
  rcases dPkt_cases u with ⟨hr, hu⟩ | ⟨-, e, hread, hu⟩ | ⟨-, k, rest, hread, hu⟩ <;> rw [hu]
  · exact ⟨rfl, rfl, rfl, rfl, rfl, rfl, rfl, rfl, rfl, fun _ _ => rfl, fun _ hready => by simp [hr] at hready⟩
  · refine ⟨rfl, rfl, rfl, rfl, rfl, rfl, rfl, rfl, rfl, fun _ _ => rfl, fun hok _ => ?_⟩
    have hne := NamesError.readPacket u.fs.toNat u.dmask u.prevOutput (unreadBits u)
    rw [hread, show e = .ok from hok] at hne
    exact absurd rfl hne
  · obtain ⟨-, hout, -⟩ := length_of_readPacket h.dmask_length h.prevOutput_length hread
    rw [dPktCommit_eq]
    refine ⟨rfl, rfl, rfl, rfl, rfl, rfl, rfl, rfl, rfl, fun a ha => ?_, fun _ _ j hj => ?_⟩
    · dsimp only
      rw [readByte_writeBytes, length_packBits, hout]
      exact if_neg ha
    · refine (getLsbD_readByte_packBits u.win duOut (by rw [hout]; exact hj)).trans ?_
      split
      · rfl
      · exact List.getD_eq_default _ _ (by omega)

/-! ## The mask and the data of a packet of the grammar -/

/-- The recurrence of R354 has one solution. -/
theorem getD_undelta_of_recurrence {delta : BitSeq} {m : Nat → Bool}
    (h : ∀ i < delta.length, m i = (delta.getD i false ^^ (decide (i + 1 < delta.length) && m (i + 1)))) {i : Nat}
    (hi : i < delta.length) : (undelta delta).getD i false = m i := by
  induction hk : delta.length - i generalizing i with
  | zero => omega
  | succ k ih =>
    rw [getD_undelta, h i hi]
    by_cases hlt : i + 1 < delta.length
    · rw [ih hlt (by omega), decide_eq_true hlt, Bool.true_and]
    · rw [List.getD_eq_default (undelta delta) _ (by rw [length_undelta]; omega), decide_eq_false hlt, Bool.false_and]

/-- The extraction mask adds the positive changes where c is 1, which it is with V > 0 only (R357). -/
theorem getD_decoderMask {v n : Nat} {c : Bool} {m pos : BitSeq} (hm : m.length = n) (hp : pos.length = n)
    (hc : c = true → 0 < v) : (decoderMask v c m pos).length = n
      ∧ ∀ i < n, (decoderMask v c m pos).getD i false = (m.getD i false || (c && pos.getD i false)) := by
  unfold decoderMask
  cases c with
  | false => simp [hm]
  | true =>
    rw [if_pos ⟨rfl, hc rfl⟩]
    exact ⟨by simp [hm, hp], fun i hi => by rw [getD_vOr (by omega) (by omega), Bool.true_and]⟩

/-- The data field of the grammar: COUNT(lcf) and the packet, or the bits at the extraction mask (R355 to R357). -/
theorem Reads.readData {n v lcf : Nat} {dir : Direction} {mf : MaskField} {out raw ins : BitSeq} {r : Bool} (hr : mf.r = r)
    (hraw : raw.length = n) (hlcf : lcf ≤ 65537) (ho : out.length = n)
    (hm : (decoderMask v dir.c mf.m dir.pos).length = n)
    (hins : ins.length = (setPositions (decoderMask v dir.c mf.m dir.pos)).length) :
    ∃ l out', Reads (Machine.readData n v dir mf out) (if r = true then cntBits lcf ++ raw else ins) (l, out')
      ∧ (r = true → out' = raw ∧ l = some lcf)
      ∧ (r = false → (setPositions (decoderMask v dir.c mf.m dir.pos)).reverse.map (fun i => out'.getD i false) = ins
        ∧ l = none ∧ ∀ i < n, (decoderMask v dir.c mf.m dir.pos).getD i false = false →
          out'.getD i false = out.getD i false) := by
  cases r with
  | true => exact ⟨some lcf, raw, Reads.readData_raw hr hraw hlcf, fun _ => ⟨rfl, rfl⟩, fun h => (nomatch h)⟩
  | false =>
    obtain ⟨out', hread, hbits, hkept⟩ := Reads.readData_inserted hr (ho.trans hm.symm) hins
    exact ⟨none, out', hread, fun h => (nomatch h), fun _ => ⟨hbits, rfl, fun i hi => hkept i (by omega)⟩⟩

/-! ## D_PKT on a packet of the grammar -/

/-- A D_PKT of a ready unit whose unread bits begin with a packet commits it. -/
theorem dPkt_of_reads {u : Du} {o rest : BitSeq} {k : Packet} (hr : u.st.ready = true)
    (hread : Reads (Machine.readPacket u.fs.toNat u.dmask u.prevOutput) o k) (hbits : unreadBits u = o ++ rest) :
    dPkt u = dPktCommit u k rest := by
  rw [dPkt, if_neg (by simp [hr]), hbits, hread]

/-- The cursor after the packet `o`: behind it, or at the next byte boundary (R183, R358). -/
theorem toNat_bitPos_dPktCommit {cap : Nat} {u : Du} (h : u.Inv cap) {o rest : BitSeq} (k : Packet)
    (hbits : unreadBits u = o ++ rest) : (dPktCommit u k rest).bitPos.toNat =
      if u.autoAlign = true then 8 * ((u.bitPos.toNat + o.length + 7) / 8) else u.bitPos.toNat + o.length := by
  have hlen := congrArg List.length hbits
  rw [length_unreadBits, List.length_append] at hlen
  have hcursor : (u.readTo rest).bitPos.toNat = u.bitPos.toNat + o.length := by
    rw [h.toNat_bitPos_readTo]
    omega
  rw [dPktCommit_eq]
  dsimp only
  split
  · rw [(h.readTo rest).toNat_bitPos_align, hcursor]
    rfl
  · exact hcursor

/-- PKT_INFO of a packet with the direction fields `dir`, as a number (R53). -/
theorem toNat_pktInfo_of_directs {v : Nat} {x m ks : BitSeq} {e c d f r : Bool} {dir : Direction}
    (hv : v < 16) (h : Directs v x m ks e c dir) :
    (pktInfoWord (BitVec.ofNat 4 v) dir.ePresent dir.e dir.c d false f r).toNat =
      v + (if 0 < v ∧ setPositions x ≠ [] then 16 else 0) + 32 * e.toNat + 64 * c.toNat + 128 * d.toNat + 512 * f.toNat
        + 1024 * r.toNat := by
  rw [toNat_pktInfoWord, h.ePresent_eq, h.e_eq, h.c_eq, BitVec.toNat_ofNat, Nat.mod_eq_of_lt hv]
  split <;> rename_i hp <;> simp [flagAt_eq, hp]

/-- The mask after a packet of the grammar: from the mask field's list, or as the direction fields leave it (R352 to R354). -/
theorem getD_mask_of_directs {v n : Nat} {x dmask delta ks : BitSeq} {e c f : Bool} {dir : Direction} {m pos : Nat → Bool}
    (h : Directs v x dmask ks e c dir) (hdmask : dmask.length = n) (hdelta : delta.length = n)
    (hpos : ∀ i, dir.pos.getD i false = pos i)
    (hm : ∀ i < n, m i =
      if f = true then (delta.getD i false ^^ (decide (i + 1 < n) && m (i + 1)))
      else if x.getD i false = true then (if v = 0 then !dmask.getD i false else !pos i) else dmask.getD i false) :
    (if f = true then undelta delta else dir.m).length = n
      ∧ ∀ i < n, (if f = true then undelta delta else dir.m).getD i false = m i := by
  cases f with
  | true =>
    subst hdelta
    exact ⟨length_undelta delta, fun i hi => getD_undelta_of_recurrence hm hi⟩
  | false => exact ⟨h.m_length.trans hdmask, fun i hi => by rw [hm i hi, ← hpos]; exact h.m_bits i (by omega)⟩

/-- Settles O48: the packet of the grammar is read field by field, and committed. -/
theorem decompressionFrame : Obligations.DecompressionFrame := by
  refine ⟨fun s t hinv hexec => ?_, ?_⟩
  · rw [exec_dPkt] at hexec
    cases hexec
    exact ⟨rfl, dPkt_frame hinv⟩
  · intro s o rest x delta ks raw ins v lcf e c d f r xs es m pos em hinv hready hx hdelta hraw hv hlcf hxs hks hes hins he
      hc hd hpos hm hem ho hbits
    have hn : s.du.fs.toNat ≤ 65535 := by have := s.du.fs.isLt; omega
    obtain rfl : xs = setPositions x := hxs.trans (filter_range_eq_setPositions hx fun _ _ => rfl)
    obtain ⟨dir, hdirReads, hdir⟩ :=
      Reads.readDirection (v := v) (m := s.du.dmask) (hx.trans hinv.dmask_length.symm) hks he hc
    have hdirPos : ∀ i, dir.pos.getD i false = pos i := fun i => by rw [hpos]; exact hdir.pos_bits i
    have hmfReads := Reads.readMaskField (m := dir.m) hdelta hn hd
    obtain ⟨hmLength, hmBits⟩ := getD_mask_of_directs hdir hinv.dmask_length hdelta hdirPos hm
    generalize hmask : (if f = true then undelta delta else dir.m) = mask at hmfReads hmLength hmBits
    -- the extraction mask is that of the obligation
    obtain ⟨hemLength, hemBits⟩ := getD_decoderMask (c := dir.c) hmLength (hdir.pos_length.trans hinv.dmask_length)
      fun h => (he (hc (hdir.c_eq ▸ h))).1
    have hemEq : ∀ i < s.du.fs.toNat, em i = (decoderMask v dir.c mask dir.pos).getD i false := fun i hi => by
      rw [hemBits i hi, hem, hmBits i hi, hdirPos, hdir.c_eq]
    obtain rfl : es = setPositions (decoderMask v dir.c mask dir.pos) :=
      hes.trans (filter_range_eq_setPositions hemLength hemEq)
    obtain ⟨l, out, hdataReads, hrawOut, hinsOut⟩ := Reads.readData (mf := ⟨d, f, r, mask⟩) rfl hraw hlcf
      hinv.prevOutput_length hemLength hins
    have hreads := Reads.readPacket (Reads.rleDec hx hn) (Reads.getNum_bitsMsb (n := 4) hv) hdirReads hmfReads hdataReads
    have hexec := dPkt_of_reads (rest := rest) hready hreads (by rw [hbits, ho]; simp only [List.append_assoc])
    refine ⟨{ s with du := dPkt s.du }, exec_dPkt s, ?_⟩
    dsimp only
    have hcursor := toNat_bitPos_dPktCommit hinv ⟨v, dir, ⟨d, f, r, mask⟩, l, out⟩ hbits
    rw [hexec]
    rw [dPktCommit_eq] at hcursor ⊢
    refine ⟨rfl, fun i hi => ⟨hmBits i hi, hdirPos i⟩, fun hr => ?_, fun hr => ?_, toNat_pktInfo_of_directs hv hdir, hcursor,
      toNat_satInc s.du.t⟩
    · obtain ⟨rfl, rfl⟩ := hrawOut hr
      refine ⟨rfl, ?_⟩
      show (BitVec.ofNat 32 lcf).toNat = lcf
      rw [BitVec.toNat_ofNat]
      omega
    · obtain ⟨hout, rfl, hkept⟩ := hinsOut hr
      exact ⟨hout, rfl, fun i hi hfalse => hkept i hi (by rw [← hemEq i hi, hfalse])⟩

end Sys2Proof.Machine
end

