-- ==== Sys2Proof/Proofs/StepDispatch.lean ====
section
/-! PROOFS. O6, O8: what a step runs (R85, R390, R421), and that a command completes in the step that runs it (R423). -/

namespace Sys2Proof.Machine

/-! ## What stands next -/

section Fetch

variable {s s' : State} {u : CodecUnit} {w : Word} {i : Instr} {c : Code}

/-- On a BUSY unit's turn the word it has accepted is fetched, and BUSY is over where it runs (R421). -/
theorem fetch_command (hm : s.micro = none) (ht : s.nextTurn = .unit u) (hp : s.pending u = some w) :
    s.fetch = some (.command u w, s.passTurn.complete u) := by simp [State.fetch, hm, ht, hp]

theorem fetch_uop {b : Byte} (hm : s.micro = some (.uop b)) : s.fetch = some (.uop b, { s with micro := none }) := by
  simp [State.fetch, hm]

theorem fetch_wire (hm : s.micro = some .wire) :
    s.fetch = some (.wire (unreadBits s.du), { s with micro := none }) := by simp [State.fetch, hm]

theorem fetch_of_host (hm : s.micro = none) (ht : s.nextTurn = .host) : s.fetch = none := by
  simp [State.fetch, hm, ht]

theorem fetch_of_idle (hm : s.micro = none) (ht : s.nextTurn = .unit u) (hp : s.pending u = none) : s.fetch = none := by
  simp [State.fetch, hm, ht, hp]

/-! ## What becomes of it -/

theorem step_of_decode (hf : s.fetch = some (c, s')) (hd : decode c = .ok i) : step s = exec i s' := by
  simp [step, hf, hd]

theorem step_of_decode_error {e : DecodeError} (hf : s.fetch = some (c, s')) (hd : decode c = .error e) :
    step s = rejected s' e := by
  simp [step, hf, hd]

theorem step_of_fetch_none (hf : s.fetch = none) : step s = quietStep s := by simp [step, hf]

theorem step_of_host (hm : s.micro = none) (ht : s.nextTurn = .host) : step s = hostTurn s.passTurn := by
  rw [step_of_fetch_none (fetch_of_host hm ht), quietStep, ht]

/-- On the turn of a unit that is not BUSY only the turn is passed (R390). -/
theorem step_of_idle (hm : s.micro = none) (ht : s.nextTurn = .unit u) (hp : s.pending u = none) :
    step s = .next s.passTurn := by
  rw [step_of_fetch_none (fetch_of_idle hm ht hp), quietStep, ht]

end Fetch

/-- The host's next access is performed in program order, and leaves the list (R85). -/
theorem hostTurn_of_cons {s : State} {a : HostAction} {rest : List HostAction} (h : s.host = a :: rest) :
    hostTurn s = hostAct { s with host := rest } a := by simp [hostTurn, h]

theorem hostTurn_of_nil {s : State} (h : s.host = []) : hostTurn s = .next s := by simp [hostTurn, h]

theorem nextTurn_of_cons {s : State} {m : Turn} {rest : List Turn} (h : s.turns = m :: rest) : s.nextTurn = m := by
  simp [State.nextTurn, h]

theorem nextTurn_of_nil {s : State} (h : s.turns = []) : s.nextTurn =
    if s.cu.st.busy = true then .unit .cu else if s.du.st.busy = true then .unit .du else .host := by
  simp [State.nextTurn, h]

/-- Settles O6. -/
theorem stepRunsDecodedInstruction : Obligations.StepRunsDecodedInstruction := by
  refine ⟨fun s u w i hm ht hp hd => ?_, fun s b i hm hd => ?_, fun s i hm hd => ?_, fun s a rest hm ht hh => ?_,
    fun s hm ht hh => ?_, fun s u hm ht hp => ?_, fun s m rest h => ?_, fun s h => ?_⟩
  · exact step_of_decode (fetch_command hm ht hp) hd
  · exact step_of_decode (fetch_uop hm) hd
  · exact step_of_decode (fetch_wire hm) hd
  · rw [step_of_host hm ht, hostTurn_of_cons (s := s.passTurn) hh]; rfl
  · rw [step_of_host hm ht, hostTurn_of_nil (s := s.passTurn) hh]; rfl
  · exact step_of_idle hm ht hp
  · exact nextTurn_of_cons h
  · exact nextTurn_of_nil h

/-! ## Command words -/

/-- A command word decodes to a command of its own unit (R102). -/
theorem format_of_decodeCommand {u : CodecUnit} {w : Word} {i : Instr} (h : decodeCommand u w = .ok i) :
    i.format = .cmd u := by
  unfold decodeCommand at h
  split at h
  · cases h
  · split at h
    · cases h; rfl
    · split at h
      · cases h
      · split at h <;> cases h <;> rfl

/-- An illegal command word is a BAD_COMMAND of its own unit (R393). -/
theorem error_of_decodeCommand {u : CodecUnit} {w : Word} {e : DecodeError} (h : decodeCommand u w = .error e) :
    e = .badCommand u := by
  unfold decodeCommand at h
  split at h
  · cases h; rfl
  · split at h
    · cases h
    · split at h
      · cases h; rfl
      · split at h <;> cases h; rfl

/-- A command always goes on: its errors are outcomes in STATUS (R391, R402). -/
theorem exec_command {i : Instr} {u : CodecUnit} (h : i.format = .cmd u) (s : State) : ∃ t, exec i s = .next t := by
  cases u with
  | cu => obtain ⟨f, hf⟩ := exec_cuCommand h; exact ⟨_, hf s⟩
  | du => obtain ⟨f, hf⟩ := exec_duCommand h; exact ⟨_, hf s⟩

/-! ## BUSY -/

theorem pending_complete (s : State) (u : CodecUnit) : (s.complete u).pending u = none := by cases u <;> rfl

theorem pending_badCommand (s : State) (u v : CodecUnit) : (s.badCommand u).pending v = s.pending v := by
  cases u <;> cases v <;> rfl

theorem cInit_cmd (u : Cu) : (cInit u).st.cmd = u.st.cmd := by
  unfold cInit
  split <;> rfl

theorem dInit_cmd (u : Du) : (dInit u).st.cmd = u.st.cmd := by
  unfold dInit
  split <;> rfl

theorem dLoad_cmd (cap : Nat) (u : Du) : (dLoad cap u).st.cmd = u.st.cmd := by
  unfold dLoad
  split <;> rfl

theorem cPkt_cmd (z nm sm uc : Bool) (u : Cu) : (cPkt z nm sm uc u).st.cmd = u.st.cmd := by
  rcases cPkt_outcomes z nm sm uc u with ⟨st, hcmd, -, hu⟩ | ⟨-, hu⟩ <;> rw [hu]
  · exact hcmd
  · show (cPktPrepare z nm sm uc u).st.cmd = u.st.cmd
    rw [cPktPrepare_st]

theorem dPkt_cmd (u : Du) : (dPkt u).st.cmd = u.st.cmd := by
  rcases dPkt_cases u with ⟨-, hu⟩ | ⟨-, e, -, hu⟩ | ⟨-, k, rest, -, hu⟩ <;> rw [hu]
  · rfl
  · rfl
  · obtain ⟨hst, -⟩ := dPktCommit_fields u k rest
    rw [hst, Status.report_cmd]

theorem orRaise_put_cmd (bits : BitSeq) (u : Cu) : (u.orRaise (put bits u)).st.cmd = u.st.cmd := by
  rcases hp : put bits u with e | u'
  · rfl
  · obtain ⟨-, rfl⟩ := put_eq_ok.mp hp
    rfl

/-- No instruction makes a unit BUSY or ends its BUSY: the step around it does (R421). -/
theorem Effect.pending_eq {i : Instr} {s t : State} (he : Effect i s t) (u : CodecUnit) : t.pending u = s.pending u := by
  cases u with
  | cu =>
    cases he with
    | cInit => exact cInit_cmd s.cu
    | cPkt nm sm uc => exact cPkt_cmd _ nm sm uc s.cu
    | put bits => exact orRaise_put_cmd bits s.cu
    | _ => rfl
  | du =>
    cases he with
    | dInit => exact dInit_cmd s.du
    | dLoad => exact dLoad_cmd _ s.du
    | dPkt => exact dPkt_cmd s.du
    | _ => rfl

/-- Settles O8: a legal word runs as a command of its unit, an illegal one is reported, and neither leaves the unit BUSY. -/
theorem commandsComplete : Obligations.CommandsComplete := by
  intro s u hm ht hp
  obtain ⟨w, hw⟩ := Option.isSome_iff_exists.mp hp
  have hfetch := fetch_command hm ht hw
  have hdone := pending_complete s.passTurn u
  rcases hd : decodeCommand u w with e | i
  · refine ⟨(s.passTurn.complete u).badCommand u, ?_, by rw [pending_badCommand, hdone]⟩
    rw [step_of_decode_error hfetch hd, error_of_decodeCommand hd]
    rfl
  · obtain ⟨t, hexec⟩ := exec_command (format_of_decodeCommand hd) (s.passTurn.complete u)
    refine ⟨t, ?_, ?_⟩
    · rw [step_of_decode hfetch hd, hexec]
    · rw [(exec_effect hexec).pending_eq u, hdone]

end Sys2Proof.Machine
end

