-- ==== Sys2Proof/Proofs/OutWindow.lean ====
section
/-! PROOFS. O40: the packet that a C_PKT leaves in the OUT window (R75). -/

namespace Sys2Proof.Machine

/-- The packet of a C_PKT that ends with ERR = OK is within the buffer's capacity: a longer one raises OVERFLOW (R172). -/
theorem length_packetBits_of_ok {z nm sm uc : Bool} {u : Cu} (hr : u.st.ready = true)
    (hlen : u.inLen.toNat = byteCount u.fs.toNat) (hok : (cPkt z nm sm uc u).st.err = .ok) :
    (packetBits (cPktPrepare z nm sm uc u)).length ≤ 48 * u.fs.toNat := by
  rcases cPkt_cases z nm sm uc u with ⟨hr', -⟩ | ⟨-, hlen', -⟩ | ⟨-, -, -, hu⟩ | ⟨-, -, u', hemit, -⟩
  · rw [hr] at hr'; cases hr'
  · exact absurd hlen hlen'
  · rw [hu] at hok; cases hok
  · rcases cPktEmit_cases (cPktPrepare z nm sm uc u) with ⟨hbits, -⟩ | ⟨-, he⟩
    · simpa [packetBits] using hbits
    · rw [he] at hemit; cases hemit

/-- Settles O40: the commit stores the packet's bytes at the start of OUT. -/
theorem compressedPacketInOutWindow : Obligations.CompressedPacketInOutWindow := by
  intro s t nm sm uc hexec hok hr hlen
  have hcu := cPkt_of_ok hr hlen hexec hok
  rw [exec_cPkt] at hexec
  cases hexec
  have hcap := length_packetBits_of_ok hr hlen hok
  have hbits : (cPktCommit (cPktPrepare s.params.preHistoryZero nm sm uc s.cu).withPacket).outBits.toNat =
      (packetBits (cPktPrepare s.params.preHistoryZero nm sm uc s.cu)).length := toNat_outBits (by simpa using hcap)
  have hframe := readByte_of_committed hcap
  rw [hbits] at hframe
  dsimp only at hcu ⊢
  rw [hcu]
  refine ⟨hbits, fun k hk => ?_, hframe⟩
  refine (getLsbD_readByte_packBits _ cuOut hk).trans ?_
  split
  · rfl
  · exact List.getD_eq_default _ _ (by omega)

end Sys2Proof.Machine
end

