-- ==== Sys2Proof/Proofs/WindowAccess.lean ====
section
/-! PROOFS. O55, O58: the host's accesses to a BUSY unit (R421), and to the windows of an idle one (R73, R74, R76). -/

namespace Sys2Proof.Machine

/-! ## A BUSY unit -/

section Busy

variable {w : Width} {off : Nat}

/-- A write that reaches something of a BUSY unit is the hazard (R421). -/
theorem cuWrite_of_busy {u : Cu} (hb : u.st.busy = true) (h : cuTarget w off ≠ .nowhere) (v : Word) :
    cuWrite u w off v = { u with st := u.st.hazardous } := by
  unfold cuWrite
  split
  · rename_i hn; exact absurd hn h
  · exact if_pos hb

theorem duWrite_of_busy {cap : Nat} {u : Du} (hb : u.st.busy = true) (h : duTarget cap w off ≠ .nowhere) (v : Word) :
    duWrite cap u w off v = { u with st := u.st.hazardous } := by
  unfold duWrite
  split
  · rename_i hn; exact absurd hn h
  · exact if_pos hb

variable {s : State}

/-- STATUS is current, whether the unit is BUSY or not (R421). -/
theorem cuRead_status (h : cuTarget w off = .reg .status) : cuRead s w off = s.returns s.cu.statusWord := by
  rw [cuRead, h]; rfl

theorem duRead_status (h : duTarget s.params.streamCap w off = .reg .status) :
    duRead s w off = s.returns s.du.statusWord := by
  rw [duRead, h]; rfl

/-- Every other read of a BUSY unit draws a value of its own (R421). -/
theorem cuRead_of_busy (hb : s.cu.st.busy = true) (h : cuTarget w off ≠ .nowhere) (hs : cuTarget w off ≠ .reg .status) :
    cuRead s w off = s.draws w := by
  unfold cuRead
  split
  · rename_i hn; exact absurd hn h
  · rename_i hn; exact absurd hn hs
  all_goals exact if_pos hb

theorem duRead_of_busy (hb : s.du.st.busy = true) (h : duTarget s.params.streamCap w off ≠ .nowhere)
    (hs : duTarget s.params.streamCap w off ≠ .reg .status) : duRead s w off = s.draws w := by
  unfold duRead
  split
  · rename_i hn; exact absurd hn h
  · rename_i hn; exact absurd hn hs
  all_goals exact if_pos hb

/-- An 8-bit read of a BUSY unit keeps the low eight bits of the value drawn (notes/assumptions/2.md). -/
theorem State.draws_eq (s : State) (w : Width) : s.draws w = { s with
    readData := if w = .byte then BitVec.ofNat 32 ((Config.busyRead s.drawn).toNat % 256) else Config.busyRead s.drawn
    drawn := s.drawn + 1 } := by
  have hbyte : ((Config.busyRead s.drawn).setWidth 8).setWidth 32 =
      BitVec.ofNat 32 ((Config.busyRead s.drawn).toNat % 256) := by
    rw [← BitVec.ofNat_toNat, BitVec.toNat_setWidth]
  rw [State.draws, hbyte]

end Busy

/-- Settles O55. -/
theorem busyUnitAccesses : Obligations.BusyUnitAccesses := by
  intro s w off v
  constructor
  · intro hb hn
    refine ⟨cuWrite_of_busy hb hn v, cuRead_status, fun hs => ?_⟩
    rw [cuRead_of_busy hb hn hs, State.draws_eq]
  · intro hb hn
    refine ⟨duWrite_of_busy hb hn v, duRead_status, fun hs => ?_⟩
    rw [duRead_of_busy hb hn hs, State.draws_eq]

/-! ## Words in a window (R76) -/

/-- The bytes of a word, the lowest offset first. -/
theorem getD_wordBytesLe (v : Word) {j : Nat} (hj : j < 4) : (wordBytesLe v).getD j 0 = v.extractLsb' (8 * j) 8 := by
  interval_cases j <;> rfl

/-- A word stored at `a` fills four bytes, the one at the lowest offset from bits [7:0]; every other byte stays. -/
theorem readByte_writeBytes_wordBytesLe (m : Memory) (a : Nat) (v : Word) (b : Nat) :
    readByte (writeBytes m a (wordBytesLe v)) b =
      if a ≤ b ∧ b < a + 4 then v.extractLsb' (8 * (b - a)) 8 else readByte m b := by
  rw [readByte_writeBytes, show (wordBytesLe v).length = 4 from rfl]
  split
  · exact getD_wordBytesLe v (by omega)
  · rfl

/-- A word of the window as a number: four bytes, the one at the lowest offset in bits [7:0]. -/
theorem toNat_readWordLe (m : Memory) (a : Nat) : (readWordLe m a).toNat =
    (readByte m a).toNat + 2 ^ 8 * (readByte m (a + 1)).toNat + 2 ^ 16 * (readByte m (a + 2)).toNat
      + 2 ^ 24 * (readByte m (a + 3)).toNat := by
  have toNat_append_byte : ∀ {n : Nat} (x : BitVec n) (y : Byte), (x ++ y).toNat = 2 ^ 8 * x.toNat + y.toNat :=
    fun x y => by rw [BitVec.toNat_append, ← Nat.shiftLeft_add_eq_or_of_lt y.isLt, Nat.shiftLeft_eq, Nat.mul_comm]
  rw [readWordLe, toNat_append_byte, toNat_append_byte, toNat_append_byte]
  omega

/-- A word that was stored is read back. -/
theorem readWordLe_writeBytes_wordBytesLe (m : Memory) (a : Nat) (v : Word) :
    readWordLe (writeBytes m a (wordBytesLe v)) a = v := by
  have hv := v.isLt
  apply BitVec.eq_of_toNat_eq
  simp only [toNat_readWordLe, readByte_writeBytes_wordBytesLe]
  rw [if_pos (by omega), if_pos (by omega), if_pos (by omega), if_pos (by omega)]
  simp [BitVec.extractLsb'_toNat, Nat.shiftRight_eq_div_pow]
  omega

/-- An 8-bit write stores bits [7:0] of its value. -/
theorem readByte_writeByte_low (m : Memory) (a : Nat) (v : Word) (b : Nat) :
    readByte (writeByte m a (v.setWidth 8)) b = if b = a then v.extractLsb' 0 8 else readByte m b := by
  rw [readByte_writeByte, BitVec.setWidth_eq_extractLsb' (by omega)]

/-! ## Window accesses -/

section Windows

variable {s : State} {off cap : Nat} {writable : Bool}

theorem cuWindowAt_lt (h : cuWindowAt off = some writable) : off < regionBytes := by
  have := cuWindowAt_eq_some.mp h
  unfold regionBytes
  omega

theorem duWindowAt_lt (h : duWindowAt cap off = some writable) : off < regionBytes := by
  have := duWindowAt_eq_some.mp h
  unfold regionBytes
  omega

/-- An aligned word lies in four bytes of its window: the windows of the CU begin and end at multiples of 4 (R73). -/
theorem cuTarget_window (h : cuWindowAt off = some writable) :
    cuTarget .byte off = .byte off writable ∧ (off % 4 = 0 → cuTarget .word off = .word off writable) := by
  refine ⟨by simp [cuTarget, target, h], fun ha => ?_⟩
  have hspan := cuWindowAt_eq_some.mp h
  have hlast : cuWindowAt (off + 3) = some writable := cuWindowAt_eq_some.mpr <| hspan.imp
    (fun ⟨hw, hlo, hhi⟩ => ⟨hw, by omega, by omega⟩) fun ⟨hw, hlo, hhi⟩ => ⟨hw, by omega, by omega⟩
  have hreg : ¬off < 0x1000 := by omega
  simp [cuTarget, target, ha, hreg, h, hlast]

/-- So it does in the DU, but at the end of STREAM, which the capacity bounds (R74). -/
theorem duTarget_window (h : duWindowAt cap off = some writable) :
    duTarget cap .byte off = .byte off writable
      ∧ (off % 4 = 0 → off < 0x5000 ∨ off + 4 ≤ 0x10000 + cap → duTarget cap .word off = .word off writable) := by
  refine ⟨by simp [duTarget, target, h], fun ha hend => ?_⟩
  have hspan := duWindowAt_eq_some.mp h
  have hlast : duWindowAt cap (off + 3) = some writable := duWindowAt_eq_some.mpr <| hspan.imp
    (fun ⟨hw, hlo, hhi⟩ => ⟨hw, by omega, by omega⟩)
    fun ⟨hw, hlo, hhi, hcap⟩ => ⟨hw, by omega, by omega, by omega⟩
  have hreg : ¬off < 0x1000 := by omega
  simp [duTarget, target, ha, hreg, h, hlast]

/-- A write to a writable window of an idle unit stores the low byte, or the four bytes of the word (R73, R76). -/
theorem hostAct_write_cuWindow (hb : s.cu.st.busy = false) (h : cuWindowAt off = some true) (v : Word) :
    hostAct s (.write .byte (s.params.cBase + off) v) =
        .next { s with cu := { s.cu with win := writeByte s.cu.win off (v.setWidth 8) } }
      ∧ (off % 4 = 0 → hostAct s (.write .word (s.params.cBase + off) v) =
        .next { s with cu := { s.cu with win := writeBytes s.cu.win off (wordBytesLe v) } }) := by
  have hlt := cuWindowAt_lt h
  obtain ⟨hbyte, hword⟩ := cuTarget_window h
  refine ⟨?_, fun ha => ?_⟩
  · rw [hostAct_write_cu .byte v hlt, cuWrite_of_idle hb, hbyte]; rfl
  · rw [hostAct_write_cu .word v hlt, cuWrite_of_idle hb, hword ha]; rfl

theorem hostAct_write_duWindow (hp : s.params.ok = true) (hb : s.du.st.busy = false)
    (h : duWindowAt s.params.streamCap off = some true) (v : Word) :
    hostAct s (.write .byte (s.params.dBase + off) v) =
        .next { s with du := { s.du with win := writeByte s.du.win off (v.setWidth 8) } }
      ∧ (off % 4 = 0 → off < 0x5000 ∨ off + 4 ≤ 0x10000 + s.params.streamCap →
        hostAct s (.write .word (s.params.dBase + off) v) =
          .next { s with du := { s.du with win := writeBytes s.du.win off (wordBytesLe v) } }) := by
  have hlt := duWindowAt_lt h
  obtain ⟨hbyte, hword⟩ := duTarget_window h
  refine ⟨?_, fun ha hend => ?_⟩
  · rw [hostAct_write_du hp .byte v hlt, duWrite_of_idle hb, hbyte]; rfl
  · rw [hostAct_write_du hp .word v hlt, duWrite_of_idle hb, hword ha hend]; rfl

/-- A read of a window of an idle unit gives the byte, or the word, and changes nothing else (R73, R76). -/
theorem hostAct_read_cuWindow (hb : s.cu.st.busy = false) (h : cuWindowAt off = some writable) :
    hostAct s (.read .byte (s.params.cBase + off)) =
        .next { s with readData := BitVec.ofNat 32 (readByte s.cu.win off).toNat }
      ∧ (off % 4 = 0 → hostAct s (.read .word (s.params.cBase + off)) =
        .next { s with readData := readWordLe s.cu.win off }) := by
  have hlt := cuWindowAt_lt h
  obtain ⟨hbyte, hword⟩ := cuTarget_window h
  refine ⟨?_, fun ha => ?_⟩
  · rw [hostAct_read_cu .byte hlt]; simp [cuRead, hbyte, hb, State.returns]
  · rw [hostAct_read_cu .word hlt]; simp [cuRead, hword ha, hb, State.returns]

theorem hostAct_read_duWindow (hp : s.params.ok = true) (hb : s.du.st.busy = false)
    (h : duWindowAt s.params.streamCap off = some writable) :
    hostAct s (.read .byte (s.params.dBase + off)) =
        .next { s with readData := BitVec.ofNat 32 (readByte s.du.win off).toNat }
      ∧ (off % 4 = 0 → off < 0x5000 ∨ off + 4 ≤ 0x10000 + s.params.streamCap →
        hostAct s (.read .word (s.params.dBase + off)) = .next { s with readData := readWordLe s.du.win off }) := by
  have hlt := duWindowAt_lt h
  obtain ⟨hbyte, hword⟩ := duTarget_window h
  refine ⟨?_, fun ha hend => ?_⟩
  · rw [hostAct_read_du hp .byte hlt]; simp [duRead, hbyte, hb, State.returns]
  · rw [hostAct_read_du hp .word hlt]; simp [duRead, hword ha hend, hb, State.returns]

end Windows

theorem Params.streamCap_le {p : Params} (hp : p.ok = true) : p.streamCap ≤ streamWindowBytes := by
  simp only [Params.ok, Bool.and_eq_true, decide_eq_true_eq] at hp
  exact hp.2

/-- The offsets of STREAM's implemented bytes are those of a writable window (R74). -/
theorem duWindowAt_stream {p : Params} (hp : p.ok = true) {off : Nat} (hlo : 0x10000 ≤ off)
    (hhi : off < 0x10000 + p.streamCap) : duWindowAt p.streamCap off = some true := by
  have hcap := Params.streamCap_le hp
  unfold streamWindowBytes at hcap
  exact duWindowAt_eq_some.mpr (.inr ⟨rfl, hlo, by omega, hhi⟩)

/-- Settles O58. -/
theorem windowWordsLittleEndian : Obligations.WindowWordsLittleEndian := by
  intro s a v word hp hword
  have readWordLe_eq : ∀ m, readWordLe m a = BitVec.ofNat 32 (word m) := fun m => by
    rw [hword, ← toNat_readWordLe, BitVec.ofNat_toNat, BitVec.setWidth_eq]
  refine ⟨fun hb hlo hhi => ?_, fun hb hlo hhi => ?_, fun hb hrange => ?_, fun hb hrange => ?_⟩
  · have hwin : cuWindowAt a = some true := cuWindowAt_eq_some.mpr (.inl ⟨rfl, hlo, hhi⟩)
    obtain ⟨hbyte, hfour⟩ := hostAct_write_cuWindow hb hwin v
    refine ⟨fun ha => ⟨_, hfour ha, readByte_writeBytes_wordBytesLe s.cu.win a v, ?_⟩, _, hbyte,
      readByte_writeByte_low s.cu.win a v⟩
    obtain ⟨-, hread⟩ := hostAct_read_cuWindow
      (s := { s with cu := { s.cu with win := writeBytes s.cu.win a (wordBytesLe v) } }) hb hwin
    simpa only [readWordLe_writeBytes_wordBytesLe] using hread ha
  · have hwin := duWindowAt_stream hp hlo hhi
    obtain ⟨hbyte, hfour⟩ := hostAct_write_duWindow hp hb hwin v
    refine ⟨fun ha hend => ⟨_, hfour ha (.inr hend), readByte_writeBytes_wordBytesLe s.du.win a v, ?_⟩, _, hbyte,
      readByte_writeByte_low s.du.win a v⟩
    obtain ⟨-, hread⟩ := hostAct_read_duWindow
      (s := { s with du := { s.du with win := writeBytes s.du.win a (wordBytesLe v) } }) hp hb hwin
    simpa only [readWordLe_writeBytes_wordBytesLe] using hread ha (.inr hend)
  · rw [← readWordLe_eq]
    rcases hrange with h | h
    · exact hostAct_read_cuWindow hb (cuWindowAt_eq_some.mpr (.inl ⟨rfl, h⟩))
    · exact hostAct_read_cuWindow hb (cuWindowAt_eq_some.mpr (.inr ⟨rfl, h⟩))
  · rw [← readWordLe_eq]
    rcases hrange with h | ⟨hlo, hhi⟩
    · exact hostAct_read_duWindow hp hb (duWindowAt_eq_some.mpr (.inl ⟨rfl, h⟩))
    · exact hostAct_read_duWindow hp hb (duWindowAt_stream hp hlo hhi)

end Sys2Proof.Machine
end

