-- ==== Sys2Proof/Proofs/CommandWords.lean ====
section
/-! PROOFS. O5, O7: the command words as numbers, which of them are legal (R100 to R106), and what a CMD write does with
them (R393, R421). -/

namespace Sys2Proof.Machine

/-! ## Command words as numbers -/

/-- A field of a word as a number (R10). -/
theorem wordField_eq (lo n : Nat) (w : Word) : wordField lo n w = w.toNat / 2 ^ lo % 2 ^ n := by
  rw [wordField, BitVec.extractLsb'_toNat, Nat.shiftRight_eq_div_pow]

theorem toNat_getLsbD (w : Word) (k : Nat) : (w.getLsbD k).toNat = w.toNat / 2 ^ k % 2 := Nat.toNat_testBit ..

theorem toNat_cPktWord (nm sm uc : Bool) :
    (cPktWord nm sm uc).toNat = 2 + 256 * nm.toNat + 512 * sm.toNat + 1024 * uc.toNat := by
  cases nm <;> cases sm <;> cases uc <;> rfl

/-- A word below 2^11 with the opcode of C.PKT is the command word of its flags (R103). -/
theorem eq_cPktWord {w : Word} (hlt : w.toNat < 2048) (hopc : w.toNat % 256 = 2) :
    w = cPktWord (w.getLsbD 8) (w.getLsbD 9) (w.getLsbD 10) := by
  apply BitVec.eq_of_toNat_eq
  rw [toNat_cPktWord, toNat_getLsbD, toNat_getLsbD, toNat_getLsbD]
  omega

theorem decodeCommand_cPktWord (nm sm uc : Bool) : decodeCommand .cu (cPktWord nm sm uc) = .ok (.cPkt nm sm uc) := by
  cases nm <;> cases sm <;> cases uc <;> rfl

/-- A word that decodes to a command is the command's word (R102, R106). -/
theorem encode_of_decodeCommand {u : CodecUnit} {w : Word} {i : Instr} (h : decodeCommand u w = .ok i) :
    encode i = .command u w := by
  unfold decodeCommand at h
  simp only [wordField_eq] at h
  have := w.isLt
  split at h
  · cases h
  rename_i hhigh
  split at h
  · rename_i hopc
    cases h
    exact congrArg (Code.command .cu) (eq_cPktWord (by omega) (by omega)).symm
  split at h
  · cases h
  rename_i hflags
  split at h <;> cases h <;> exact congrArg (Code.command _) (BitVec.eq_of_toNat_eq (by simp; omega))

/-- Settles O5. -/
theorem specWordsDecode : Obligations.SpecWordsDecode :=
  ⟨rfl, decodeCommand_cPktWord, decodeCommand_cPktWord true false false, decodeCommand_cPktWord false true false,
    decodeCommand_cPktWord false false true, decodeCommand_cPktWord false true true, decodeCommand_cPktWord true true true,
    rfl, rfl, rfl, rfl⟩

/-! ## Legal words (R102, R104) -/

/-- The legal words of the CU: C.INIT, and C.PKT with any flags. -/
theorem decodeCommand_cu_isOk_iff (w : Word) :
    (∃ i, decodeCommand .cu w = .ok i) ↔ w.toNat < 2048 ∧ (w.toNat % 256 = 2 ∨ w.toNat = 1) := by
  constructor
  · rintro ⟨i, h⟩
    have hword := encode_of_decodeCommand h
    obtain rfl | ⟨nm, sm, uc, rfl⟩ := (format_eq_cu_iff i).mp (format_of_decodeCommand h) <;> cases hword
    · decide
    · have := nm.toNat_le
      have := sm.toNat_le
      have := uc.toNat_le
      rw [toNat_cPktWord]
      omega
  · rintro ⟨hlt, hopc | h1⟩
    · exact ⟨_, eq_cPktWord hlt hopc ▸ decodeCommand_cPktWord ..⟩
    · obtain rfl : w = 1 := BitVec.eq_of_toNat_eq h1
      exact ⟨.cInit, rfl⟩

/-- The legal words of the DU: 0x11 to 0x14. -/
theorem decodeCommand_du_isOk_iff (w : Word) :
    (∃ i, decodeCommand .du w = .ok i) ↔ 0x11 ≤ w.toNat ∧ w.toNat ≤ 0x14 := by
  constructor
  · rintro ⟨i, h⟩
    have hword := encode_of_decodeCommand h
    obtain rfl | rfl | rfl | rfl := (format_eq_du_iff i).mp (format_of_decodeCommand h) <;> cases hword <;> decide
  · rintro ⟨hlo, hhi⟩
    have hcases : w = 0x11 ∨ w = 0x12 ∨ w = 0x13 ∨ w = 0x14 := by bv_omega
    obtain rfl | rfl | rfl | rfl := hcases
    exacts [⟨.dInit, rfl⟩, ⟨.dLoad, rfl⟩, ⟨.dPkt, rfl⟩, ⟨.dAlign, rfl⟩]

/-! ## A CMD write -/

theorem issue_of_legal {u : CodecUnit} {w : Word} (h : ∃ i, decodeCommand u w = .ok i) (st : Status) :
    st.issue u w = { st with cmd := some w } := by
  obtain ⟨i, hi⟩ := h
  simp [Status.issue, decode, hi]

theorem issue_of_illegal {u : CodecUnit} {w : Word} (h : ¬∃ i, decodeCommand u w = .ok i) (st : Status) :
    st.issue u w = st.report .badCommand := by
  rcases hd : decodeCommand u w with e | i
  · simp [Status.issue, decode, hd]
  · exact absurd ⟨i, hd⟩ h

theorem cuTarget_cmd : cuTarget .word 0 = .reg .cmd := cuTarget_offset .cmd

theorem duTarget_cmd (cap : Nat) : duTarget cap .word 0 = .reg .cmd := duTarget_offset cap .cmd

/-- A CMD write to an idle unit issues its word (R100). -/
theorem cuWrite_cmd {u : Cu} (hb : u.st.busy = false) (w : Word) :
    cuWrite u .word 0 w = { u with st := u.st.issue .cu w } := by
  rw [cuWrite_of_idle hb, cuTarget_cmd]
  rfl

theorem duWrite_cmd {cap : Nat} {u : Du} (hb : u.st.busy = false) (w : Word) :
    duWrite cap u .word 0 w = { u with st := u.st.issue .du w } := by
  rw [duWrite_of_idle hb, duTarget_cmd]
  rfl

/-- Settles O7: the words that are issued are those of the two decoders. -/
theorem cmdWriteIssuesOrRejects : Obligations.CmdWriteIssuesOrRejects := by
  refine ⟨fun u w => ⟨fun hb => ?_, fun hb hw => ?_, fun hb hw => ?_⟩,
    fun cap u w => ⟨fun hb => ?_, fun hb hw => ?_, fun hb hw => ?_⟩⟩
  · exact cuWrite_of_busy hb (by simp [cuTarget_cmd]) w
  · rw [cuWrite_cmd hb, issue_of_legal ((decodeCommand_cu_isOk_iff w).mpr hw)]
  · rw [cuWrite_cmd hb, issue_of_illegal (mt (decodeCommand_cu_isOk_iff w).mp hw)]
    rfl
  · exact duWrite_of_busy hb (by simp [duTarget_cmd]) w
  · rw [duWrite_cmd hb, issue_of_legal ((decodeCommand_du_isOk_iff w).mpr hw)]
  · rw [duWrite_cmd hb, issue_of_illegal (mt (decodeCommand_du_isOk_iff w).mp hw)]
    rfl

end Sys2Proof.Machine
end

