-- ==== Sys2Proof/Proofs/CountCodeWords.lean ====
section
/-! PROOFS. O3, O21: the COUNT code words (R115, R116, R202): the decoder finds the one a stream begins with, and it runs as
the reader that passes it. -/

namespace Sys2Proof.Machine

/-! ## The forms -/

/-- The COUNT forms, the long ones as one family in the number of their zeros (R115, R202). -/
theorem format_eq_wire_iff (i : Instr) : i.format = .wire ↔
    i = .countOne ∨ i = .countTerm ∨ (∃ a, i = .countShort a) ∨ (∃ z a, z ≤ 10 ∧ i = longForm z a)
      ∨ i = .countMalformed := by
  constructor
  · have long : ∀ z a, z ≤ 10 → i = longForm z a → i = .countOne ∨ i = .countTerm ∨ (∃ a, i = .countShort a)
        ∨ (∃ z a, z ≤ 10 ∧ i = longForm z a) ∨ i = .countMalformed :=
      fun z a hz h => .inr (.inr (.inr (.inl ⟨z, a, hz, h⟩)))
    cases i with
    | countOne | countTerm | countMalformed => simp
    | countShort a => simp
    | countLongE6 a => exact fun _ => long 0 a (by decide) rfl
    | countLongE8 a => exact fun _ => long 1 a (by decide) rfl
    | countLongE10 a => exact fun _ => long 2 a (by decide) rfl
    | countLongE12 a => exact fun _ => long 3 a (by decide) rfl
    | countLongE14 a => exact fun _ => long 4 a (by decide) rfl
    | countLongE16 a => exact fun _ => long 5 a (by decide) rfl
    | countLongE18 a => exact fun _ => long 6 a (by decide) rfl
    | countLongE20 a => exact fun _ => long 7 a (by decide) rfl
    | countLongE22 a => exact fun _ => long 8 a (by decide) rfl
    | countLongE24 a => exact fun _ => long 9 a (by decide) rfl
    | countLongE26 a => exact fun _ => long 10 a (by decide) rfl
    | _ => exact fun h => nomatch h
  · rintro (rfl | rfl | ⟨a, rfl⟩ | ⟨z, a, hz, rfl⟩ | rfl)
    · rfl
    · rfl
    · rfl
    · interval_cases z <;> rfl
    · rfl

section LongForm

variable {z : Nat} (hz : z ≤ 10) (a : Nat)

include hz

theorem format_longForm : (longForm z a).format = .wire := by interval_cases z <;> rfl

theorem encode_longForm : encode (longForm z a) = .wire (longBits z a) := by interval_cases z <;> rfl

theorem wireBits_longForm : wireBits (longForm z a) = longBits z a := by rw [wireBits, encode_longForm hz]

/-- The field of a long form has five bits more than its zeros. -/
theorem wellFormed_longForm : wellFormed (longForm z a) = decide (a < 2 ^ (z + 5)) := by interval_cases z <;> rfl

end LongForm

theorem encode_of_wire {i : Instr} (h : i.format = .wire) : encode i = .wire (wireBits i) := by
  obtain rfl | rfl | ⟨a, rfl⟩ | ⟨z, a, hz, rfl⟩ | rfl := (format_eq_wire_iff i).mp h
  · rfl
  · rfl
  · rfl
  · rw [wireBits_longForm hz, encode_longForm hz]
  · rfl

/-! ## Decoding a code word whatever follows it -/

/-- A field that is there is taken, whatever follows it. -/
theorem takeField_bitsMsb {n a : Nat} (h : a < 2 ^ n) (rest : BitSeq) : takeField n (bitsMsb n a ++ rest) = some a := by
  have htake : (bitsMsb n a ++ rest).take n = bitsMsb n a := List.take_left' (length_bitsMsb n a)
  rw [takeField, if_neg (by simp), htake, natMsb_bitsMsb, Nat.mod_eq_of_lt h]

/-- The zeros of a long code word are counted (R116). -/
theorem decodeLong_zeros {z n : Nat} (h : z + n ≤ 10) (r : BitSeq) :
    decodeLong z (List.replicate n false ++ r) = decodeLong (z + n) r := by
  induction n generalizing z with
  | zero => rfl
  | succ n ih =>
    rw [List.replicate_succ, List.cons_append, decodeLong, if_neg (by omega), ih (by omega)]
    congr 1
    omega

theorem decodeWire_longBits {z a : Nat} (hz : z ≤ 10) (ha : a < 2 ^ (z + 5)) (rest : BitSeq) :
    decodeWire (longBits z a ++ rest) = some (longForm z a) := by
  have hbits : longBits z a ++ rest =
      true :: true :: true :: (List.replicate z false ++ (true :: (bitsMsb (z + 5) a ++ rest))) := by simp [longBits]
  rw [hbits, decodeWire, decodeLong_zeros (by omega), Nat.zero_add, decodeLong, takeField_bitsMsb ha]
  rfl

theorem decodeWire_wireBits {i : Instr} (hw : wellFormed i = true) (hf : i.format = .wire) (rest : BitSeq) :
    decodeWire (wireBits i ++ rest) = some i := by
  obtain rfl | rfl | ⟨a, rfl⟩ | ⟨z, a, hz, rfl⟩ | rfl := (format_eq_wire_iff i).mp hf
  · rfl
  · rfl
  · show (takeField 5 (bitsMsb 5 a ++ rest)).map _ = _
    rw [takeField_bitsMsb (of_decide_eq_true hw)]
    rfl
  · rw [wellFormed_longForm hz] at hw
    rw [wireBits_longForm hz, decodeWire_longBits hz (of_decide_eq_true hw)]
  · rfl

/-- Settles O3. -/
theorem countWordsSelfDelimiting : Obligations.CountWordsSelfDelimiting := by
  intro i rest hw hf
  rw [decode, decodeWire_wireBits hw hf]

/-! ## What decodes begins with its code word -/

theorem takeField_eq_some {n a : Nat} {bits : BitSeq} (h : takeField n bits = some a) :
    a < 2 ^ n ∧ ∃ rest, bits = bitsMsb n a ++ rest := by
  unfold takeField at h
  split at h
  · cases h
  · cases h
    have hlen : (bits.take n).length = n := by simp; omega
    have hlt := natMsb_lt (bits.take n)
    have hspell := bitsMsb_natMsb (bits.take n)
    rw [hlen] at hlt hspell
    exact ⟨hlt, bits.drop n, by rw [hspell, List.take_append_drop]⟩

/-- Behind '111' and `z` zeros stand the rest of a long code word's zeros, a one and its field, or the rest of eleven
zeros. -/
theorem decodeLong_eq_some {z : Nat} {bits : BitSeq} {i : Instr} (hz : z ≤ 10) (h : decodeLong z bits = some i) :
    (∃ n a rest, z + n ≤ 10 ∧ a < 2 ^ (z + n + 5) ∧ i = longForm (z + n) a
        ∧ bits = List.replicate n false ++ [true] ++ bitsMsb (z + n + 5) a ++ rest)
      ∨ i = .countMalformed ∧ ∃ rest, bits = List.replicate (11 - z) false ++ rest := by
  induction bits generalizing z with
  | nil => cases h
  | cons b r ih =>
    cases b with
    | true =>
      obtain ⟨a, hfield, rfl⟩ := Option.map_eq_some_iff.mp h
      obtain ⟨ha, rest, rfl⟩ := takeField_eq_some hfield
      exact .inl ⟨0, a, rest, hz, ha, rfl, rfl⟩
    | false =>
      rw [decodeLong] at h
      split at h
      · rename_i hten
        cases h
        obtain rfl : z = 10 := by omega
        exact .inr ⟨rfl, r, rfl⟩
      · obtain ⟨n, a, rest, hn, ha, rfl, rfl⟩ | ⟨rfl, rest, rfl⟩ := ih (by omega) h
        · have hsum : z + 1 + n = z + (n + 1) := by omega
          rw [hsum] at hn ha ⊢
          exact .inl ⟨n + 1, a, rest, hn, ha, rfl, rfl⟩
        · have hzeros : 11 - z = 11 - (z + 1) + 1 := by omega
          exact .inr ⟨rfl, rest, by rw [hzeros]; rfl⟩

/-- What a stream decodes to is well formed, and the stream begins with its code word (R116). -/
theorem decodeWire_eq_some {bits : BitSeq} {i : Instr} (h : decodeWire bits = some i) :
    wellFormed i = true ∧ i.format = .wire ∧ ∃ rest, bits = wireBits i ++ rest := by
  unfold decodeWire at h
  split at h
  · cases h
    exact ⟨rfl, rfl, _, rfl⟩
  · cases h
    exact ⟨rfl, rfl, _, rfl⟩
  · obtain ⟨a, hfield, rfl⟩ := Option.map_eq_some_iff.mp h
    obtain ⟨ha, rest, rfl⟩ := takeField_eq_some hfield
    exact ⟨decide_eq_true ha, rfl, rest, rfl⟩
  · obtain ⟨z, a, rest, hz, ha, rfl, rfl⟩ | ⟨rfl, rest, rfl⟩ := decodeLong_eq_some (by omega) h
    · rw [Nat.zero_add] at hz ha ⊢
      refine ⟨?_, format_longForm hz a, rest, by simp [wireBits_longForm hz, longBits]⟩
      rw [wellFormed_longForm hz, decide_eq_true ha]
    · exact ⟨rfl, rfl, rest, rfl⟩
  · cases h

/-! ## A code word as an instruction of the reader -/

/-- A COUNT form with a value runs as the reader of its code word (R115, R204). -/
theorem exec_countForm {i : Instr} (hf : i.format = .wire) (hne : i ≠ .countMalformed) (s : State) :
    exec i s = .next (s.readCount i) := by
  obtain rfl | rfl | ⟨a, rfl⟩ | ⟨z, a, hz, rfl⟩ | rfl := (format_eq_wire_iff i).mp hf
  · rfl
  · rfl
  · rfl
  · interval_cases z <;> rfl
  · exact absurd rfl hne

/-- The reader of a code word moves past it, whatever bits the stream holds, and delivers its value. -/
theorem readCount_of_le {s : State} {i : Instr} (h : (wireBits i).length ≤ remaining s.du) :
    s.readCount i = { s with
      du := { s.du with bitPos := s.du.bitPos + BitVec.ofNat 32 (wireBits i).length }
      dp := { s.dp with resNum := countValue i } } := by
  have hread : (unreadBits s.du).length - ((unreadBits s.du).drop (wireBits i).length).length = (wireBits i).length := by
    rw [List.length_drop, length_unreadBits]
    omega
  rw [State.readCount, readCode, if_neg (by rw [length_unreadBits]; omega)]
  show { s with du := s.du.readTo _, dp := _ } = _
  rw [Du.readTo, hread]

/-- Settles O21: each row's length and value are those of its code word. -/
theorem countFormsDeliverValues : Obligations.CountFormsDeliverValues := by
  intro s a i len val hrow hlen
  obtain ⟨hf, hne, rfl, rfl⟩ :
      i.format = .wire ∧ i ≠ .countMalformed ∧ len = (wireBits i).length ∧ val = countValue i := by
    simp only [List.mem_cons, Prod.mk.injEq, List.not_mem_nil, or_false] at hrow
    rcases hrow with ⟨rfl, rfl, rfl⟩ | ⟨rfl, rfl, rfl⟩ | ⟨rfl, rfl, rfl⟩ | ⟨rfl, rfl, rfl⟩ | ⟨rfl, rfl, rfl⟩
      | ⟨rfl, rfl, rfl⟩ | ⟨rfl, rfl, rfl⟩ | ⟨rfl, rfl, rfl⟩ | ⟨rfl, rfl, rfl⟩ | ⟨rfl, rfl, rfl⟩ | ⟨rfl, rfl, rfl⟩
      | ⟨rfl, rfl, rfl⟩ | ⟨rfl, rfl, rfl⟩ | ⟨rfl, rfl, rfl⟩
    all_goals exact ⟨rfl, by simp, rfl, rfl⟩
  rw [exec_countForm hf hne, readCount_of_le hlen]

end Sys2Proof.Machine
end

