-- ==== Sys2Proof/Proofs/Encoding.lean ====
section
/-! PROOFS. O2, O4: encoding and decoding are inverse to each other, in the three formats (R102, R116, R120). -/

namespace Sys2Proof.Machine

/-- A code that R120 lists is the code of the micro-operation it decodes to. -/
theorem encode_of_decodeUop {b : Byte} {i : Instr} (h : decodeUop b = .ok i) : encode i = .uop b := by
  unfold decodeUop at h
  split at h <;> cases h
  all_goals
    rename_i hcode
    exact congrArg Code.uop (BitVec.eq_of_toNat_eq hcode.symm)

/-- Only the COUNT forms have a field that can be too wide. -/
theorem wellFormed_of_format {i : Instr} (h : i.format ≠ .wire) : wellFormed i = true := by
  cases i with
  | countShort _ | countLongE6 _ | countLongE8 _ | countLongE10 _ | countLongE12 _ | countLongE14 _ | countLongE16 _
  | countLongE18 _ | countLongE20 _ | countLongE22 _ | countLongE24 _ | countLongE26 _ => exact absurd rfl h
  | _ => rfl

/-- The code of a micro-operation is listed as that micro-operation's (R120). -/
theorem decode_encode_uop {i : Instr} (h : i.format = .uop) : decode (encode i) = .ok i := by
  cases i <;> cases h <;> rfl

theorem decode_encode_command {i : Instr} {u : CodecUnit} (h : i.format = .cmd u) : decode (encode i) = .ok i := by
  cases u with
  | cu =>
    obtain rfl | ⟨nm, sm, uc, rfl⟩ := (format_eq_cu_iff i).mp h
    · rfl
    · exact decodeCommand_cPktWord nm sm uc
  | du => obtain rfl | rfl | rfl | rfl := (format_eq_du_iff i).mp h <;> rfl

/-- Settles O2: by the three formats; a code word is decoded as one that nothing follows. -/
theorem decodeOfEncode : Obligations.DecodeOfEncode := by
  intro i hw
  cases hf : i.format with
  | cmd u => exact decode_encode_command hf
  | uop => exact decode_encode_uop hf
  | wire =>
    have h := countWordsSelfDelimiting i [] hw hf
    rwa [List.append_nil, ← encode_of_wire hf] at h

/-- Settles O4: by the three places where bits stand. -/
theorem decodedIsEncodable : Obligations.DecodedIsEncodable := by
  intro c i h
  cases c with
  | command u w =>
    have hf := format_of_decodeCommand h
    exact ⟨wellFormed_of_format (by simp [hf]), .inl (encode_of_decodeCommand h)⟩
  | uop b =>
    have henc := encode_of_decodeUop h
    refine ⟨wellFormed_of_format fun hf => ?_, .inl henc⟩
    rw [encode_of_wire hf] at henc
    cases henc
  | wire bits =>
    rcases hd : decodeWire bits with _ | j <;> simp only [decode, hd] at h <;> cases h
    obtain ⟨hw, hf, rest, hbits⟩ := decodeWire_eq_some hd
    exact ⟨hw, .inr ⟨bits, rest, rfl, hf, hbits⟩⟩

end Sys2Proof.Machine
end

