-- ==== Sys2Proof/Proofs/RejectedPackets.lean ====
section
/-! PROOFS. O49: what a D_PKT rejects (R118): a stream that ends inside the packet (R392), a malformed COUNT code word (R205)
and a run-length list that passes index 0 (R212); only STATUS changes (R394). -/

namespace Sys2Proof.Machine

/-! ## A D_PKT and what it reads -/

theorem dPkt_of_error {u : Du} {e : ErrCode} (hr : u.st.ready = true)
    (h : readPacket u.fs.toNat u.dmask u.prevOutput (unreadBits u) = .error e) : dPkt u = u.raise e := by
  rw [dPkt, if_neg (by simp [hr]), h]

/-- A D_PKT of a ready unit that ends with ERR = OK has read and committed a packet. -/
theorem dPkt_of_err_ok {u : Du} (hr : u.st.ready = true) (hok : (dPkt u).st.err = .ok) :
    ∃ k rest, readPacket u.fs.toNat u.dmask u.prevOutput (unreadBits u) = .ok (k, rest)
      ∧ dPkt u = dPktCommit u k rest := by
  rcases dPkt_cases u with ⟨hr', -⟩ | ⟨-, e, hread, hu⟩ | ⟨-, h⟩
  · rw [hr] at hr'
    cases hr'
  · rw [hu] at hok
    obtain rfl : e = .ok := hok
    exact absurd hread (NamesError.readPacket _ _ _ _)
  · exact h

/-! ## (a) A stream that ends inside the packet -/

/-- A reader that answers underflows on every shorter part of the bits it has read. -/
theorem IsReader.underflow_of_take {α : Type} {r : BitSeq → Except ErrCode (α × BitSeq)} {bits rest : BitSeq} {v : α} {m : Nat}
    (hr : IsReader r) (h : r bits = .ok (v, rest)) (hm : m < bits.length - rest.length) :
    r (bits.take m) = .error .underflow := by
  obtain ⟨pre, rfl, -, hcut⟩ := hr _ _ _ h
  rw [List.length_append, Nat.add_sub_cancel] at hm
  rw [List.take_append_of_le_length (by omega)]
  exact hcut _ (pre.drop m) (List.take_append_drop m pre).symm (by simp; omega)

/-- The unread bits of a stream that ends earlier are the first of the unread bits. -/
theorem unreadBits_cut {u : Du} {n : Word} (h : n.toNat ≤ u.numBits.toNat) :
    unreadBits { u with numBits := n } = (unreadBits u).take (n.toNat - u.bitPos.toNat) := by
  have hmin : min (n.toNat - u.bitPos.toNat) (remaining u) = n.toNat - u.bitPos.toNat := by unfold remaining; omega
  rw [unreadBits, unreadBits, ← List.map_take, List.take_range, hmin]
  rfl

/-- The cursor moves by the bits read, in a unit that need not meet the invariant (R181). -/
theorem toNat_bitPos_readTo (u : Du) (rest : BitSeq) :
    (u.readTo rest).bitPos.toNat = u.bitPos.toNat + ((unreadBits u).length - rest.length) := by
  have := u.numBits.isLt
  rw [Du.readTo_bitPos, BitVec.toNat_add, BitVec.toNat_ofNat, length_unreadBits]
  unfold remaining
  omega

/-- Cut before the end of the packet it would read, the stream underflows (R118, R392). -/
theorem dPkt_cut {u : Du} {n : Word} (hr : u.st.ready = true)
    (hok : (dPkt { u with autoAlign := false }).st.err = .ok) (hlo : u.bitPos.toNat ≤ n.toNat)
    (hhi : n.toNat < (dPkt { u with autoAlign := false }).bitPos.toNat) :
    dPkt { u with numBits := n } = { u with numBits := n }.raise .underflow := by
  obtain ⟨k, rest, hread, hcommit⟩ := dPkt_of_err_ok (u := { u with autoAlign := false }) hr hok
  have hcursor : (dPkt { u with autoAlign := false }).bitPos.toNat =
      u.bitPos.toNat + ((unreadBits u).length - rest.length) := by
    rw [hcommit, dPktCommit_eq]
    exact toNat_bitPos_readTo { u with autoAlign := false } rest
  rw [hcursor] at hhi
  have hbits : unreadBits { u with numBits := n } = (unreadBits u).take (n.toNat - u.bitPos.toNat) := by
    refine unreadBits_cut ?_
    rw [length_unreadBits, remaining] at hhi
    omega
  refine dPkt_of_error hr ?_
  rw [hbits]
  exact (isReader_readPacket u.fs.toNat u.dmask u.prevOutput).underflow_of_take hread (by omega)

/-! ## (b), (c) Malformed fields -/

/-- A reader in sequence whose second part fails behind the bits of the first. -/
theorem Reads.bind_error {α β : Type} {r : BitSeq → Except ErrCode (α × BitSeq)}
    {k : α × BitSeq → Except ErrCode (β × BitSeq)} {p w : BitSeq} {v : α} {e : ErrCode} (hr : Reads r p v)
    (hk : k (v, w) = .error e) : (r (p ++ w) >>= k) = .error e := by
  rw [hr]
  exact hk

/-- '111' and eleven zeros are malformed, whatever follows (R205). -/
theorem cntDec_malformed (y : BitSeq) :
    cntDec ([true, true, true] ++ List.replicate 11 false ++ y) = .error .malformed := rfl

/-- These bits are no run-length list of `n` bits: its distances pass index 0, or behind distances that do not stands the
malformed code word (R118, R212). -/
def MalformedList (n : Nat) (w : BitSeq) : Prop :=
  ∃ (ds : List Nat) (y : BitSeq), (∀ d ∈ ds, 1 ≤ d ∧ d ≤ 65537)
    ∧ (n < ds.sum ∧ w = (ds.map cntBits).flatten ++ y
      ∨ ds.sum ≤ n ∧ w = (ds.map cntBits).flatten ++ [true, true, true] ++ List.replicate 11 false ++ y)

/-- One distance of the list: past index 0 it is malformed, else the rest follows it (R212). -/
theorem rleDecFrom_cntBits {d : Nat} (hd : 1 ≤ d ∧ d ≤ 65537) (fuel pos : Nat) (acc r : BitSeq) :
    rleDecFrom (fuel + 1) pos acc (cntBits d ++ r) =
      if d > pos then .error .malformed else rleDecFrom fuel (pos - d) (true :: zeros (d - 1) ++ acc) r := by
  rw [rleDecFrom, Reads.cntDec hd.2]
  exact if_neg (by omega)

section Distances

variable {ds : List Nat} (hds : ∀ d ∈ ds, 1 ≤ d ∧ d ≤ 65537) {fuel pos : Nat} (acc y : BitSeq)

include hds

/-- A list whose distances pass index 0 (R118, R212). -/
theorem rleDecFrom_passing (hfuel : pos < fuel) (hsum : pos < ds.sum) :
    rleDecFrom fuel pos acc ((ds.map cntBits).flatten ++ y) = .error .malformed := by
  induction ds generalizing fuel pos acc with
  | nil => simp at hsum
  | cons d ds ih =>
    obtain ⟨fuel, rfl⟩ := Nat.exists_eq_add_of_le' (Nat.one_le_of_lt hfuel)
    obtain ⟨hd, hds⟩ := List.forall_mem_cons.mp hds
    rw [List.sum_cons] at hsum
    rw [List.map_cons, List.flatten_cons, List.append_assoc, rleDecFrom_cntBits hd]
    split
    · rfl
    · exact ih hds _ (by omega) (by omega)

/-- A malformed code word behind distances that stay within the vector (R118, R205). -/
theorem rleDecFrom_malformedWord (hfuel : pos < fuel) (hsum : ds.sum ≤ pos) :
    rleDecFrom fuel pos acc ((ds.map cntBits).flatten ++ ([true, true, true] ++ List.replicate 11 false ++ y)) =
      .error .malformed := by
  induction ds generalizing fuel pos acc with
  | nil =>
    obtain ⟨fuel, rfl⟩ := Nat.exists_eq_add_of_le' (Nat.one_le_of_lt hfuel)
    rfl
  | cons d ds ih =>
    obtain ⟨fuel, rfl⟩ := Nat.exists_eq_add_of_le' (Nat.one_le_of_lt hfuel)
    obtain ⟨hd, hds⟩ := List.forall_mem_cons.mp hds
    rw [List.sum_cons] at hsum
    rw [List.map_cons, List.flatten_cons, List.append_assoc, rleDecFrom_cntBits hd, if_neg (by omega)]
    exact ih hds _ (by omega) (by omega)

end Distances

theorem rleDec_malformed {n : Nat} {w : BitSeq} (h : MalformedList n w) : rleDec n w = .error .malformed := by
  obtain ⟨ds, y, hds, ⟨hsum, rfl⟩ | ⟨hsum, rfl⟩⟩ := h
  · exact rleDecFrom_passing hds [] y (Nat.lt_succ_self n) hsum
  · simpa only [rleDec, List.append_assoc] using rleDecFrom_malformedWord hds [] y (Nat.lt_succ_self n) hsum

/-- A malformed list in the mask field (R354). -/
theorem readMaskField_malformed {n : Nat} {m w : BitSeq} (h : MalformedList n w) :
    readMaskField n m ([false] ++ [true] ++ w) = .error .malformed := by
  show (rleDec n w >>= _) = _
  rw [rleDec_malformed h]
  rfl

/-- A malformed COUNT(F) (R355). -/
theorem readData_malformed {n v : Nat} {dir : Direction} {mf : MaskField} {out : BitSeq} (hr : mf.r = true) (y : BitSeq) :
    readData n v dir mf out ([true, true, true] ++ List.replicate 11 false ++ y) = .error .malformed := by
  rw [readData, if_pos hr, cntDec_malformed]
  rfl

section Fields

variable {n v : Nat} {dmask out p1 p2 p3 w x : BitSeq} {dir : Direction}

/-- An error of the mask field is the packet's. -/
theorem readPacket_of_maskField_error (hx : Reads (rleDec n) p1 x) (hv : Reads (getNum 4) p2 v)
    (hdir : Reads (readDirection v x dmask) p3 dir) {e : ErrCode} (h : readMaskField n dir.m w = .error e) :
    readPacket n dmask out (p1 ++ p2 ++ p3 ++ w) = .error e := by
  simp only [List.append_assoc]
  refine hx.bind_error (hv.bind_error (hdir.bind_error ?_))
  dsimp only
  rw [h]
  rfl

/-- An error of the data field is the packet's. -/
theorem readPacket_of_data_error (hx : Reads (rleDec n) p1 x) (hv : Reads (getNum 4) p2 v)
    (hdir : Reads (readDirection v x dmask) p3 dir) {p4 : BitSeq} {mf : MaskField}
    (hmf : Reads (readMaskField n dir.m) p4 mf) {e : ErrCode} (h : readData n v dir mf out w = .error e) :
    readPacket n dmask out (p1 ++ p2 ++ p3 ++ p4 ++ w) = .error e := by
  simp only [List.append_assoc]
  refine hx.bind_error (hv.bind_error (hdir.bind_error (hmf.bind_error ?_)))
  dsimp only
  rw [h]
  rfl

end Fields

theorem length_setPositions (x : BitSeq) : (setPositions x).length = x.count true := by
  induction x with
  | nil => rfl
  | cons b x ih =>
    rw [length_setPositions_cons, ih]
    cases b <;> simp [Nat.add_comm]

theorem setPositions_ne_nil_iff (x : BitSeq) : setPositions x ≠ [] ↔ true ∈ x := by
  rw [← List.length_pos_iff, length_setPositions, List.count_pos_iff]

/-- The direction fields are read whatever e and c are where they do not stand in the stream (R111). -/
theorem Reads.readDirection_bits (v : Nat) {x m ks : BitSeq} (e c : Bool) (h : x.length = m.length)
    (hks : ks.length = x.count true) :
    ∃ dir, Reads (Machine.readDirection v x m)
      (if 0 < v ∧ true ∈ x then [e] ++ (if e = true then ks ++ [c] else []) else []) dir := by
  by_cases hp : 0 < v ∧ true ∈ x
  · rw [if_pos hp]
    rw [← setPositions_ne_nil_iff] at hp
    cases e with
    | true =>
      obtain ⟨dir, hdir, -⟩ := Reads.readDirection_directed c h (hks.trans (length_setPositions x).symm) hp
      exact ⟨dir, hdir⟩
    | false =>
      obtain ⟨dir, hdir, -⟩ := Reads.readDirection_set ks h hp
      exact ⟨dir, hdir⟩
  · rw [if_neg hp]
    rw [← setPositions_ne_nil_iff] at hp
    obtain ⟨dir, hdir, -⟩ := Reads.readDirection_toggled ks h hp
    exact ⟨dir, hdir⟩

/-- Settles O49: the cut packet underflows as every reader does; a malformed field ends the packet where it stands. -/
theorem truncatedPacketUnderflows : Obligations.TruncatedPacketUnderflows := by
  refine ⟨fun s t n hr _ hexec hok hlo hhi => ?_, ?_⟩
  · rw [exec_dPkt] at hexec ⊢
    cases hexec
    rw [dPkt_cut hr hok hlo hhi]
    rfl
  · intro s bad h x delta ks rest w v e c f hr hbad _ hdmask hx hdelta hv hks hh hbits
    have hn : s.du.fs.toNat ≤ 65535 := by have := s.du.fs.isLt; omega
    have hlist : bad w → MalformedList s.du.fs.toNat w := (hbad w).mp
    have hwindow := Reads.rleDec hx hn
    have hv4 := Reads.getNum_bitsMsb (n := 4) hv
    obtain ⟨dir, hdir⟩ := Reads.readDirection_bits v e c (hx.trans hdmask.symm) hks
    have hmalformed :
        readPacket s.du.fs.toNat s.du.dmask s.du.prevOutput (unreadBits s.du) = .error .malformed := by
      obtain ⟨hbits, hw⟩ | ⟨hbits, hw⟩ | hbits := hbits <;> rw [hbits]
      · rw [readPacket, rleDec_malformed (hlist hw)]
        rfl
      · have := readPacket_of_maskField_error (out := s.du.prevOutput) hwindow hv4 hdir
          (readMaskField_malformed (hlist hw))
        rw [hh]
        simpa only [List.append_assoc] using this
      · have hmf := Reads.readMaskField (m := dir.m) (d := false) (f := f) (r := true) hdelta hn nofun
        have := readPacket_of_data_error (out := s.du.prevOutput) hwindow hv4 hdir hmf
          (readData_malformed rfl rest)
        rw [hh]
        simpa only [List.append_assoc, Bool.false_eq_true, if_false] using this
    rw [exec_dPkt, dPkt_of_error hr hmalformed]
    rfl

end Sys2Proof.Machine
end

