-- ==== Sys2Proof/Proofs/BitVectorAlu.lean ====
section
/-! PROOFS. O9 to O13: the results of the bit_vector_alu element by element (R141 to R152). What an operation
answers is `alu1_eq_next` and `alu2_eq_next`; each bit of a result is its operator's law in Laws/Bits. -/

namespace Sys2Proof.Machine

/-- Past the end a vector reads 0 (R148), so a bound on the index says nothing new. -/
theorem ite_lt_getD {a : BitSeq} {n : Nat} (h : a.length = n) (i : Nat) :
    (if i < n then a.getD i false else false) = a.getD i false := by
  subst h
  split
  · rfl
  · rename_i hlt
    exact (List.getD_eq_default a false (Nat.le_of_not_lt hlt)).symm

/-- The Hamming weight is the number of positions that hold a one (R147). -/
theorem popcount_eq_card (a : BitSeq) :
    popcount a = ((Finset.range a.length).filter fun i => a.getD i false = true).card := by
  have hset : (setPositions a).toFinset = (Finset.range a.length).filter fun i => a.getD i false = true := by
    ext i
    rw [List.mem_toFinset, Finset.mem_filter, Finset.mem_range, ← mem_setPositions]
    exact ⟨fun hi => ⟨lt_of_mem_setPositions hi, hi⟩, And.right⟩
  have hnodup : (setPositions a).Nodup := List.nodup_range.filter _
  rw [← hset, List.toFinset_card_of_nodup hnodup, length_setPositions, popcount]

/-! ## The operations, each by the shape of its operands (R153) -/

theorem exec_bvXor (s : State) : exec .bvXor s = s.alu2 vXor := rfl

theorem exec_bvOr (s : State) : exec .bvOr s = s.alu2 vOr := rfl

theorem exec_bvAnd (s : State) : exec .bvAnd s = s.alu2 vAnd := rfl

theorem exec_bvNot (s : State) : exec .bvNot s = s.alu1 fun d => { d with resVec := vNot d.opA } := rfl

theorem exec_bvShl1 (s : State) : exec .bvShl1 s = s.alu1 fun d => { d with resVec := vShl1 d.opA } := rfl

theorem exec_bvRev (s : State) : exec .bvRev s = s.alu1 fun d => { d with resVec := vRev d.opA } := rfl

theorem exec_bvPopcnt (s : State) : exec .bvPopcnt s = s.alu1 fun d => { d with resNum := popcount d.opA } := rfl

theorem exec_bvGet (s : State) : exec .bvGet s = s.alu1 fun d => { d with resBit := vGet d.opA d.opIndex } := rfl

theorem exec_bvSet (s : State) : exec .bvSet s = s.alu1 fun d => { d with resVec := vSet d.opA d.opIndex d.opBit } := rfl

theorem exec_bvUnpack (s : State) : exec .bvUnpack s = whenLengths (s.dp.opBytes.length == byteCount s.aluLength)
    (.next { s with dp := { s.dp with resVec := unpackBits s.aluLength s.dp.opBytes } }) := rfl

theorem exec_bvPack (s : State) : exec .bvPack s = s.alu1 fun d => { d with resBytes := packBits d.opA } := rfl

/-! ## The results, element by element -/

/-- Settles O9: the three operators combine the bits at each index. -/
theorem bitwiseOperationsPointwise : Obligations.BitwiseOperationsPointwise := by
  refine ⟨rfl, rfl, rfl, fun s ha hb => ⟨vXor s.dp.opA s.dp.opB, vOr s.dp.opA s.dp.opB, vAnd s.dp.opA s.dp.opB,
    by simp [ha, hb], by simp [ha, hb], by simp [ha, hb], (exec_bvXor s).trans (alu2_eq_next.mpr ⟨ha, hb, rfl⟩),
    (exec_bvOr s).trans (alu2_eq_next.mpr ⟨ha, hb, rfl⟩),
    (exec_bvAnd s).trans (alu2_eq_next.mpr ⟨ha, hb, rfl⟩), fun i hi => ?_⟩⟩
  have hia : i < s.dp.opA.length := ha ▸ hi
  have hib : i < s.dp.opB.length := hb ▸ hi
  exact ⟨getD_vXor hia hib, getD_vOr hia hib, getD_vAnd hia hib⟩

/-- Settles O10: each bit of the result is a bit of the operand, at the same index, the next one or the mirrored one. -/
theorem notShiftReversePointwise : Obligations.NotShiftReversePointwise := by
  refine ⟨rfl, rfl, rfl, fun s ha => ⟨vNot s.dp.opA, vShl1 s.dp.opA, vRev s.dp.opA, by simp [ha], by simp [ha],
    by simp [ha], (exec_bvNot s).trans (alu1_eq_next.mpr ⟨ha, rfl⟩),
    (exec_bvShl1 s).trans (alu1_eq_next.mpr ⟨ha, rfl⟩),
    (exec_bvRev s).trans (alu1_eq_next.mpr ⟨ha, rfl⟩), fun i hi => ?_⟩⟩
  have hia : i < s.dp.opA.length := ha ▸ hi
  refine ⟨getD_vNot hia, ?_, ha ▸ getD_vRev hia⟩
  rw [ite_lt_getD ha, getD_vShl1]

/-- Settles O11: the count of one bits is the number of their positions. -/
theorem popcountAndZero : Obligations.PopcountAndZero := by
  refine ⟨rfl, rfl, fun s => ⟨fun ha => ?_, zeros s.aluLength, length_zeros _, getD_zeros _, rfl⟩⟩
  rw [← ha, ← popcount_eq_card]
  exact (exec_bvPopcnt s).trans (alu1_eq_next.mpr ⟨ha, rfl⟩)

/-- Settles O12: past the end BV.GET reads the default 0, and BV.SET has no index to write. -/
theorem getAndSetBit : Obligations.GetAndSetBit := by
  refine ⟨rfl, rfl, fun s ha => ⟨?_, vSet s.dp.opA s.dp.opIndex s.dp.opBit, by simp [ha],
    (exec_bvSet s).trans (alu1_eq_next.mpr ⟨ha, rfl⟩), fun j hj => getD_vSet _ _ (ha ▸ hj)⟩⟩
  rw [ite_lt_getD ha]
  exact (exec_bvGet s).trans (alu1_eq_next.mpr ⟨ha, rfl⟩)

/-- Settles O13: ceil(F/8) bytes hold F bits, and the padding bits of the last byte lie past the end of the vector. -/
theorem unpackAndPackBytes : Obligations.UnpackAndPackBytes := by
  refine ⟨rfl, rfl, fun s hb => ?_, fun s ha => ?_⟩
  · have hle : s.aluLength ≤ 8 * s.dp.opBytes.length := hb ▸ le_byteCount s.aluLength
    refine ⟨_, ?_, (exec_bvUnpack s).trans (whenLengths_eq_next.mpr ⟨beq_iff_eq.mpr hb, rfl⟩),
      fun i hi => getD_unpackBits _ _ i hi (by omega)⟩
    rw [length_unpackBits, Nat.min_eq_left hle]
  · refine ⟨packBits s.dp.opA, ?_, (exec_bvPack s).trans (alu1_eq_next.mpr ⟨ha, rfl⟩), fun j hj k hk => ?_⟩
    · rw [length_packBits, ha, byteCount]
    · rw [ite_lt_getD ha, getLsbD_packBits _ j k (ha ▸ hj) hk]

end Sys2Proof.Machine
end

