-- ==== Sys2Proof/Proofs/OperandRefusals.lean ====
section
/-! PROOFS. O14: a micro-operation with a vector operand of another length than its rule gives it is refused (R153). -/

namespace Sys2Proof.Machine

/-- One operand of another length refuses the operation, whatever it would do. -/
theorem whenLengths_eq_refused {n : Nat} {vs : List BitSeq} (o : Host.Outcome State Fault Refusal)
    (h : ∃ v ∈ vs, v.length ≠ n) : whenLengths (haveLength n vs) o = .refused .operandLength := by
  obtain ⟨v, hv, hne⟩ := h
  have hlen : haveLength n vs = false := List.all_eq_false.mpr ⟨v, hv, by simpa using hne⟩
  rw [hlen]
  rfl

/-- One slot of the change-vector ring of another length fails the check on all sixteen. -/
theorem exists_mem_hist_of_get {u : Cu} {n : Nat} (h : ∃ k : Fin 16, (u.hist.get k).length ≠ n) :
    ∃ v ∈ u.hist.toList, v.length ≠ n := by
  obtain ⟨k, hk⟩ := h
  exact ⟨_, by simp [Vector.get], hk⟩

/-- A byte sequence of another length than ceil(F/8) refuses BV.UNPACK (R151). -/
theorem exec_bvUnpack_of_length_ne {s : State} (h : s.dp.opBytes.length ≠ byteCount s.aluLength) :
    exec .bvUnpack s = .refused .operandLength := by
  rw [exec_bvUnpack, beq_false_of_ne h]
  rfl

/-- Settles O14: every operation named checks the operand named before it does anything. -/
theorem unusableOperandsRefused : Obligations.UnusableOperandsRefused := by
  refine fun s => ⟨fun ha i hi => ?_, fun hb i hi => ?_, exec_bvUnpack_of_length_ne, fun ha i hi => ?_, fun hb i hi => ?_,
    fun hab i hi => ?_, fun h => ?_, fun h => ?_, fun h => ?_, fun h => ?_, fun h i hi => ?_⟩
  · fin_cases hi <;> exact whenLengths_eq_refused _ ⟨s.dp.opA, .head _, ha⟩
  · fin_cases hi <;> exact whenLengths_eq_refused _ ⟨s.dp.opB, .tail _ (.head _), hb⟩
  · fin_cases hi <;> exact whenLengths_eq_refused _ ⟨s.dp.opA, .head _, ha⟩
  · fin_cases hi <;> exact whenLengths_eq_refused _ ⟨s.dp.opB, .tail _ (.head _), hb⟩
  · fin_cases hi <;> exact whenLengths_eq_refused _ (vs := [s.dp.opA, s.dp.opB]) (by simpa using hab)
  · exact whenLengths_eq_refused _ (vs := [s.cu.build, s.cu.tmp.inp, s.cu.prevInput]) (by simpa using h)
  · exact whenLengths_eq_refused _ (vs := [s.cu.mask, s.cu.tmp.inp, s.cu.prevInput, s.cu.tmp.buildPrev])
      (by simpa using h)
  · exact whenLengths_eq_refused _ (vs := [s.cu.mask, s.cu.prevMask]) (by simpa using h)
  · exact whenLengths_eq_refused _ ⟨s.cu.tmp.change, .head _, h⟩
  · fin_cases hi <;> exact whenLengths_eq_refused _ (exists_mem_hist_of_get h)

end Sys2Proof.Machine
end

