-- ==== Sys2Proof/Proofs/BitPacker.lean ====
section
/-! PROOFS. O15 to O18: the BitBuffer operations (R171 to R175) and the BitReader operations (R181 to R184). -/

namespace Sys2Proof.Machine

/-! ## BitBuffer -/

theorem exec_bbPutbit (s : State) : exec .bbPutbit s = .next (s.runCu (put [s.dp.opBit] s.cu)) := rfl

theorem exec_bbPutval (s : State) :
    exec .bbPutval s = .next (s.runCu (put (bitsMsb s.dp.opWidth.val s.dp.opVal.toNat) s.cu)) := rfl

theorem exec_bbPutvec {s : State} (h : s.dp.opA.length = s.cu.fs.toNat) :
    exec .bbPutvec s = .next (s.runCu (put s.dp.opA s.cu)) :=
  whenLengths_eq_next.mpr ⟨(haveLength_cons _ _ _).mpr ⟨h, haveLength_nil _⟩, rfl⟩

/-- Settles O15: the three put their bits through the one capacity check of R172. -/
theorem bufferOperations : Obligations.BufferOperations := by
  refine ⟨rfl, rfl, rfl, rfl, fun s => ⟨rfl, ?_,
    ⟨bitsMsb s.dp.opWidth.val s.dp.opVal.toNat, length_bitsMsb _ _, ?_, ?_⟩, fun ha => ?_⟩⟩
  · rw [exec_bbPutbit, runCu_put]
    rfl
  · rw [← natMsb_eq_foldl, natMsb_bitsMsb]
  · rw [exec_bbPutval, runCu_put, length_bitsMsb]
    rfl
  · rw [exec_bbPutvec ha, runCu_put, ha]
    rfl

/-- Settles O16: the padding bits of the last byte lie past the end of the buffer. -/
theorem bufferToBytes : Obligations.BufferToBytes := by
  refine ⟨rfl, fun s => ⟨packBits s.cu.obuf, length_packBits _, rfl, fun j hj k hk => ?_⟩⟩
  rw [ite_lt_getD rfl, getLsbD_packBits _ j k hj hk]

/-! ## BitReader -/

/-- The stream bit of R80, counted from the least significant bit of its byte. -/
theorem streamBit_eq (u : Du) (k : Nat) :
    streamBit u k = (readByte u.win (duStream + k / 8)).getLsbD (7 - k % 8) := by
  have hlt : k % 8 < 8 := Nat.mod_lt k (by decide)
  rw [streamBit, BitVec.getMsbD, decide_eq_true hlt, Bool.true_and]

/-- The `n` bits of the stream from BIT_POS on. -/
def nextBits (u : Du) (n : Nat) : BitSeq := (List.range n).map fun k => streamBit u (u.bitPos.toNat + k)

@[simp] theorem length_nextBits (u : Du) (n : Nat) : (nextBits u n).length = n := by simp [nextBits]

/-- Where `n` bits remain, the unread bits begin with the next `n`. -/
theorem unreadBits_eq_nextBits_append {u : Du} {n : Nat} (h : n ≤ remaining u) :
    ∃ rest, unreadBits u = nextBits u n ++ rest ∧ rest.length = remaining u - n := by
  have htake : (unreadBits u).take n = nextBits u n := by
    rw [unreadBits, nextBits, ← List.map_take, List.take_range, Nat.min_eq_left h]
  exact ⟨(unreadBits u).drop n, by rw [← htake, List.take_append_drop], by simp⟩

/-- A read of the next `n` bits moves BIT_POS by `n` and delivers what the reader makes of them (R181). -/
theorem runReader_of_reads {α : Type} {s : State} {n : Nat} {r : BitSeq → Except ErrCode (α × BitSeq)} {v : α}
    (hn : n ≤ remaining s.du) (hr : Reads r (nextBits s.du n) v) (k : α → Datapath → Datapath) :
    s.runReader (r (unreadBits s.du)) k =
      { s with du := { s.du with bitPos := s.du.bitPos + BitVec.ofNat 32 n }, dp := k v s.dp } := by
  obtain ⟨rest, hbits, hrest⟩ := unreadBits_eq_nextBits_append hn
  have hread : (unreadBits s.du).length - rest.length = n := by rw [length_unreadBits]; omega
  rw [hbits, hr rest, State.runReader, Du.readTo, hread]

/-- The bit that BR.GETBIT reads (R181). -/
theorem reads_getBit_nextBits (u : Du) : Reads getBit (nextBits u 1) (streamBit u u.bitPos.toNat) := Reads.getBit _

/-- The integer that BR.GETBITS reads, most significant bit first (R182). -/
theorem natMsb_nextBits (u : Du) (n : Nat) : natMsb (nextBits u n) =
    (List.range n).foldl (fun v k => 2 * v + (streamBit u (u.bitPos.toNat + k)).toNat) 0 := by
  rw [natMsb_eq_foldl, nextBits, List.foldl_map]

theorem reads_getBits_nextBits (u : Du) (n : Nat) : Reads (getBits n) (nextBits u n) (natMsb (nextBits u n)) := by
  intro rest
  rw [getBits, if_neg (by simp)]
  exact Reads.getNum (length_nextBits u n) rest

theorem exec_brGetbit (s : State) :
    exec .brGetbit s = .next (s.runReader (getBit (unreadBits s.du)) fun b d => { d with resBit := b }) := rfl

theorem exec_brGetbits (s : State) : exec .brGetbits s =
    .next (s.runReader (getBits s.dp.opWidth.val (unreadBits s.du)) fun v d => { d with resNum := v }) := rfl

/-- BR.GETBIT at the end of the stream (R181). -/
theorem getBit_unreadBits_of_end {u : Du} (h : u.bitPos.toNat ≥ u.numBits.toNat) :
    getBit (unreadBits u) = .error .underflow := by
  have hnil : unreadBits u = [] :=
    List.eq_nil_of_length_eq_zero ((length_unreadBits u).trans (Nat.sub_eq_zero_of_le h))
  rw [hnil]
  rfl

/-- BR.GETBITS of more bits than remain (R182). -/
theorem getBits_unreadBits_of_short {u : Du} {n : Nat} (h : n > remaining u) :
    getBits n (unreadBits u) = .error .underflow := if_pos (by rwa [length_unreadBits])

/-- Settles O17: a read within the stream reads its next bits, and any other leaves the cursor where it is. -/
theorem readerReadsBits : Obligations.ReaderReadsBits := by
  refine ⟨rfl, rfl, fun s => ⟨?_, ?_⟩⟩
  · rw [exec_brGetbit]
    split
    · rename_i hend
      rw [getBit_unreadBits_of_end hend]
      rfl
    · rename_i hlt
      have hone : 1 ≤ remaining s.du := by unfold remaining; omega
      rw [runReader_of_reads hone (reads_getBit_nextBits s.du), streamBit_eq]
      rfl
  · rw [exec_brGetbits]
    split
    · rename_i hshort
      rw [getBits_unreadBits_of_short hshort]
      rfl
    · rename_i hlen
      rw [runReader_of_reads (Nat.not_lt.mp hlen) (reads_getBits_nextBits s.du _), natMsb_nextBits]
      simp only [streamBit_eq]
      rfl

/-- Settles O18: NUM_BITS is a byte boundary at or past BIT_POS, so the next one is within it. -/
theorem readerAlignAndRemain : Obligations.ReaderAlignAndRemain := by
  refine ⟨rfl, rfl, fun s => ⟨rfl, rfl, fun hbytes hle => ?_⟩⟩
  omega

end Sys2Proof.Machine
end

