-- ==== Sys2Proof/Proofs/PacketSize.lean ====
section
/-! PROOFS. O39: the size bound of a compressed packet (R119), and that a C_PKT never overflows its buffer (R176). -/

namespace Sys2Proof.Machine

/-! ## Lengths of the fields -/

/-- The long code word of a count `a` takes `2 * (log2 (a - 2) + 1) - 3` bits (R201). -/
theorem length_cntBits_of_long {a : Nat} (h : 33 < a) : (cntBits a).length = 2 * (a - 2).log2 - 1 := by
  have hlog : 5 ≤ (a - 2).log2 := (Nat.le_log2 (by omega)).mpr (by omega)
  rw [cntBits, if_neg (by omega), if_neg (by omega), if_neg (by omega), List.length_append, length_bitsMsb,
    List.length_cons, List.length_cons, List.length_cons, List.length_nil]
  omega

theorem length_cntBits_of_short {a : Nat} (h2 : 2 ≤ a) (h33 : a ≤ 33) : (cntBits a).length = 8 := by
  rw [cntBits, if_neg (by omega), if_neg (by omega), if_pos h33]
  simp

/-- A code word has at most four bits for each unit it counts (R119). -/
theorem length_cntBits_le {a : Nat} (h : 1 ≤ a) : (cntBits a).length ≤ 4 * a := by
  obtain rfl | h2 := Nat.eq_or_lt_of_le h
  · decide
  obtain h33 | h33 := le_or_gt a 33
  · rw [length_cntBits_of_short h2 h33]
    omega
  · have hlog : (a - 2).log2 ≤ a - 2 := Nat.log2_le_self _
    rw [length_cntBits_of_long h33]
    omega

/-- COUNT(F) has at most 29 bits (R119). -/
theorem length_cntBits_le_29 {a : Nat} (h : a ≤ 65535) : (cntBits a).length ≤ 29 := by
  obtain h0 | h0 := Nat.lt_or_ge a 2
  · interval_cases a <;> decide
  obtain h33 | h33 := le_or_gt a 33
  · rw [length_cntBits_of_short h0 h33]
    decide
  · have hlog : (a - 2).log2 < 16 := (Nat.log2_lt (by omega)).mpr (by omega)
    rw [length_cntBits_of_long h33]
    omega

/-- The distances of a list sum to at most what the scan has still to pass, and the terminator has two bits (R119). -/
theorem length_rleFrom_le {gap : Nat} (hgap : 1 ≤ gap) (w : BitSeq) :
    (rleFrom gap w).length ≤ 4 * (w.length + gap - 1) + 2 := by
  induction w generalizing gap with
  | nil => exact Nat.le_add_left 2 _
  | cons b w ih =>
    rw [List.length_cons]
    cases b with
    | true =>
      have hword := length_cntBits_le hgap
      have hrest := ih (Nat.le_refl 1)
      rw [rleFrom, List.length_append]
      omega
    | false =>
      have hrest := ih (gap := gap + 1) (by omega)
      rw [rleFrom]
      omega

/-- R114, R119. -/
theorem length_rleBits_le (v : BitSeq) : (rleBits v).length ≤ 4 * v.length + 2 := by
  simpa [rleBits] using length_rleFrom_le (Nat.le_refl 1) v.reverse

/-- The list of one bit is '010' or '10' (R210). -/
theorem length_rleBits_le_of_length_one {v : BitSeq} (h : v.length = 1) : (rleBits v).length ≤ 3 := by
  obtain ⟨b, rfl⟩ := List.length_eq_one_iff.mp h
  cases b <;> decide

theorem length_beFwd_le {a m : BitSeq} (h : a.length = m.length) : (beFwd a m).length ≤ m.length := by
  rw [beFwd_eq_map h, List.length_map, length_setPositions]
  exact List.count_le_length

theorem length_beRev_le {a m : BitSeq} (h : a.length = m.length) : (beRev a m).length ≤ m.length := by
  rw [beRev_eq_reverse h, List.length_reverse]
  exact length_beFwd_le h

/-! ## The packet -/

section Packet

variable {u : Cu} {n : Nat}

/-- The direction fields are e_t, at most F bits of k_t, and c_t (R111). -/
theorem length_directionBits_le (hm : u.mask.length = n) (hx : u.tmp.window.length = n) :
    (directionBits u).length ≤ n + 2 := by
  have hk : (beFwd (vNot u.mask) u.tmp.window).length ≤ u.tmp.window.length := length_beFwd_le (by simp [hm, hx])
  unfold directionBits
  split
  · exact Nat.zero_le _
  · exact Nat.le_add_left 1 _
  · simp only [List.length_append, List.length_cons, List.length_nil]
    omega

/-- q_t is f_t and, where the mask is sent, one run-length list (R112). -/
theorem length_maskBits_le {b : Nat} (hb : (rleBits (vXor u.mask (vShl1 u.mask))).length ≤ b) :
    (maskBits u).length ≤ b + 1 := by
  unfold maskBits
  split
  · exact Nat.zero_le _
  · split
    · rw [List.length_append, List.length_singleton]
      omega
    · exact Nat.le_add_left 1 b

/-- u_t is at most r_t, COUNT(F) and the packet (R113). -/
theorem length_dataBits_le (hm : u.mask.length = n) (hx : u.tmp.window.length = n) (hinp : u.tmp.inp.length = n) :
    (dataBits u).length ≤ 1 + (cntBits u.fs.toNat).length + n := by
  have hmask : (extractionMask u).length = n := length_extractionMask hm hx
  have hbits : (beRev u.tmp.inp (extractionMask u)).length ≤ n := hmask ▸ length_beRev_le (hinp.trans hmask.symm)
  unfold dataBits
  split
  · simp [hinp]
  · have hr : (if dFlag u = true then [] else [false]).length ≤ 1 := by split <;> decide
    rw [List.length_append]
    omega

/-- The sum of R119, with a bound `b` on the two run-length lists and the length of COUNT(F) left open. -/
theorem length_packetBits_le (hm : u.mask.length = n) (hx : u.tmp.window.length = n) (hinp : u.tmp.inp.length = n)
    {b : Nat} (hb : ∀ v : BitSeq, v.length = n → (rleBits v).length ≤ b) :
    (packetBits u).length ≤ 2 * b + (cntBits u.fs.toNat).length + 2 * n + 9 := by
  have hwindow := hb u.tmp.window hx
  have hdir := length_directionBits_le hm hx
  have hmask := length_maskBits_le (hb (vXor u.mask (vShl1 u.mask)) (by simp [hm]))
  have hdata := length_dataBits_le hm hx hinp
  simp only [packetBits, headerBits, List.length_append, length_bitsMsb, List.length_cons, List.length_nil]
  omega

end Packet

/-! ## C_PKT -/

@[simp] theorem Cu.withPacket_st (u : Cu) : u.withPacket.st = u.st := rfl
@[simp] theorem Cu.withPacket_t (u : Cu) : u.withPacket.t = u.t := rfl

/-- The prepared unit's robustness window has F bits (R262). -/
theorem Cu.Inv.length_window_cPktPrepare {u : Cu} (h : u.Inv) (z nm sm uc : Bool) :
    (Machine.cPktPrepare z nm sm uc u).tmp.window.length = u.fs.toNat := by
  obtain ⟨hwindow, -⟩ := windowValues_eq z _ (cPktPrepare_eq z nm sm uc u)
  rw [hwindow, (h.cPktPrepare z nm sm uc).length_windowOr, cPktPrepare_fs]

/-- R119 of the packet that a C_PKT prepares. -/
theorem Cu.Inv.length_packetBits_le {u : Cu} (h : u.Inv) (z nm sm uc : Bool) :
    (packetBits (Machine.cPktPrepare z nm sm uc u)).length ≤ 10 * u.fs.toNat + 42
      ∧ (u.fs.toNat = 1 → (packetBits (Machine.cPktPrepare z nm sm uc u)).length ≤ 18) := by
  have hmask : (Machine.cPktPrepare z nm sm uc u).mask.length = u.fs.toNat :=
    (h.cPktPrepare z nm sm uc).mask_length.trans (by rw [cPktPrepare_fs])
  have hwindow := h.length_window_cPktPrepare z nm sm uc
  have hinp : (Machine.cPktPrepare z nm sm uc u).tmp.inp.length = u.fs.toNat := by
    rw [cPktPrepare_inp, length_windowVector]
  constructor
  · have hcount : (cntBits u.fs.toNat).length ≤ 29 := length_cntBits_le_29 (Nat.le_of_lt_succ u.fs.isLt)
    have hbits := Machine.length_packetBits_le hmask hwindow hinp (b := 4 * u.fs.toNat + 2)
      fun v hv => hv ▸ length_rleBits_le v
    rw [cPktPrepare_fs] at hbits
    omega
  · intro h1
    have hcount : (cntBits 1).length = 1 := rfl
    have hbits := Machine.length_packetBits_le hmask hwindow hinp (b := 3)
      fun v hv => length_rleBits_le_of_length_one (hv.trans h1)
    rw [cPktPrepare_fs, h1] at hbits
    omega

/-- The emission into an empty buffer of a packet within the capacity leaves that packet in it (R172, R300). -/
theorem cPktEmit_of_fits {u : Cu} (hbuf : u.obuf = []) (hfits : (packetBits u).length ≤ 48 * u.fs.toNat) :
    cPktEmit u = .ok u.withPacket := by
  have hlen : u.obuf.length + (packetBits u).length = (packetBits u).length := by simp [hbuf]
  obtain ⟨-, he⟩ | ⟨hover, -⟩ := cPktEmit_cases u
  · rw [he, hbuf, List.nil_append]
    rfl
  · exact absurd (hlen ▸ hover) (Nat.not_lt.mpr hfits)

/-- So the C_PKT of a ready unit with the right IN_LEN commits it (R308). -/
theorem cPkt_of_fits {z nm sm uc : Bool} {u : Cu} (hr : u.st.ready = true) (hlen : u.inLen.toNat = byteCount u.fs.toNat)
    (hfits : (packetBits (cPktPrepare z nm sm uc u)).length ≤ 48 * u.fs.toNat) :
    cPkt z nm sm uc u = cPktCommit (cPktPrepare z nm sm uc u).withPacket := by
  have hok := cPktEmit_of_fits (cPktPrepare_obuf z nm sm uc u) (by rwa [cPktPrepare_fs])
  obtain ⟨hr', -⟩ | ⟨-, hlen', -⟩ | ⟨-, -, hover, -⟩ | ⟨-, -, u', hemit, hu⟩ := cPkt_cases z nm sm uc u
  · rw [hr] at hr'; cases hr'
  · exact absurd hlen hlen'
  · rw [hok] at hover; cases hover
  · rw [hok] at hemit; cases hemit
    exact hu

/-- Settles O39: the bound of R119 is below the capacity for every F, so the packet is committed. -/
theorem compressionNeverOverflows : Obligations.CompressionNeverOverflows := by
  intro s nm sm uc hinv hr hlen
  obtain ⟨hbound, hone⟩ := hinv.length_packetBits_le s.params.preHistoryZero nm sm uc
  have hpos := hinv.length_pos
  have hfits : (packetBits (cPktPrepare s.params.preHistoryZero nm sm uc s.cu)).length ≤ 48 * s.cu.fs.toNat := by
    obtain h1 | h1 := Nat.eq_or_lt_of_le hpos
    · have := hone h1.symm
      omega
    · omega
  refine ⟨_, exec_cPkt nm sm uc s, ?_⟩
  dsimp only
  rw [cPkt_of_fits hr hlen hfits]
  refine ⟨?_, hbound, hone, toNat_outBits (by simpa using hfits), ?_⟩
  · rw [cPktCommit_st, Cu.withPacket_st, cPktPrepare_st, Status.report]
  · rw [cPktCommit_t, toNat_satInc, Cu.withPacket_t, cPktPrepare_t]

end Sys2Proof.Machine
end

