-- ==== Sys2Proof/Proofs/CountCode.lean ====
section
/-! PROOFS. O19, O20, O22, O23: the COUNT code run by the instructions CNT.ENC, CNT.DEC and COUNT_MALFORMED (R201, R204 to
R206). -/

namespace Sys2Proof.Machine

/-! ## Readers run by an instruction -/

/-- Where the unread bits begin with those a reader reads, BIT_POS moves past them and the result is delivered (R181). -/
theorem runReader_of_append {α : Type} {s : State} {r : BitSeq → Except ErrCode (α × BitSeq)} {bits rest : BitSeq} {v : α}
    (hr : Reads r bits v) (hbits : unreadBits s.du = bits ++ rest) (k : α → Datapath → Datapath) :
    s.runReader (r (unreadBits s.du)) k =
      { s with du := { s.du with bitPos := s.du.bitPos + BitVec.ofNat 32 bits.length }, dp := k v s.dp } := by
  have hread : (unreadBits s.du).length - rest.length = bits.length := by simp [hbits]
  rw [hbits, hr rest, State.runReader, Du.readTo, hread]

/-- An error of a reader is raised, and changes only STATUS (R394). -/
theorem runReader_of_error {α : Type} (s : State) {r : Except ErrCode (α × BitSeq)} {e : ErrCode} (h : r = .error e)
    (k : α → Datapath → Datapath) : s.runReader r k = { s with du := s.du.raise e } := by rw [h, State.runReader]

/-- A reader underflows where the bits it would read are cut (R181, R392). -/
theorem IsReader.underflow_of_reads {α : Type} {r : BitSeq → Except ErrCode (α × BitSeq)} {p q : BitSeq} {v : α}
    (hr : IsReader r) (h : Reads r (p ++ q) v) (hq : q ≠ []) : r p = .error .underflow := by
  obtain ⟨pre, hpre, -, hcut⟩ := hr _ _ _ (h [])
  rw [List.append_left_inj] at hpre
  exact hcut p q hpre.symm hq

/-! ## CNT.ENC (R201) -/

theorem exec_cntEnc (s : State) : exec .cntEnc s = .next (s.runCu (put (cntBits s.dp.opCount.toNat) s.cu)) := rfl

/-- A count of 2 to 33: '110' and five bits. -/
theorem cntBits_of_short {a : Nat} (h2 : 2 ≤ a) (h33 : a ≤ 33) : cntBits a = [true, true, false] ++ bitsMsb 5 (a - 2) := by
  rw [cntBits, if_neg (by omega), if_neg (by omega), if_pos h33]

/-- A count `a` from 34 on, where `a - 2` has `l` bits: '111' and `2 * l - 6` bits. -/
theorem cntBits_of_long {a l : Nat} (h34 : 34 ≤ a) (hlow : 2 ^ (l - 1) ≤ a - 2) (hhigh : a - 2 < 2 ^ l) :
    cntBits a = [true, true, true] ++ bitsMsb (2 * l - 6) (a - 2) := by
  have hpos : l ≠ 0 := by rintro rfl; omega
  have hlog : (a - 2).log2 = l - 1 :=
    (Nat.log2_eq_iff (by omega)).mpr ⟨hlow, by rwa [Nat.sub_add_cancel (Nat.one_le_iff_ne_zero.mpr hpos)]⟩
  have hwidth : l - 1 + 1 = l := by omega
  rw [cntBits, if_neg (by omega), if_neg (by omega), if_neg (by omega), hlog, hwidth]

/-- The field of the long form holds all of `a - 2`. -/
theorem lt_two_pow_width {v l : Nat} (h32 : 32 ≤ v) (hhigh : v < 2 ^ l) : v < 2 ^ (2 * l - 6) := by
  have hl : 5 < l := (Nat.pow_lt_pow_iff_right (a := 2) (by decide)).mp (Nat.lt_of_le_of_lt h32 hhigh)
  exact Nat.lt_of_lt_of_le hhigh (Nat.pow_le_pow_right (by decide) (by omega))

theorem foldl_bitsMsb {n v : Nat} (h : v < 2 ^ n) : (bitsMsb n v).foldl (fun v b => 2 * v + b.toNat) 0 = v := by
  rw [← natMsb_eq_foldl, natMsb_bitsMsb, Nat.mod_eq_of_lt h]

/-- Settles O19: the code word of each value class is put through the one capacity check of R172. -/
theorem countEncoderAppends : Obligations.CountEncoderAppends := by
  refine ⟨rfl, fun s => ⟨cntBits s.dp.opCount.toNat, ?_, fun h0 => ?_, fun h1 => ?_, fun h2 h33 => ?_,
    fun h34 l hlow hhigh => ?_⟩⟩
  · rw [exec_cntEnc, runCu_put]
    rfl
  · rw [h0]
    rfl
  · rw [h1]
    rfl
  · exact ⟨_, cntBits_of_short h2 h33, length_bitsMsb _ _, foldl_bitsMsb (by omega)⟩
  · exact ⟨_, cntBits_of_long h34 hlow hhigh, length_bitsMsb _ _,
      foldl_bitsMsb (lt_two_pow_width (by omega) hhigh)⟩

/-- Settles O20: CNT.DEC reads exactly the code word. -/
theorem countRoundTrip : Obligations.CountRoundTrip :=
  fun _ rest ha => Reads.cntDec (Nat.le_trans ha (by decide)) rest

/-! ## CNT.DEC (R204, R205) -/

theorem exec_cntDec (s : State) :
    exec .cntDec s = .next (s.runReader (cntDec (unreadBits s.du)) fun v d => { d with resNum := v }) := rfl

theorem countValue_longForm {z : Nat} (hz : z ≤ 10) (a : Nat) : countValue (longForm z a) = 2 ^ (z + 5) + a + 2 := by
  interval_cases z <;> rfl

/-- CNT.DEC reads the code word of each form as its value. -/
theorem Reads.cntDec_wireBits {i : Instr} (hw : wellFormed i = true) (hf : i.format = .wire) (hne : i ≠ .countMalformed) :
    Reads Machine.cntDec (wireBits i) (countValue i) := by
  obtain rfl | rfl | ⟨a, rfl⟩ | ⟨z, a, hz, rfl⟩ | rfl := (format_eq_wire_iff i).mp hf
  · exact fun _ => rfl
  · exact fun _ => rfl
  · exact Reads.cntDec_short (of_decide_eq_true hw)
  · rw [wellFormed_longForm hz] at hw
    rw [wireBits_longForm hz, countValue_longForm hz]
    exact Reads.cntDec_long hz (of_decide_eq_true hw)
  · exact absurd rfl hne

/-- A cut malformed code word is also the greatest long form's, cut: they differ in the eleventh bit after '111'. -/
theorem longBits_of_malformed_cut {p q : BitSeq} (hq : q ≠ []) (h : wireBits .countMalformed = p ++ q) :
    ∃ q', q' ≠ [] ∧ longBits 10 0 = p ++ q' := by
  have hlast : ([true, true, true] ++ List.replicate 10 false) ++ [false] = (p ++ q.dropLast) ++ [q.getLast hq] := by
    rw [List.append_assoc p, List.dropLast_append_getLast, ← h]
    rfl
  obtain ⟨hcut, -⟩ := List.append_inj' hlast rfl
  refine ⟨q.dropLast ++ ([true] ++ bitsMsb 15 0), by simp, ?_⟩
  rw [longBits, List.append_assoc, hcut, List.append_assoc]

/-- Only the COUNT forms have bits on the wire (R115). -/
theorem format_of_wireBits {i : Instr} (h : wireBits i ≠ []) : i.format = .wire := by
  cases i with
  | countOne | countTerm | countMalformed | countShort _ | countLongE6 _ | countLongE8 _ | countLongE10 _ | countLongE12 _
  | countLongE14 _ | countLongE16 _ | countLongE18 _ | countLongE20 _ | countLongE22 _ | countLongE24 _
  | countLongE26 _ => rfl
  | _ => exact absurd rfl h

/-- CNT.DEC underflows inside every code word, the malformed one included. -/
theorem cntDec_cut {i : Instr} {p q : BitSeq} (hw : wellFormed i = true) (hq : q ≠ []) (h : wireBits i = p ++ q) :
    cntDec p = .error .underflow := by
  by_cases hm : i = .countMalformed
  · subst hm
    obtain ⟨q', hq', hlong⟩ := longBits_of_malformed_cut hq h
    exact isReader_cntDec.underflow_of_reads (hlong ▸ Reads.cntDec_long (by decide) (by decide)) hq'
  · have hf : i.format = .wire := format_of_wireBits (by simp [h, hq])
    exact isReader_cntDec.underflow_of_reads (h ▸ Reads.cntDec_wireBits hw hf hm) hq

/-- Settles O22: a whole form is read as its value, and an error leaves the cursor. -/
theorem countDecoderFollowsForms : Obligations.CountDecoderFollowsForms := by
  refine ⟨rfl, fun s i hw hf => ⟨fun rest hne hbits => ?_, fun rest hbits => ?_, fun rest hne hcut => ?_⟩⟩
  · rw [exec_cntDec, runReader_of_append (Reads.cntDec_wireBits hw hf hne) hbits]
  · rw [exec_cntDec, hbits, runReader_of_error s (cntDec_malformed rest)]
    rfl
  · rw [exec_cntDec, runReader_of_error s (cntDec_cut hw hne hcut)]
    rfl

/-! ## COUNT_MALFORMED (R205) -/

theorem exec_countMalformed (s : State) : exec .countMalformed s = if 14 > remaining s.du then
    .next { s with du := s.du.raise .underflow } else .next { s with du := s.du.raise .malformed } := rfl

/-- Settles O23: the fourteen bits of the code word are there, or the stream ends before the eleventh zero. -/
theorem malformedCountRaises : Obligations.MalformedCountRaises := by
  intro s
  rw [exec_countMalformed, remaining]
  by_cases h : s.du.numBits.toNat - s.du.bitPos.toNat < 14
  · rw [if_pos h, if_pos h]
    rfl
  · rw [if_neg h, if_neg h]
    rfl

end Sys2Proof.Machine
end

