-- ==== Sys2Proof/Proofs/RunLengthLists.lean ====
section
/-! PROOFS. O24 to O26: the run-length lists written by RLE.ENC and read by RLE.DEC (R210, R212, R213). -/

namespace Sys2Proof.Machine

/-! ## RLE.ENC (R210) -/

theorem exec_rleEnc {s : State} (h : s.dp.opA.length = s.cu.fs.toNat) :
    exec .rleEnc s = .next (s.runCu (put (rleBits s.dp.opA) s.cu)) :=
  whenLengths_eq_next.mpr ⟨(haveLength_cons _ _ _).mpr ⟨h, haveLength_nil _⟩, rfl⟩

/-- The code words of the distances from index `last` down through these positions. -/
def distanceBits (last : Nat) (desc : List Nat) : BitSeq :=
  (List.zipWith (fun last i => cntBits (last - i)) (last :: desc) desc).flatten

theorem distanceBits_nil (last : Nat) : distanceBits last [] = [] := rfl

theorem distanceBits_cons (last i : Nat) (desc : List Nat) :
    distanceBits last (i :: desc) = cntBits (last - i) ++ distanceBits i desc := rfl

/-- A bit behind a vector's last one adds its own index, or none. -/
theorem setPositions_concat (m : BitSeq) (b : Bool) :
    setPositions (m ++ [b]) = setPositions m ++ if b = true then [m.length] else [] := by
  have hkept : (List.range m.length).filter (fun i => (m ++ [b]).getD i false) = setPositions m :=
    filter_range_eq_setPositions rfl fun i hi => List.getD_append _ _ _ _ hi
  rw [setPositions, List.length_append, List.length_singleton, List.range_succ, List.filter_append, hkept]
  cases b <;> simp

/-- The scan of R210 over the bits `w` from the highest index down, `gap` behind the last one bit, writes the distances
between the set positions. -/
theorem rleFrom_eq_distanceBits {gap : Nat} (hgap : 1 ≤ gap) (w : BitSeq) :
    rleFrom gap w = distanceBits (w.length + gap - 1) (setPositions w.reverse).reverse ++ [true, false] := by
  induction w generalizing gap with
  | nil => rfl
  | cons b w ih =>
    rw [List.reverse_cons, setPositions_concat, List.length_reverse, List.length_cons]
    cases b with
    | true =>
      have hdist : w.length + 1 + gap - 1 - w.length = gap := by omega
      rw [rleFrom, ih (Nat.le_refl 1), Nat.add_sub_cancel, if_pos rfl, List.reverse_append, List.reverse_singleton,
        List.singleton_append, distanceBits_cons, hdist, List.append_assoc]
    | false =>
      have hlast : w.length + (gap + 1) - 1 = w.length + 1 + gap - 1 := by omega
      rw [rleFrom, ih (Nat.le_add_left 1 gap), if_neg Bool.false_ne_true, List.append_nil, hlast]

/-- The run-length list of a vector, from index F down. -/
theorem rleBits_eq_distanceBits (v : BitSeq) :
    rleBits v = distanceBits v.length (setPositions v).reverse ++ [true, false] := by
  rw [rleBits, rleFrom_eq_distanceBits (Nat.le_refl 1), List.reverse_reverse, List.length_reverse, Nat.add_sub_cancel]

/-- Settles O24: the scan of the vector writes the distances of its set positions. -/
theorem runLengthEncoderAppends : Obligations.RunLengthEncoderAppends := by
  refine ⟨rfl, fun s desc ha hdesc => ⟨rleBits s.dp.opA, ?_, ?_, ?_⟩⟩
  · rw [hdesc, filter_range_eq_setPositions ha fun _ _ => rfl, rleBits_eq_distanceBits, ha]
    rfl
  · rw [← ha]
    exact length_rleBits_le s.dp.opA
  · rw [exec_rleEnc ha, runCu_put]
    rfl

/-- Settles O25: RLE.DEC reads exactly the list, for every vector within the range of the count values. -/
theorem runLengthRoundTrip : Obligations.RunLengthRoundTrip :=
  fun _ rest _ hlen => Reads.rleDec rfl hlen rest

/-! ## RLE.DEC (R212) -/

theorem exec_rleDec (s : State) : exec .rleDec s =
    .next (s.runReader (rleDec s.du.fs.toNat (unreadBits s.du)) fun x d => { d with resVec := x }) := rfl

/-- Index `i` is `n` minus one of the partial sums of the distances. -/
def AtDistance (ds : List Nat) (n i : Nat) : Prop := ∃ k, 1 ≤ k ∧ k ≤ ds.length ∧ i + (ds.take k).sum = n

theorem not_atDistance_nil (n i : Nat) : ¬AtDistance [] n i := by
  rintro ⟨k, h1, hk, -⟩
  exact absurd (Nat.le_trans h1 hk) (by decide)

/-- The first distance alone, or a partial sum of the others past it. -/
theorem atDistance_cons {d : Nat} {ds : List Nat} {n i : Nat} :
    AtDistance (d :: ds) n i ↔ i + d = n ∨ AtDistance ds n (i + d) := by
  constructor
  · rintro ⟨k, h1, hk, hsum⟩
    obtain ⟨k, rfl⟩ := Nat.exists_eq_add_of_le' h1
    rw [List.take_succ_cons, List.sum_cons, ← Nat.add_assoc] at hsum
    obtain rfl | hpos := Nat.eq_zero_or_pos k
    · exact .inl hsum
    · exact .inr ⟨k, hpos, Nat.le_of_succ_le_succ hk, hsum⟩
  · rintro (hd | ⟨k, -, hk, hsum⟩)
    · exact ⟨1, Nat.le_refl 1, by simp, by simpa using hd⟩
    · exact ⟨k + 1, Nat.le_add_left 1 k, Nat.succ_le_succ hk, by simpa [Nat.add_assoc] using hsum⟩

theorem AtDistance.le {ds : List Nat} {n i : Nat} (h : AtDistance ds n i) : i ≤ n := by
  obtain ⟨k, -, -, hsum⟩ := h
  omega

/-- Past the first distance the positions count from there. -/
theorem atDistance_add_iff {ds : List Nat} {n d : Nat} (hd : d ≤ n) (i : Nat) :
    AtDistance ds n (i + d) ↔ AtDistance ds (n - d) i :=
  exists_congr fun k => and_congr_right fun _ => and_congr_right fun _ => by omega

/-- One step of the loop of R212 in its result: below the position it sets stand the positions of the other distances. -/
theorem getD_append_true_zeros {d pos : Nat} {ds : List Nat} {x : BitSeq} (hpos : d ≤ pos)
    (hlen : x.length = pos - d) (hx : ∀ i < pos - d, x.getD i false = true ↔ AtDistance ds (pos - d) i) {i : Nat} :
    (x ++ true :: zeros (d - 1)).getD i false = true ↔ AtDistance (d :: ds) pos i := by
  rw [atDistance_cons]
  obtain hlt | rfl | hgt := Nat.lt_trichotomy i (pos - d)
  · rw [List.getD_append _ _ _ _ (hlen ▸ hlt), hx i hlt, atDistance_add_iff hpos]
    exact (or_iff_right (by omega)).symm
  · rw [List.getD_append_right _ _ _ _ (Nat.le_of_eq hlen), hlen, Nat.sub_self]
    simp [Nat.sub_add_cancel hpos]
  · obtain ⟨j, hj⟩ := Nat.exists_eq_add_of_le' (show 1 ≤ i - x.length by omega)
    have hpast : ¬AtDistance ds pos (i + d) := fun h => absurd h.le (by omega)
    rw [List.getD_append_right _ _ _ _ (by omega), hj, List.getD_cons_succ, getD_zeros]
    exact iff_of_false Bool.false_ne_true (by rintro (h | h) <;> [omega; exact hpast h])

section Distances

variable {ds : List Nat} (hds : ∀ d ∈ ds, 1 ≤ d ∧ d ≤ 65537) {fuel pos : Nat} (hfuel : pos < fuel) (hsum : ds.sum ≤ pos)
  (acc : BitSeq)

include hds hfuel hsum

/-- The loop of R212 on distances that stay within the vector: it sets their positions, before what was decoded
already. -/
theorem Reads.rleDecFrom_distances : ∃ x : BitSeq, x.length = pos
    ∧ (∀ i < pos, x.getD i false = true ↔ AtDistance ds pos i)
    ∧ Reads (Machine.rleDecFrom fuel pos acc) ((ds.map cntBits).flatten ++ [true, false]) (x ++ acc) := by
  induction ds generalizing fuel pos acc with
  | nil =>
    obtain ⟨fuel, rfl⟩ := Nat.exists_eq_add_of_le' (Nat.one_le_of_lt hfuel)
    refine ⟨zeros pos, length_zeros pos, fun i _ => ?_, fun _ => rfl⟩
    rw [getD_zeros]
    exact iff_of_false Bool.false_ne_true (not_atDistance_nil pos i)
  | cons d ds ih =>
    obtain ⟨fuel, rfl⟩ := Nat.exists_eq_add_of_le' (Nat.one_le_of_lt hfuel)
    obtain ⟨hd, hds⟩ := List.forall_mem_cons.mp hds
    rw [List.sum_cons] at hsum
    obtain ⟨x, hlen, hx, hread⟩ := ih hds (fuel := fuel) (pos := pos - d) (by omega) (by omega) (true :: zeros (d - 1) ++ acc)
    refine ⟨x ++ true :: zeros (d - 1), by simp [hlen]; omega,
      fun i _ => getD_append_true_zeros (by omega) hlen hx, fun rest => ?_⟩
    rw [List.map_cons, List.flatten_cons, List.append_assoc, List.append_assoc, rleDecFrom_cntBits hd, if_neg (by omega),
      ← List.append_assoc (List.flatten _), hread rest, List.append_assoc]

/-- The error of the code word behind distances that stay within the vector is the list's. -/
theorem rleDecFrom_of_cntDec_error {w : BitSeq} {e : ErrCode} (hw : cntDec w = .error e) :
    rleDecFrom fuel pos acc ((ds.map cntBits).flatten ++ w) = .error e := by
  induction ds generalizing fuel pos acc with
  | nil =>
    obtain ⟨fuel, rfl⟩ := Nat.exists_eq_add_of_le' (Nat.one_le_of_lt hfuel)
    show rleDecFrom (fuel + 1) pos acc w = _
    rw [rleDecFrom, hw]
    rfl
  | cons d ds ih =>
    obtain ⟨fuel, rfl⟩ := Nat.exists_eq_add_of_le' (Nat.one_le_of_lt hfuel)
    obtain ⟨hd, hds⟩ := List.forall_mem_cons.mp hds
    rw [List.sum_cons] at hsum
    rw [List.map_cons, List.flatten_cons, List.append_assoc, rleDecFrom_cntBits hd, if_neg (by omega)]
    exact ih hds (by omega) (by omega) _

end Distances

/-- Settles O26: the loop of R212 follows the distances, and its error is that of the list or of the code word behind
them. -/
theorem runLengthDecoderPositions : Obligations.RunLengthDecoderPositions := by
  refine ⟨rfl, fun s ds rest hds => ⟨fun hsum hbits => ?_, fun hsum hbits => ?_, fun hsum hbits => ?_,
    fun hsum i cut hw hne hword hbits => ?_⟩⟩
  · obtain ⟨x, hlen, hx, hread⟩ := Reads.rleDecFrom_distances hds (Nat.lt_succ_self _) hsum []
    rw [List.append_nil] at hread
    exact ⟨x, hlen, hx, by rw [exec_rleDec, runReader_of_append (r := rleDec _) hread hbits]⟩
  · have herr : rleDec s.du.fs.toNat (unreadBits s.du) = .error .malformed :=
      rleDec_malformed ⟨ds, rest, hds, .inl ⟨hsum, hbits⟩⟩
    rw [exec_rleDec, runReader_of_error s herr]
    rfl
  · have herr : rleDec s.du.fs.toNat (unreadBits s.du) = .error .malformed :=
      hbits ▸ rleDecFrom_of_cntDec_error hds (Nat.lt_succ_self _) hsum [] (cntDec_malformed rest)
    rw [exec_rleDec, runReader_of_error s herr]
    rfl
  · have herr : rleDec s.du.fs.toNat (unreadBits s.du) = .error .underflow :=
      hbits ▸ rleDecFrom_of_cntDec_error hds (Nat.lt_succ_self _) hsum [] (cntDec_cut hw hne hword)
    rw [exec_rleDec, runReader_of_error s herr]
    rfl

end Sys2Proof.Machine
end

