-- ==== Sys2Proof/Proofs/ExtractionAndInsertion.lean ====
section
/-! PROOFS. O27, O28: bit extraction into the output buffer and bit insertion from the stream (R220 to R223). -/

namespace Sys2Proof.Machine

/-- The check on the vector operands a and b, passed (R153). -/
theorem haveLength_pair {n : Nat} {a b : BitSeq} (ha : a.length = n) (hb : b.length = n) : haveLength n [a, b] = true :=
  (haveLength_cons _ _ _).mpr ⟨ha, (haveLength_cons _ _ _).mpr ⟨hb, haveLength_nil _⟩⟩

/-! ## BE.FWD and BE.REV (R220, R221) -/

section Extraction

variable {s : State} (ha : s.dp.opA.length = s.cu.fs.toNat) (hb : s.dp.opB.length = s.cu.fs.toNat)

include ha hb

theorem exec_beFwd : exec .beFwd s = .next (s.runCu (put (beFwd s.dp.opA s.dp.opB) s.cu)) :=
  whenLengths_eq_next.mpr ⟨haveLength_pair ha hb, rfl⟩

theorem exec_beRev : exec .beRev s = .next (s.runCu (put (beRev s.dp.opA s.dp.opB) s.cu)) :=
  whenLengths_eq_next.mpr ⟨haveLength_pair ha hb, rfl⟩

end Extraction

/-- Settles O27: the bits at the set positions are put through the one capacity check of R172. -/
theorem extractionAppendsMaskedBits : Obligations.ExtractionAppendsMaskedBits := by
  refine ⟨rfl, rfl, fun s asc ha hb hasc => ?_⟩
  rw [filter_range_eq_setPositions hb fun _ _ => rfl] at hasc
  have hab : s.dp.opA.length = s.dp.opB.length := ha.trans hb.symm
  constructor
  · rw [exec_beFwd ha hb, runCu_put, beFwd_eq_map hab, ← hasc, List.length_map]
    rfl
  · rw [exec_beRev ha hb, runCu_put, beRev_eq_map hab, ← hasc, List.length_map, List.length_reverse]
    rfl

/-! ## BI.FWD and BI.REV (R222, R223) -/

section Insertion

variable {s : State} (ha : s.dp.opA.length = s.du.fs.toNat) (hb : s.dp.opB.length = s.du.fs.toNat)

include ha hb

theorem exec_biFwd : exec .biFwd s =
    .next (s.runReader (biFwd s.dp.opA s.dp.opB (unreadBits s.du)) fun v d => { d with opA := v }) :=
  whenLengths_eq_next.mpr ⟨haveLength_pair ha hb, rfl⟩

theorem exec_biRev : exec .biRev s =
    .next (s.runReader (biRev s.dp.opA s.dp.opB (unreadBits s.du)) fun v d => { d with opA := v }) :=
  whenLengths_eq_next.mpr ⟨haveLength_pair ha hb, rfl⟩

end Insertion

/-- A reader of any `n` bits underflows on fewer: they are the first of `n` bits (R181, R392). -/
theorem IsReader.underflow_of_length_lt {α : Type} {r : BitSeq → Except ErrCode (α × BitSeq)} {bits : BitSeq} {n : Nat}
    (hr : IsReader r) (hreads : ∀ ins : BitSeq, ins.length = n → ∃ v, Reads r ins v) (h : bits.length < n) :
    r bits = .error .underflow := by
  obtain ⟨v, hread⟩ := hreads (bits ++ zeros (n - bits.length)) (by rw [List.length_append, length_zeros]; omega)
  exact hr.underflow_of_reads hread (List.ne_nil_of_length_pos (by rw [length_zeros]; omega))

/-- Settles O28: the next bits of the stream, as many as the mask has set positions, go to these positions. -/
theorem insertionReadsMaskedBits : Obligations.InsertionReadsMaskedBits := by
  refine ⟨rfl, rfl, fun s asc ha hb hasc => ?_⟩
  rw [filter_range_eq_setPositions hb fun _ _ => rfl] at hasc
  have hab : s.dp.opA.length = s.dp.opB.length := ha.trans hb.symm
  subst hasc
  refine ⟨fun henough => ?_, fun hshort => ⟨?_, ?_⟩⟩
  · obtain ⟨ins, hins⟩ : ∃ ins, ins = (unreadBits s.du).take (setPositions s.dp.opB).length := ⟨_, rfl⟩
    have hlen : ins.length = (setPositions s.dp.opB).length := by rw [hins, List.length_take_of_le henough]
    have hbits : unreadBits s.du = ins ++ (unreadBits s.du).drop (setPositions s.dp.opB).length := by
      rw [hins, List.take_append_drop]
    obtain ⟨x, hfwd, hx, hxbits, hxkept⟩ := Reads.biFwd hab hlen
    obtain ⟨y, hrev, hy, hybits, hykept⟩ := Reads.biRev hab hlen
    refine ⟨x, y, hx.trans ha, hy.trans ha, fun i hi hmi => ⟨hxkept i hmi, hykept i (ha ▸ hi) hmi⟩, ?_, ?_, ?_, ?_⟩
    · rw [← hins, ← beFwd_eq_map (hx.trans hab), hxbits]
    · rw [← hins, hybits]
    · rw [exec_biFwd ha hb, runReader_of_append hfwd hbits, hlen]
    · rw [exec_biRev ha hb, runReader_of_append hrev hbits, hlen]
  · have herr := (isReader_biFwd s.dp.opA s.dp.opB).underflow_of_length_lt
      (fun _ hlen => (Reads.biFwd hab hlen).imp fun _ h => h.1) hshort
    rw [exec_biFwd ha hb, runReader_of_error s herr]
    rfl
  · have herr := (isReader_biRev s.dp.opA s.dp.opB).underflow_of_length_lt
      (fun _ hlen => (Reads.biRev hab hlen).imp fun _ h => h.1) hshort
    rw [exec_biRev ha hb, runReader_of_error s herr]
    rfl

end Sys2Proof.Machine
end

