-- ==== Sys2Proof/Proofs/MaskUpdate.lean ====
section
/-! PROOFS. O29: the mask update's operations bit by bit (R241 to R243). -/

namespace Sys2Proof.Machine

/-- The check on any number of vector operands, passed (R153). -/
theorem haveLength_of_forall {n : Nat} {vs : List BitSeq} (h : ∀ v ∈ vs, v.length = n) : haveLength n vs = true :=
  List.all_eq_true.mpr fun v hv => beq_iff_eq.mpr (h v hv)

section Update

variable {u : Cu} {n i : Nat}

/-- MU.BUILD starts the build vector again, or ors the input's differences into it (R241). -/
theorem muBuild_build (u : Cu) : (muBuild u).build =
    if u.t = 0 ∨ u.tmp.p = true then zeros u.fs.toNat else vOr u.build (vXor u.tmp.inp u.prevInput) := rfl

@[simp] theorem muBuild_tmp (u : Cu) : (muBuild u).tmp = { u.tmp with buildPrev := u.build } := rfl

/-- MU.MASK takes the differences with the build vector's copy, or ors them into the mask (R242). -/
theorem muMask_mask (u : Cu) : (muMask u).mask =
    if u.tmp.p = true then vOr (vXor u.tmp.inp u.prevInput) u.tmp.buildPrev
    else vOr u.mask (vXor u.tmp.inp u.prevInput) := rfl

/-- MU.CHANGE is the mask, or what changed in it (R243). -/
theorem muChange_change (u : Cu) :
    (muChange u).tmp.change = if u.t = 0 then u.mask else vXor u.mask u.prevMask := rfl

theorem length_muBuild_build (hb : u.build.length = u.fs.toNat) (hp : u.prevInput.length = u.fs.toNat)
    (hinp : u.tmp.inp.length = u.fs.toNat) : (muBuild u).build.length = u.fs.toNat := by
  rw [muBuild_build]
  split <;> simp [hb, hp, hinp]

theorem getD_muBuild_build (hb : u.build.length = n) (hp : u.prevInput.length = n) (hinp : u.tmp.inp.length = n)
    (hi : i < n) : (muBuild u).build.getD i false = if u.t = 0 ∨ u.tmp.p = true then false
      else u.build.getD i false || (u.tmp.inp.getD i false ^^ u.prevInput.getD i false) := by
  rw [muBuild_build]
  split
  · exact getD_zeros _ _
  · rw [getD_vOr (by omega) (by simp; omega), getD_vXor (by omega) (by omega)]

theorem length_muMask_mask (hm : u.mask.length = n) (hp : u.prevInput.length = n) (hinp : u.tmp.inp.length = n)
    (hb : u.tmp.buildPrev.length = n) : (muMask u).mask.length = n := by
  rw [muMask_mask]
  split <;> simp [hm, hp, hinp, hb]

theorem getD_muMask_mask (hm : u.mask.length = n) (hp : u.prevInput.length = n) (hinp : u.tmp.inp.length = n)
    (hb : u.tmp.buildPrev.length = n) (hi : i < n) : (muMask u).mask.getD i false = if u.tmp.p = true then
        (u.tmp.inp.getD i false ^^ u.prevInput.getD i false) || u.tmp.buildPrev.getD i false
      else u.mask.getD i false || (u.tmp.inp.getD i false ^^ u.prevInput.getD i false) := by
  rw [muMask_mask]
  split
  · rw [getD_vOr (by simp; omega) (by omega), getD_vXor (by omega) (by omega)]
  · rw [getD_vOr (by omega) (by simp; omega), getD_vXor (by omega) (by omega)]

theorem length_muChange_change (hm : u.mask.length = n) (hp : u.prevMask.length = n) :
    (muChange u).tmp.change.length = n := by
  rw [muChange_change]
  split <;> simp [hm, hp]

theorem getD_muChange_change (hm : u.mask.length = n) (hp : u.prevMask.length = n) (hi : i < n) :
    (muChange u).tmp.change.getD i false = if u.t = 0 then u.mask.getD i false
      else u.mask.getD i false ^^ u.prevMask.getD i false := by
  rw [muChange_change]
  split
  · rfl
  · exact getD_vXor (by omega) (by omega)

end Update

theorem exec_muBuild {s : State} (hb : s.cu.build.length = s.cu.fs.toNat) (hinp : s.cu.tmp.inp.length = s.cu.fs.toNat)
    (hp : s.cu.prevInput.length = s.cu.fs.toNat) : exec .muBuild s = .next { s with cu := muBuild s.cu } :=
  whenLengths_eq_next.mpr ⟨haveLength_of_forall (by simp [hb, hinp, hp]), rfl⟩

theorem exec_muMask {s : State} (hm : s.cu.mask.length = s.cu.fs.toNat) (hinp : s.cu.tmp.inp.length = s.cu.fs.toNat)
    (hp : s.cu.prevInput.length = s.cu.fs.toNat) (hb : s.cu.tmp.buildPrev.length = s.cu.fs.toNat) :
    exec .muMask s = .next { s with cu := muMask s.cu } :=
  whenLengths_eq_next.mpr ⟨haveLength_of_forall (by simp [hm, hinp, hp, hb]), rfl⟩

theorem exec_muChange {s : State} (hm : s.cu.mask.length = s.cu.fs.toNat) (hpm : s.cu.prevMask.length = s.cu.fs.toNat) :
    exec .muChange s = .next { s with cu := muChange s.cu } :=
  whenLengths_eq_next.mpr ⟨haveLength_of_forall (by simp [hm, hpm]), rfl⟩

/-- Settles O29: the operations run on operands of the session's length, and each bit of a result is its rule's. -/
theorem maskTransformsPointwise : Obligations.MaskTransformsPointwise := by
  refine ⟨rfl, rfl, rfl, fun s hm hpm hb hp hinp hbp => ?_⟩
  exact ⟨(muBuild s.cu).build, (muMask s.cu).mask, (muChange s.cu).tmp.change, length_muBuild_build hb hp hinp,
    length_muMask_mask hm hp hinp hbp, length_muChange_change hm hpm, exec_muBuild hb hinp hp,
    exec_muMask hm hinp hp hbp, exec_muChange hm hpm, fun i hi => ⟨getD_muBuild_build hb hp hinp hi,
      getD_muMask_mask hm hp hinp hbp hi, getD_muChange_change hm hpm hi⟩⟩

end Sys2Proof.Machine
end

