-- ==== Sys2Proof/Proofs/SessionUpdate.lean ====
section
/-! PROOFS. O44: the session after a C_PKT (R240 to R243, R261, R267, R268, R308). -/

namespace Sys2Proof.Machine

/-! ## The mask update of a packet (R240) -/

/-- At t = 0 only the old mask is saved. -/
theorem updateMask_of_zero {u : Cu} (h : u.t = 0) : updateMask u = { u with prevMask := u.mask } := if_neg (not_not.mpr h)

/-- Later the build vector and then the mask are updated, MU.MASK having the build vector before the update. -/
theorem updateMask_of_ne_zero {u : Cu} (h : u.t ≠ 0) : updateMask u = muMask (muBuild { u with prevMask := u.mask }) :=
  if_pos h

@[simp] theorem updateMask_fs (u : Cu) : (updateMask u).fs = u.fs := by
  obtain ⟨_, _, _, h⟩ := updateMask_frame u; rw [h]
@[simp] theorem updateMask_t (u : Cu) : (updateMask u).t = u.t := by
  obtain ⟨_, _, _, h⟩ := updateMask_frame u; rw [h]
@[simp] theorem updateMask_hist (u : Cu) : (updateMask u).hist = u.hist := by
  obtain ⟨_, _, _, h⟩ := updateMask_frame u; rw [h]
@[simp] theorem updateMask_hidx (u : Cu) : (updateMask u).hidx = u.hidx := by
  obtain ⟨_, _, _, h⟩ := updateMask_frame u; rw [h]
@[simp] theorem updateMask_prevMask (u : Cu) : (updateMask u).prevMask = u.mask := by
  obtain ⟨_, _, _, h⟩ := updateMask_frame u; rw [h]

section Update

variable {u : Cu} {i : Nat} (h : u.Inv) (hinp : u.tmp.inp.length = u.fs.toNat) (hi : i < u.fs.toNat)

include h hinp hi

theorem getD_updateMask_mask : (updateMask u).mask.getD i false =
    if u.t = 0 then u.mask.getD i false
    else if u.tmp.p = true then (u.tmp.inp.getD i false ^^ u.prevInput.getD i false) || u.build.getD i false
    else u.mask.getD i false || (u.tmp.inp.getD i false ^^ u.prevInput.getD i false) := by
  split
  · rename_i ht; rw [updateMask_of_zero ht]
  · rename_i ht
    rw [updateMask_of_ne_zero ht]
    exact getD_muMask_mask h.mask_length h.prevInput_length hinp h.build_length hi

theorem getD_updateMask_build : (updateMask u).build.getD i false =
    if u.t = 0 then u.build.getD i false
    else if u.tmp.p = true then false
    else u.build.getD i false || (u.tmp.inp.getD i false ^^ u.prevInput.getD i false) := by
  split
  · rename_i ht; rw [updateMask_of_zero ht]
  · rename_i ht
    rw [updateMask_of_ne_zero ht, muMask_build,
      getD_muBuild_build (u := { u with prevMask := u.mask }) h.build_length h.prevInput_length hinp hi]
    simp only [ht, false_or]

/-- The change vector of a packet is its mask at t = 0, and else what changed in the mask. -/
theorem getD_change_updateMask : (muChange (updateMask u)).tmp.change.getD i false =
    if u.t = 0 then (updateMask u).mask.getD i false
    else (updateMask u).mask.getD i false ^^ u.mask.getD i false := by
  have hm : (updateMask u).mask.length = u.fs.toNat := (h.updateMask hinp).mask_length.trans (by rw [updateMask_fs])
  rw [getD_muChange_change hm (by rw [updateMask_prevMask, h.mask_length]) hi, updateMask_t, updateMask_prevMask]

end Update

/-! ## The prepared unit's vectors and its slot of the ring -/

section Prepare

variable (z nm sm uc : Bool) (u : Cu)

theorem cPktPrepare_mask : (cPktPrepare z nm sm uc u).mask = (updateMask (cPktInput nm sm uc u)).mask := by
  simp [cPktPrepare_eq]

theorem cPktPrepare_build : (cPktPrepare z nm sm uc u).build = (updateMask (cPktInput nm sm uc u)).build := by
  simp [cPktPrepare_eq]

theorem cPktPrepare_prevMask : (cPktPrepare z nm sm uc u).prevMask = u.mask := by
  obtain ⟨_, _, _, _, _, _, _, h⟩ := cPktPrepare_frame z nm sm uc u; rw [h]

@[simp] theorem cPktInput_t : (cPktInput nm sm uc u).t = u.t := by
  obtain ⟨_, _, _, _, _, _, h⟩ := cPktInput_frame nm sm uc u; rw [h]
@[simp] theorem cPktInput_mask : (cPktInput nm sm uc u).mask = u.mask := by
  obtain ⟨_, _, _, _, _, _, h⟩ := cPktInput_frame nm sm uc u; rw [h]
@[simp] theorem cPktInput_build : (cPktInput nm sm uc u).build = u.build := by
  obtain ⟨_, _, _, _, _, _, h⟩ := cPktInput_frame nm sm uc u; rw [h]
@[simp] theorem cPktInput_prevInput : (cPktInput nm sm uc u).prevInput = u.prevInput := by
  obtain ⟨_, _, _, _, _, _, h⟩ := cPktInput_frame nm sm uc u; rw [h]
@[simp] theorem cPktInput_hist : (cPktInput nm sm uc u).hist = u.hist := by
  obtain ⟨_, _, _, _, _, _, h⟩ := cPktInput_frame nm sm uc u; rw [h]
@[simp] theorem cPktInput_hidx : (cPktInput nm sm uc u).hidx = u.hidx := by
  obtain ⟨_, _, _, _, _, _, h⟩ := cPktInput_frame nm sm uc u; rw [h]

theorem Cu.Inv.cPktInput {u : Cu} (h : u.Inv) (nm sm uc : Bool) : (cPktInput nm sm uc u).Inv := by
  obtain ⟨p, f, r, pt, ft, rt, hframe⟩ := cPktInput_frame nm sm uc u
  rw [hframe]
  exact (h.values _ u.fhist pt ft rt).withObuf (Nat.zero_le _)

end Prepare

/-- A slot of a ring after a push: the pushed element in the slot pushed to, every other slot as it was (R261, R267). -/
theorem get_set_ring {α : Type} (v : Vector α 16) (i : BitVec 4) (x : α) (k : Fin 16) :
    (v.set i.toNat x i.isLt).get k = if k.val = i.toNat then x else v.get k := by
  show (v.set i.toNat x i.isLt)[k.val] = _
  rw [Vector.getElem_set]
  simp only [eq_comm]
  rfl

theorem val_ofNat_ringIndex (i : BitVec 4) : (Fin.ofNat 16 i.toNat).val = i.toNat := Nat.mod_eq_of_lt i.isLt

/-- The prepared ring: the change vector in slot hidx (R261). -/
theorem get_hist_cPktPrepare (z nm sm uc : Bool) (u : Cu) (k : Fin 16) : (cPktPrepare z nm sm uc u).hist.get k =
    if k.val = u.hidx.toNat then (muChange (updateMask (cPktInput nm sm uc u))).tmp.change else u.hist.get k := by
  rw [show (cPktPrepare z nm sm uc u).hist = (hwPush (muChange (updateMask (cPktInput nm sm uc u)))).hist by
    simp [cPktPrepare_eq], hwPush, get_set_ring]
  simp

/-- The committed flag ring: the new-mask flag in slot fidx (R267). -/
theorem get_fhist_cPktCommit (u : Cu) (k : Fin 16) :
    (cPktCommit u).fhist.get k = if k.val = u.fidx.toNat then u.tmp.p else u.fhist.get k :=
  get_set_ring u.fhist u.fidx u.tmp.p k

/-! ## The session after a packet -/

@[simp] theorem Cu.withPacket_mask (u : Cu) : u.withPacket.mask = u.mask := rfl
@[simp] theorem Cu.withPacket_prevMask (u : Cu) : u.withPacket.prevMask = u.prevMask := rfl
@[simp] theorem Cu.withPacket_build (u : Cu) : u.withPacket.build = u.build := rfl
@[simp] theorem Cu.withPacket_hist (u : Cu) : u.withPacket.hist = u.hist := rfl
@[simp] theorem Cu.withPacket_hidx (u : Cu) : u.withPacket.hidx = u.hidx := rfl
@[simp] theorem Cu.withPacket_fhist (u : Cu) : u.withPacket.fhist = u.fhist := rfl
@[simp] theorem Cu.withPacket_fidx (u : Cu) : u.withPacket.fidx = u.fidx := rfl

/-- Settles O44: what is committed is the prepared unit, whose mask vectors are those of the mask update. -/
theorem compressionUpdatesSession : Obligations.CompressionUpdatesSession := by
  intro s t nm sm uc diff old hinv hr hlen hexec hok hdiff hold
  have ht := cPkt_of_ok hr hlen hexec hok
  obtain ⟨hp, -⟩ := pktInfo_flags_of_ok hr hlen hexec hok rfl
  have hinput := hinv.cPktInput nm sm uc
  have hinp : t.cu.prevInput = windowVector s.cu.win cuIn s.cu.fs.toNat := by
    rw [ht, cPktCommit_prevInput, Cu.withPacket_tmp, cPktPrepare_inp]
  have hslot : ∀ k, t.cu.hist.get k = if k.val = s.cu.hidx.toNat then
      (muChange (updateMask (cPktInput nm sm uc s.cu))).tmp.change else s.cu.hist.get k := fun k => by
    rw [ht, cPktCommit_hist, Cu.withPacket_hist, get_hist_cPktPrepare]
  have hflag : ∀ k, t.cu.fhist.get k = if k.val = s.cu.fidx.toNat then t.cu.pktInfo.getLsbD 8
      else s.cu.fhist.get k := fun k => by
    rw [hp, ht, get_fhist_cPktCommit, Cu.withPacket_tmp, Cu.withPacket_fidx, Cu.withPacket_fhist, cPktPrepare_fidx,
      cPktPrepare_fhist, cPktPrepare_p]
  have hmask : t.cu.mask = (updateMask (cPktInput nm sm uc s.cu)).mask := by
    rw [ht, cPktCommit_mask, Cu.withPacket_mask, cPktPrepare_mask]
  have hbuild : t.cu.build = (updateMask (cPktInput nm sm uc s.cu)).build := by
    rw [ht, cPktCommit_build, Cu.withPacket_build, cPktPrepare_build]
  refine ⟨?_, ?_, ?_, ?_, fun k hk => ?_, fun k hk => ?_, fun i hi => ⟨?_, ?_, ?_, ?_⟩⟩
  · rw [ht, cPktCommit_prevMask, Cu.withPacket_prevMask, cPktPrepare_prevMask]
  · rw [ht, cPktCommit_hidx, Cu.withPacket_hidx, cPktPrepare_hidx]
  · rw [ht, cPktCommit_fidx, Cu.withPacket_fidx, cPktPrepare_fidx]
  · rw [hflag, if_pos (val_ofNat_ringIndex _)]
  · rw [hslot, if_neg hk]
  · rw [hflag, if_neg hk]
  · rw [hinp]
    exact getD_windowVector _ _ _ _ hi
  · rw [hmask, getD_updateMask_mask hinput (by simp) (by simpa using hi), hdiff, hold, hp, hinp]
    simp
  · rw [hbuild, getD_updateMask_build hinput (by simp) (by simpa using hi), hdiff, hp, hinp]
    simp
  · rw [hslot, if_pos (val_ofNat_ringIndex _), getD_change_updateMask hinput (by simp) (by simpa using hi), hold, hmask]
    simp

end Sys2Proof.Machine
end

