-- ==== Sys2Proof/Proofs/SessionTracking.lean ====
section
/-! PROOFS. O47: a D_PKT of the CU's next packet takes a DU that tracks the CU to one that tracks it again (R245, R310, R361).
The packet is that of O60, the session after it that of O44, and what a D_PKT makes of the packet's bits is O48. -/

namespace Sys2Proof.Machine

/-- The fields of a packet that a CU has sent (R110 to R113). -/
structure SentPacket where
  /-- the window X_t -/
  x : BitSeq
  /-- what the mask's run-length list spells -/
  delta : BitSeq
  /-- V_t -/
  v : Nat
  /-- e_t, 0 where it is not sent -/
  e : Bool
  /-- c_t, also where it is not sent -/
  c : Bool
  /-- d_t -/
  d : Bool
  /-- f_t -/
  f : Bool
  /-- r_t -/
  r : Bool

namespace SentPacket

/-- The positions that a compressed packet sends (R306). -/
def extracted (k : SentPacket) (mask : BitSeq) (i : Nat) : Bool :=
  mask.getD i false || (k.c && decide (0 < k.v) && k.x.getD i false)

/-- The bits `o` are the packet `k` of a CU with `n` bits, the mask `mask` and the packet `inp` (R302 to R307). -/
structure Sends (k : SentPacket) (n : Nat) (mask inp o : BitSeq) : Prop where
  x_length : k.x.length = n
  delta_length : k.delta.length = n
  mask_length : mask.length = n
  inp_length : inp.length = n
  v_le : k.v ≤ 15
  delta_bits : ∀ i < n, k.delta.getD i false = (mask.getD i false ^^ mask.getD (i + 1) false)
  e_eq : k.e = (decide (0 < k.v) && (setPositions k.x).any fun i => !mask.getD i false)
  d_eq : k.d = (!k.f && !k.r)
  bits : o = rleBits k.x ++ bitsMsb 4 k.v
    ++ (if 0 < k.v ∧ setPositions k.x ≠ [] then
      [k.e] ++ (if k.e = true then (setPositions k.x).map (fun i => !mask.getD i false) ++ [k.c] else []) else [])
    ++ [k.d] ++ (if k.d = true then [] else [k.f] ++ if k.f = true then rleBits k.delta else [])
    ++ (if k.r = true then [true] ++ cntBits n ++ inp
      else (if k.d = true then [] else [false])
        ++ ((List.range n).filter (k.extracted mask)).reverse.map fun i => inp.getD i false)

/-- The window holds every position at which the mask is not the DU's, and with V = 0 no other (R262, R353). -/
structure Covers (k : SentPacket) (n : Nat) (mask dmask : BitSeq) : Prop where
  changed : ∀ i < n, (mask.getD i false ^^ dmask.getD i false) = true → k.x.getD i false = true
  only_changed : k.v = 0 → ∀ i < n, k.x.getD i false = true → (mask.getD i false ^^ dmask.getD i false) = true

/-- The k_t bit of a position: the complement of the mask at the set positions of the window, where they are sent (R303). -/
def direction (k : SentPacket) (mask : BitSeq) (i : Nat) : Bool := k.e && k.x.getD i false && !mask.getD i false

variable {k : SentPacket} {n i : Nat} {mask dmask inp o : BitSeq}

theorem Sends.e_iff (h : k.Sends n mask inp o) :
    k.e = true ↔ 0 < k.v ∧ ∃ i, k.x.getD i false = true ∧ mask.getD i false = false := by
  simp [h.e_eq, mem_setPositions]

/-- e_t is 1 only where it is sent (R304). -/
theorem Sends.sent_of_e (h : k.Sends n mask inp o) (he : k.e = true) : 0 < k.v ∧ setPositions k.x ≠ [] := by
  obtain ⟨hv, i, hx, -⟩ := h.e_iff.mp he
  exact ⟨hv, List.ne_nil_of_mem (mem_setPositions.mpr hx)⟩

theorem Sends.flags_of_d (h : k.Sends n mask inp o) (hd : k.d = true) : k.f = false ∧ k.r = false := by
  simpa [h.d_eq] using hd

/-- The k_t bits in the order they are sent are read back at their positions. -/
theorem direction_eq (k : SentPacket) (mask : BitSeq) (i : Nat) : k.direction mask i = (k.e && k.x.getD i false
    && ((setPositions k.x).map fun j => !mask.getD j false).getD ((setPositions k.x).idxOf i) false) := by
  cases hx : k.x.getD i false with
  | false => simp only [direction, hx, Bool.and_false, Bool.false_and]
  | true =>
    rw [direction, hx, List.getD_eq_getElem?_getD (l := List.map _ _), List.getElem?_map,
      List.getElem?_idxOf (mem_setPositions.mpr hx)]
    rfl

/-- What the direction fields make of the DU's mask is the CU's mask: toggled where V = 0, directed where e = 1, set where
e = 0, since then no position of the window is 0 in it (R352, R353). -/
theorem Sends.mask_eq (h : k.Sends n mask inp o) (hw : k.Covers n mask dmask) (hi : i < n) : mask.getD i false =
    if k.x.getD i false = true then (if k.v = 0 then !dmask.getD i false else !k.direction mask i)
    else dmask.getD i false := by
  split
  · rename_i hx
    split
    · rename_i hv
      exact Bool.eq_not_iff.mpr (bne_iff_ne.mp (hw.only_changed hv i hi hx))
    · rename_i hv
      have hsent : mask.getD i false = false → k.e = true := fun hm => h.e_iff.mpr ⟨by omega, i, hx, hm⟩
      cases hm : mask.getD i false with
      | false => rw [direction, hx, hm, hsent hm]; rfl
      | true => rw [direction, hm, Bool.not_true, Bool.and_false]; rfl
  · rename_i hx
    exact not_not.mp fun hne => hx (hw.changed i hi (bne_iff_ne.mpr hne))

/-- With f = 1 the mask's own differences rebuild it (R305, R354). -/
theorem Sends.mask_eq_running (h : k.Sends n mask inp o) (hi : i < n) :
    mask.getD i false = (k.delta.getD i false ^^ (decide (i + 1 < n) && mask.getD (i + 1) false)) := by
  rw [h.delta_bits i hi]
  by_cases hlt : i + 1 < n
  · simp [hlt]
  · rw [List.getD_eq_default mask false (by rw [h.mask_length]; omega : mask.length ≤ i + 1)]
    simp

/-- The positions the DU inserts at are the ones the CU extracted: c_t is sent where e = 1, and where e = 0 the window adds no
position to the mask (R306, R357). -/
theorem Sends.extracted_eq (h : k.Sends n mask inp o) (i : Nat) :
    k.extracted mask i = (mask.getD i false || ((k.c && k.e) && k.direction mask i)) := by
  cases hm : mask.getD i false with
  | true => rw [extracted, hm, Bool.true_or, Bool.true_or]
  | false =>
    cases hx : k.x.getD i false with
    | false => simp only [extracted, direction, hm, hx, Bool.and_false, Bool.false_and]
    | true =>
      have he : k.e = decide (0 < k.v) := by
        rw [Bool.eq_iff_iff, h.e_iff, decide_eq_true_iff]
        exact and_iff_left ⟨i, hx, hm⟩
      rw [extracted, direction, hx, hm, he]
      cases k.c <;> cases decide (0 < k.v) <;> rfl

/-- The packet in the grammar that D_PKT reads, where c is 0 unless e is 1 and the flag r stands behind f (R110 to R113). -/
theorem Sends.bits_grammar (h : k.Sends n mask inp o) : o = rleBits k.x ++ bitsMsb 4 k.v
    ++ (if 0 < k.v ∧ setPositions k.x ≠ [] then
      [k.e] ++ (if k.e = true then (setPositions k.x).map (fun i => !mask.getD i false) ++ [k.c && k.e] else []) else [])
    ++ [k.d] ++ (if k.d = true then [] else (if k.f = true then [true] ++ rleBits k.delta else [false]) ++ [k.r])
    ++ (if k.r = true then cntBits n ++ inp
      else ((List.range n).filter (k.extracted mask)).reverse.map fun i => inp.getD i false) := by
  have hdir : ∀ ks : BitSeq,
      (if k.e = true then ks ++ [k.c] else []) = if k.e = true then ks ++ [k.c && k.e] else [] := fun ks => by
    split
    · rename_i he; rw [he, Bool.and_true]
    · rfl
  rw [h.bits, hdir, h.d_eq]
  -- the CU puts r before its data, and the grammar behind f
  cases k.f <;> cases k.r <;> simp

end SentPacket

/-! ## The DU -/

/-- The DU's mask and last output have the session's length after a D_PKT (R153). -/
theorem length_of_exec_dPkt {cap : Nat} {d d' : State} (h : d.du.Inv cap) (hexec : exec .dPkt d = .next d') :
    d'.du.dmask.length = d.du.fs.toNat ∧ d'.du.prevOutput.length = d.du.fs.toNat := by
  rw [exec_dPkt] at hexec
  cases hexec
  obtain ⟨-, -, -, -, -, hfs, -⟩ := dPkt_frame h
  exact ⟨hfs ▸ h.dPkt.dmask_length, hfs ▸ h.dPkt.prevOutput_length⟩

/-- A D_PKT of a packet whose window covers what the CU's mask changed, the DU's last output being the CU's packet outside the
mask unless the packet is sent as it is (R310, R361). -/
theorem exec_dPkt_of_sends {d : State} {k : SentPacket} {mask inp o rest : BitSeq}
    (hinv : d.du.Inv d.params.streamCap) (hready : d.du.st.ready = true) (h : k.Sends d.du.fs.toNat mask inp o)
    (hw : k.Covers d.du.fs.toNat mask d.du.dmask)
    (hkept : k.r = false → ∀ i < d.du.fs.toNat, mask.getD i false = false →
      d.du.prevOutput.getD i false = inp.getD i false)
    (hbits : unreadBits d.du = o ++ rest) :
    ∃ d' : State, exec .dPkt d = .next d' ∧ d'.du.st = { d.du.st with err := .ok } ∧ d'.du.dmask = mask
      ∧ d'.du.prevOutput = inp ∧ d'.du.bitPos.toNat = if d.du.autoAlign = true then
        8 * ((d.du.bitPos.toNat + o.length + 7) / 8) else d.du.bitPos.toNat + o.length := by
  have hlcf : d.du.fs.toNat ≤ 65537 := by have := d.du.fs.isLt; omega
  have hm : ∀ i < d.du.fs.toNat, mask.getD i false = if k.f = true then
      (k.delta.getD i false ^^ (decide (i + 1 < d.du.fs.toNat) && mask.getD (i + 1) false))
      else if k.x.getD i false = true then (if k.v = 0 then !d.du.dmask.getD i false else !k.direction mask i)
      else d.du.dmask.getD i false := fun i hi => by
    split
    · exact h.mask_eq_running hi
    · exact h.mask_eq hw hi
  obtain ⟨d', hexec, hst, hmask, hraw, hins, -, hcursor, -⟩ := decompressionFrame.2 d o rest k.x k.delta
    ((setPositions k.x).map fun i => !mask.getD i false) inp
    (((List.range d.du.fs.toNat).filter (k.extracted mask)).reverse.map fun i => inp.getD i false) k.v d.du.fs.toNat
    k.e (k.c && k.e) k.d k.f k.r (setPositions k.x) ((List.range d.du.fs.toNat).filter (k.extracted mask))
    (fun i => mask.getD i false) (k.direction mask) (k.extracted mask) hinv hready h.x_length h.delta_length h.inp_length
    (Nat.lt_succ_of_le h.v_le) hlcf (filter_range_eq_setPositions h.x_length fun _ _ => rfl).symm (by simp) rfl (by simp)
    h.sent_of_e (fun hc => (Bool.and_eq_true_iff.mp hc).2) h.flags_of_d (k.direction_eq mask) hm h.extracted_eq
    h.bits_grammar hbits
  obtain ⟨hdm, hpo⟩ := length_of_exec_dPkt hinv hexec
  refine ⟨d', hexec, hst, bitSeq_ext (hdm.trans h.mask_length.symm) fun i hi => (hmask i (hdm ▸ hi)).1, ?_, hcursor⟩
  cases hr : k.r with
  | true => exact (hraw hr).1
  | false =>
    obtain ⟨hsent, -, hother⟩ := hins hr
    refine bitSeq_ext (hpo.trans h.inp_length.symm) fun i hi => ?_
    rw [hpo] at hi
    cases hem : k.extracted mask i with
    | true => exact List.map_inj_left.mp hsent i (by simp [hi, hem])
    | false =>
      rw [hother i hi hem]
      exact hkept hr i hi (Bool.or_eq_false_iff.mp hem).1

/-! ## The CU -/

/-- The CU's mask and last packet have the session's length after a C_PKT (R153). -/
theorem length_of_exec_cPkt {s t : State} {nm sm uc : Bool} (h : s.cu.Inv) (hexec : exec (.cPkt nm sm uc) s = .next t) :
    t.cu.mask.length = s.cu.fs.toNat ∧ t.cu.prevInput.length = s.cu.fs.toNat := by
  obtain ⟨-, -, -, -, -, -, -, -, hfs, -⟩ := compressionFrame s t nm sm uc hexec
  rw [exec_cPkt] at hexec
  cases hexec
  have hinv := h.cPkt s.params.preHistoryZero nm sm uc
  exact ⟨hfs ▸ hinv.mask_length, hfs ▸ hinv.prevInput_length⟩

section Sent

variable {s t : State} {nm sm uc : Bool} (hinv : s.cu.Inv) (hr : s.cu.st.ready = true)
  (hlen : s.cu.inLen.toNat = (s.cu.fs.toNat + 7) / 8) (hexec : exec (.cPkt nm sm uc) s = .next t)
  (hok : t.cu.st.err = .ok)

include hinv hr hlen hexec hok

/-- The change vector of a packet is where the mask differs from that of a DU which tracks the CU (R243, R245). -/
theorem getD_changeVector {dmask : BitSeq} (hlater : s.cu.t ≠ 0 → dmask = s.cu.mask)
    (hfirst : s.cu.t = 0 → ∀ i, dmask.getD i false = false) {i : Nat} (hi : i < s.cu.fs.toNat) :
    (t.cu.hist.get (Fin.ofNat 16 s.cu.hidx.toNat)).getD i false = (t.cu.mask.getD i false ^^ dmask.getD i false) := by
  obtain ⟨-, -, -, -, -, -, hbits⟩ := compressionUpdatesSession s t nm sm uc _ _ hinv hr hlen hexec hok (fun _ => rfl)
    (fun _ => rfl)
  obtain ⟨-, -, -, hchange⟩ := hbits i hi
  rw [hchange]
  split
  · rename_i ht; rw [hfirst ht, Bool.xor_false]
  · rename_i ht; rw [hlater ht]

/-- After packet 0 the packet is the one before outside its mask (R242). -/
theorem getD_prevInput_of_mask (ht : s.cu.t ≠ 0) {i : Nat} (hi : i < s.cu.fs.toNat)
    (hm : t.cu.mask.getD i false = false) : s.cu.prevInput.getD i false = t.cu.prevInput.getD i false := by
  obtain ⟨-, -, -, -, -, -, hbits⟩ := compressionUpdatesSession s t nm sm uc _ _ hinv hr hlen hexec hok (fun _ => rfl)
    (fun _ => rfl)
  obtain ⟨-, hmask, -, -⟩ := hbits i hi
  rw [hm, if_neg ht] at hmask
  have hdiff : (t.cu.prevInput.getD i false ^^ s.cu.prevInput.getD i false) = false := by
    split at hmask
    · exact (Bool.or_eq_false_iff.mp hmask.symm).1
    · exact (Bool.or_eq_false_iff.mp hmask.symm).2
  exact (bne_eq_false_iff_eq.mp hdiff).symm

/-- A C_PKT sends a packet whose window covers what the mask changed. -/
theorem exists_sends {dmask : BitSeq} (hlater : s.cu.t ≠ 0 → dmask = s.cu.mask)
    (hfirst : s.cu.t = 0 → ∀ i, dmask.getD i false = false) :
    ∃ k : SentPacket, k.Sends s.cu.fs.toNat t.cu.mask t.cu.prevInput t.cu.obuf ∧ k.Covers s.cu.fs.toNat t.cu.mask dmask
      ∧ t.cu.pktInfo.getLsbD 10 = k.r := by
  obtain ⟨x, delta, xs, es, v, e, c, d, p, f, r, hx, hdelta, hxbits, hdbits, hrv, hv, -, -, -, hxs, hes, he, hd, hinfo,
    hobuf⟩ := compressedPacketFields s t nm sm uc _ _ hinv hr hlen hexec hok (fun _ => rfl) (fun _ => Iff.rfl)
  obtain ⟨hmask, hinp⟩ := length_of_exec_cPkt hinv hexec
  obtain rfl : xs = setPositions x := hxs.trans (filter_range_eq_setPositions hx fun _ _ => rfl)
  have hslot : Fin.ofNat 16 (s.cu.hidx.toNat + 16 - 0) = Fin.ofNat 16 s.cu.hidx.toNat := by
    apply Fin.ext
    simp
  have hchange : ∀ i < s.cu.fs.toNat, (t.cu.hist.get (Fin.ofNat 16 s.cu.hidx.toNat)).getD i false =
      (t.cu.mask.getD i false ^^ dmask.getD i false) :=
    fun _ hi => getD_changeVector hinv hr hlen hexec hok hlater hfirst hi
  refine ⟨⟨x, delta, v, e, c, d, f, r⟩,
    ⟨hx, hdelta, hmask, hinp, hv, hdbits, he, hd, by rw [hobuf, hes]; rfl⟩,
    ⟨fun i hi hne => ?_, fun hv0 i hi hset => ?_⟩, ?_⟩
  · exact (hxbits i hi).mpr ⟨0, Nat.zero_le _, by rw [hslot, hchange i hi, hne]⟩
  · obtain ⟨j, hj, hbit⟩ := (hxbits i hi).mp hset
    obtain rfl : j = 0 := by
      have : v = 0 := hv0
      omega
    rw [← hchange i hi, ← hslot, hbit]
  · have := e.toNat_le; have := c.toNat_le; have := d.toNat_le; have := p.toNat_le; have := f.toNat_le
    have := r.toNat_le
    refine getLsbD_of_toNat (b := r) ?_
    rw [hinfo]
    split <;> omega

end Sent

/-- Settles O47: the packet that the CU sends is one that takes the DU to the CU's mask and packet. -/
theorem decompressionTracksCompression : Obligations.DecompressionTracksCompression := by
  intro s t d nm sm uc rest hinv hr hexec hok hlen hdinv hdready hfs hlater hfirst hbits
  obtain ⟨k, hsends, hcovers, hraw⟩ := exists_sends hinv hr hlen hexec hok (fun ht => (hlater ht).1)
    (fun ht => (hfirst ht).1)
  rw [← hfs] at hsends hcovers
  have hkept : k.r = false → ∀ i < d.du.fs.toNat, t.cu.mask.getD i false = false →
      d.du.prevOutput.getD i false = t.cu.prevInput.getD i false := fun hr0 i hi hm => by
    have ht : s.cu.t ≠ 0 := fun ht => by
      rw [(hfirst ht).2, hr0] at hraw
      cases hraw
    rw [(hlater ht).2]
    exact getD_prevInput_of_mask hinv hr hlen hexec hok ht (hfs ▸ hi) hm
  obtain ⟨d', hd', hst, hmask, hout, hcursor⟩ := exec_dPkt_of_sends hdinv hdready hsends hcovers hkept hbits
  exact ⟨d', hd', hst, hmask, hout, fun ha => by simpa [ha] using hcursor, fun ha => by simpa [ha] using hcursor⟩

end Sys2Proof.Machine
end

