-- ==== Sys2Proof/Proofs/HistoryWindow.lean ====
section
/-! PROOFS. O30 to O33: the history window's operations (R261, R262, R264, R266, R267) on a unit whose ring holds vectors of the
session's length, which is all of the invariant that they need. -/

namespace Sys2Proof.Machine

/-! ## The operations run on operands of the session's length (R153) -/

/-- The check on all sixteen slots of the change-vector ring, passed. -/
theorem histLengths_of_forall {u : Cu} (h : ∀ k : Fin 16, (u.hist.get k).length = u.fs.toNat) : histLengths u = true :=
  haveLength_of_forall fun v hv => by
    obtain ⟨i, hi, rfl⟩ := Vector.mem_iff_getElem.mp (Vector.mem_toList_iff.mp hv)
    exact h ⟨i, hi⟩

theorem exec_hwPush {s : State} (h : s.cu.tmp.change.length = s.cu.fs.toNat) :
    exec .hwPush s = .next { s with cu := hwPush s.cu } :=
  whenLengths_eq_next.mpr ⟨haveLength_of_forall (by simp [h]), rfl⟩

theorem exec_hwFpush (s : State) : exec .hwFpush s = .next { s with cu := hwFpush s.cu } := rfl

theorem exec_hwXwin {s : State} (h : ∀ k : Fin 16, (s.cu.hist.get k).length = s.cu.fs.toNat) :
    exec .hwXwin s = .next { s with cu := hwXwin s.cu } :=
  whenLengths_eq_next.mpr ⟨histLengths_of_forall h, rfl⟩

theorem exec_hwVeff {s : State} (h : ∀ k : Fin 16, (s.cu.hist.get k).length = s.cu.fs.toNat) :
    exec .hwVeff s = .next { s with cu := hwVeff s.params.preHistoryZero s.cu } :=
  whenLengths_eq_next.mpr ⟨histLengths_of_forall h, rfl⟩

theorem exec_hwCt (s : State) : exec .hwCt s = .next { s with cu := hwCt s.cu } := rfl

/-! ## Their results -/

/-- Settles O30: both pushes set one slot of a ring of sixteen. -/
theorem ringPushesOneSlot : Obligations.RingPushesOneSlot :=
  ⟨rfl, rfl, fun s => ⟨(hwPush s.cu).hist, (hwFpush s.cu).fhist, exec_hwPush, exec_hwFpush s, fun k =>
    ⟨get_set_ring s.cu.hist s.cu.hidx s.cu.tmp.change k, get_set_ring s.cu.fhist s.cu.fidx s.cu.tmp.p k⟩⟩⟩

/-- Settles O31: the window is a fold of ORs over the slots back to min(t, R), which is at most 15, so that each of them is
the slot of the ring that R260 names. -/
theorem robustnessWindowIsOr : Obligations.RobustnessWindowIsOr := by
  refine ⟨rfl, fun s hlen => ?_⟩
  obtain ⟨hwindow, hbits⟩ := foldl_vOr (g := histBack s.cu) (fun _ => hlen _)
    (List.range (min s.cu.t.toNat s.cu.rs.toNat + 1)) (length_zeros s.cu.fs.toNat)
  refine ⟨windowOr s.cu (min s.cu.t.toNat s.cu.rs.toNat), hwindow, exec_hwXwin hlen, fun i hi => ?_⟩
  have hrs := s.cu.rs.isLt
  rw [windowOr, hbits i hi, getD_zeros, Bool.false_or, List.any_eq_true]
  refine exists_congr fun k => ?_
  rw [List.mem_range, Nat.lt_succ_iff]
  exact and_congr_right fun hk => by rw [histBack_eq s.cu (by omega)]

/-- Settles O32: the walk of R264 stops at the first slot that is not empty, or at i = 15. -/
theorem effectiveRobustnessCounts : Obligations.EffectiveRobustnessCounts := by
  refine ⟨rfl, fun s empty hlen hempty => ?_⟩
  obtain ⟨hle, h15, hinit, hlater⟩ := effectiveRobustness_spec s.params.preHistoryZero s.cu
  have hslot : ∀ i ≤ 15, (empty i ↔ EmptySlot s.params.preHistoryZero s.cu i) := fun i hi => by
    rw [hempty, emptySlot_iff, histBack_eq s.cu hi]
  refine ⟨effectiveRobustness s.params.preHistoryZero s.cu, hle, h15, exec_hwVeff hlen, hinit, fun ht => ?_⟩
  obtain ⟨hrun, hstop⟩ := hlater ht
  exact ⟨fun i h1 h2 => (hslot i (by omega)).mpr (hrun i h1 h2),
    fun hlt hnext => hstop hlt ((hslot _ (by omega)).mp hnext)⟩

/-- Settles O33: the flag compares the count of R266 with 2. -/
theorem multipleUpdateFlagCounts : Obligations.MultipleUpdateFlagCounts := by
  refine ⟨rfl, fun s => ?_⟩
  rw [exec_hwCt, hwCt, newMaskCount_eq]

end Sys2Proof.Machine
end

