-- ==== Sys2Proof/Proofs/AutomaticParameters.lean ====
section
/-! PROOFS. O34, O35: AP.NEXT and its countdown counters (R295). -/

namespace Sys2Proof.Machine

theorem exec_apNext (s : State) : exec .apNext s = .next { s with cu := apNext s.cu } := rfl

/-- A counter fires at 1 alone, and is then reloaded. -/
theorem countdown_eq (cnt limit : Word) : countdown cnt limit = (cnt == 1, if cnt = 1 then limit else cnt - 1) := by
  unfold countdown
  split
  · rename_i hone; rw [beq_iff_eq.mpr hone]
  · rename_i hone; rw [beq_eq_false_iff_ne.mpr hone]

/-- Settles O34: each of the three counters follows the one equation, and the two branches are those of t <= R. -/
theorem automaticParameters : Obligations.AutomaticParameters := by
  refine ⟨rfl, fun s => ?_⟩
  rw [exec_apNext, apNext]
  simp only [countdown_eq]

/-- The next remainder: it grows by one up to the divisor, where it starts again. -/
theorem succ_mod_eq_ite {n : Nat} (k : Nat) (hn : 0 < n) : (k + 1) % n = if k % n + 1 = n then 0 else k % n + 1 := by
  rw [← Nat.mod_add_mod]
  split
  · rename_i hwrap; rw [hwrap, Nat.mod_self]
  · exact Nat.mod_eq_of_lt (by have := Nat.mod_lt k hn; omega)

/-- Within each round of L packets the counter goes from L down to 1. -/
theorem toNat_iterate_countdown {limit : Word} (hlimit : limit ≠ 0) (k : Nat) :
    (Nat.iterate (fun c => (countdown c limit).2) k limit).toNat = limit.toNat - k % limit.toNat := by
  have hpos : 0 < limit.toNat := by bv_omega
  induction k with
  | zero => simp
  | succ k ih =>
    have hlt := Nat.mod_lt k hpos
    rw [Function.iterate_succ_apply', succ_mod_eq_ite k hpos]
    generalize Nat.iterate (fun c => (countdown c limit).2) k limit = cnt at ih
    have hone : cnt = 1 ↔ k % limit.toNat + 1 = limit.toNat := by bv_omega
    obtain ⟨-, hnext⟩ := countdown_of_ne_zero (cnt := cnt) limit (by bv_omega)
    rw [hnext]
    simp only [hone]
    split <;> omega

/-- Settles O35: the counter is L - k mod L before packet k + 1, which is never 0, and is 1 where L divides k + 1. -/
theorem countdownFiresEveryLimit : Obligations.CountdownFiresEveryLimit := by
  intro limit k hlimit
  have hpos : 0 < limit.toNat := by bv_omega
  have hlt := Nat.mod_lt k hpos
  have hcnt := toNat_iterate_countdown hlimit k
  rw [countdown_eq, Nat.dvd_iff_mod_eq_zero, succ_mod_eq_ite k hpos, beq_iff_eq, ← BitVec.toNat_inj, hcnt]
  constructor
  · show limit.toNat - k % limit.toNat = 1 ↔ _
    split <;> omega
  · bv_omega

end Sys2Proof.Machine
end

