-- ==== Sys2Proof/Proofs/SessionStart.lean ====
section
/-! PROOFS. O36: the session that a C_INIT begins (R291 to R293). -/

namespace Sys2Proof.Machine

theorem exec_cInit (s : State) : exec .cInit s = .next { s with cu := cInit s.cu } := rfl

theorem cInit_of_ok {u : Cu} (h : cInitOk u = true) : cInit u = cInitSession u := if_pos h

theorem cInit_of_not_ok {u : Cu} (h : ¬cInitOk u = true) :
    cInit u = { u with st := u.st.initFailed, auto := false } := if_neg h

/-- The latched robustness is the configured one, which R291 has found to fit (R21). -/
theorem toNat_setWidth_3 {r : Word} (h : r.toNat ≤ 7) : (r.setWidth 3).toNat = r.toNat := by
  rw [BitVec.toNat_setWidth]; omega

/-- The counters start at the limits in both modes: the limits that R291 accepts in manual mode are all 0 (R25, R293). -/
theorem cInitSession_eq {u : Cu} (h : cInitOk u = true) : cInitSession u =
    { cInitSession u with auto := u.cfgPt != 0, ptCnt := u.cfgPt, ftCnt := u.cfgFt, rtCnt := u.cfgRt } := by
  obtain ⟨-, -, -, ⟨hpt, hft, hrt⟩ | ⟨hpt, -, -⟩⟩ := (cInitOk_iff u).mp h
  · simp [cInitSession, hpt, hft, hrt]
  · simp only [cInitSession, decide_eq_true hpt, bne_iff_ne.mpr hpt, if_pos hpt]

/-- Settles O36: the check of R291 is the condition of the obligation. -/
theorem cInitBeginsSession : Obligations.CInitBeginsSession := by
  refine ⟨rfl, fun s valid hvalid => ⟨fun h => ?_, fun h => ?_⟩⟩
  · have hok := (cInitOk_iff s.cu).mpr (hvalid.mp h)
    obtain ⟨-, hf, hr, -⟩ := hvalid.mp h
    refine ⟨windowVector s.cu.win cuInmask s.cu.cfgF.toNat, zeros s.cu.cfgF.toNat, s.cu.cfgF.setWidth 16,
      s.cu.cfgR.setWidth 3, toNat_setWidth_16 hf, toNat_setWidth_3 hr, length_windowVector .., length_zeros _,
      getD_zeros _, getD_windowVector _ _ _, ?_⟩
    rw [exec_cInit, cInit_of_ok hok, cInitSession_eq hok]
    rfl
  · rw [exec_cInit, cInit_of_not_ok fun hok => h (hvalid.mpr ((cInitOk_iff s.cu).mp hok))]
    rfl

end Sys2Proof.Machine
end

