-- ==== Sys2Proof/Proofs/ShortestPacket.lean ====
section
/-! PROOFS. O50: the packet with an empty window and d = 1, on an all-zero mask (R313, R353 to R355). -/

namespace Sys2Proof.Machine

theorem setPositions_eq_nil {m : BitSeq} (h : ∀ i, m.getD i false = false) : setPositions m = [] :=
  List.filter_eq_nil_iff.mpr fun i _ => by rw [h i]; exact Bool.false_ne_true

/-- An empty window is its terminator alone (R114). -/
theorem rleBits_zeros (n : Nat) : rleBits (zeros n) = [true, false] := by
  rw [rleBits_eq_distanceBits, setPositions_eq_nil (getD_zeros n)]
  rfl

/-- Settles O50: the packet of the grammar with an empty window, d = 1 and no inserted bit. -/
theorem emptyPacketRepeatsOutput : Obligations.EmptyPacketRepeatsOutput := by
  intro s v rest hinv hready hmask hv hbits
  have hwindow : (List.range s.du.fs.toNat).filter (fun i => (zeros s.du.fs.toNat).getD i false) = [] :=
    (filter_range_eq_setPositions (length_zeros _) fun _ _ => rfl).trans (setPositions_eq_nil (getD_zeros _))
  have hlen : ([true, false] ++ bitsMsb 4 v ++ [true]).length = 7 := by simp
  obtain ⟨t, hexec, hst, hvec, -, hout, hinfo, hpos, ht⟩ := decompressionFrame.2 s
    ([true, false] ++ bitsMsb 4 v ++ [true]) rest (zeros s.du.fs.toNat) (zeros s.du.fs.toNat) [] (zeros s.du.fs.toNat) []
    v 0 false false true false false [] [] (fun _ => false) (fun _ => false) (fun _ => false) hinv hready
    (length_zeros _) (length_zeros _) (length_zeros _) hv (Nat.zero_le _) hwindow.symm rfl (by simp) rfl (by simp) (by simp)
    (by simp) (by simp) (fun i _ => by simp only [getD_zeros, hmask, Bool.false_eq_true, if_false]) (by simp)
    (by simp [rleBits_zeros]) hbits
  rw [hlen] at hpos
  obtain ⟨hdm, hpo⟩ := length_of_exec_dPkt hinv hexec
  obtain ⟨-, hlast, hkept⟩ := hout rfl
  refine ⟨t, hexec, hst, ?_, ?_, hlast, ?_, ht, ?_, ?_⟩
  · exact bitSeq_ext (hdm.trans hinv.dmask_length.symm) fun i hi => (hvec i (hdm ▸ hi)).1.trans (hmask i).symm
  · exact bitSeq_ext (hpo.trans hinv.prevOutput_length.symm) fun i hi => hkept i (hpo ▸ hi) rfl
  · have hword : t.du.pktInfo.toNat = v + 128 := by simpa using hinfo
    rw [← hword, BitVec.ofNat_toNat, BitVec.setWidth_eq]
  · exact fun ha => hpos.trans (if_neg (by simp [ha]))
  · exact fun ha => hpos.trans (if_pos ha)

end Sys2Proof.Machine
end

