-- ==== Sys2Proof/Proofs/DecompressorStart.lean ====
section
/-! PROOFS. O37, O38: the session that a D_INIT begins and the reader's commands (R341, R345, R360). -/

namespace Sys2Proof.Machine

/-! ## D_INIT -/

theorem exec_dInit (s : State) : exec .dInit s = .next { s with du := dInit s.du } := rfl

theorem dInitOk_iff (u : Du) :
    dInitOk u = true ↔ 1 ≤ u.cfgF.toNat ∧ u.cfgF.toNat ≤ 65535 ∧ u.cfgR.toNat ≤ 7 := by
  simp only [dInitOk, Bool.and_eq_true, decide_eq_true_eq, and_assoc]

theorem dInit_of_ok {u : Du} (h : dInitOk u = true) : dInit u = dInitSession u := if_pos h

theorem dInit_of_not_ok {u : Du} (h : ¬dInitOk u = true) : dInit u = { u with st := u.st.initFailed } := if_neg h

/-- Settles O37: the check of R341 is the condition of the obligation. -/
theorem dInitBeginsSession : Obligations.DInitBeginsSession := by
  refine ⟨rfl, fun s valid hvalid => ⟨fun h => ?_, fun h => ?_⟩⟩
  · have hok := (dInitOk_iff s.du).mpr (hvalid.mp h)
    obtain ⟨-, hf, hr⟩ := hvalid.mp h
    refine ⟨zeros s.du.cfgF.toNat, s.du.cfgF.setWidth 16, s.du.cfgR.setWidth 3, toNat_setWidth_16 hf,
      toNat_setWidth_3 hr, length_zeros _, getD_zeros _, ?_⟩
    rw [exec_dInit, dInit_of_ok hok]
    rfl
  · rw [exec_dInit, dInit_of_not_ok fun hok => h (hvalid.mpr ((dInitOk_iff s.du).mp hok))]
    rfl

/-! ## D_LOAD and D_ALIGN -/

theorem exec_dLoad (s : State) : exec .dLoad s = .next { s with du := dLoad s.params.streamCap s.du } := rfl

theorem exec_dAlign (s : State) :
    exec .dAlign s = .next { s with du := { s.du.align with st := s.du.st.report .ok } } := rfl

theorem dLoad_of_over_capacity {cap : Nat} {u : Du} (h : u.streamLen.toNat > cap) :
    dLoad cap u = { u with st := u.st.report .invalidArgument } := if_pos h

theorem dLoad_of_within_capacity {cap : Nat} {u : Du} (h : ¬u.streamLen.toNat > cap) :
    dLoad cap u = { u with
      numBits := BitVec.ofNat 32 (8 * u.streamLen.toNat), bitPos := 0, st := u.st.report .ok } := if_neg h

/-- Settles O38: the capacity check of R345 splits D_LOAD, and D_ALIGN has one outcome. -/
theorem readerCommands : Obligations.ReaderCommands := by
  refine ⟨rfl, rfl, fun s => ⟨?_, ?_⟩⟩
  · rw [exec_dLoad]
    split
    · rename_i hover
      rw [dLoad_of_over_capacity hover]
      rfl
    · rename_i hwithin
      rw [dLoad_of_within_capacity hwithin]
      rfl
  · rw [exec_dAlign]
    rfl

end Sys2Proof.Machine
end

