-- ==== Sys2Proof/Proofs/PacketErrors.lean ====
section
/-! PROOFS. O42: an error of a packet command is all that the command leaves (R394). -/

namespace Sys2Proof.Machine

/-- A C_PKT of a ready unit that ends with an error has only raised it: a commit reports OK, and without a commit nothing of
the packet that was prepared is kept. -/
theorem cPkt_eq_raise {z nm sm uc : Bool} {u : Cu} (hr : u.st.ready = true) (herr : (cPkt z nm sm uc u).st.err ≠ .ok) :
    cPkt z nm sm uc u = u.raise (cPkt z nm sm uc u).st.err := by
  rcases cPkt_cases z nm sm uc u with ⟨hr', -⟩ | ⟨-, -, hinLen⟩ | ⟨-, -, -, hoverflow⟩ | ⟨-, -, u', -, hcommit⟩
  · rw [hr] at hr'
    cases hr'
  · rw [hinLen, Cu.raise_st, Status.raise_err]
  · rw [hoverflow, Cu.raise_st, Status.raise_err]
  · rw [hcommit, cPktCommit_st, Status.report_err] at herr
    exact absurd rfl herr

/-- A D_PKT of a ready unit that ends with an error has only raised it: a packet that was read to its end reports OK. -/
theorem dPkt_eq_raise {u : Du} (hr : u.st.ready = true) (herr : (dPkt u).st.err ≠ .ok) :
    dPkt u = u.raise (dPkt u).st.err := by
  rcases dPkt_cases u with ⟨hr', -⟩ | ⟨-, e, -, herror⟩ | ⟨-, k, rest, -, hcommit⟩
  · rw [hr] at hr'
    cases hr'
  · rw [herror, Du.raise_st, Status.raise_err]
  · obtain ⟨hst, -⟩ := dPktCommit_fields u k rest
    rw [hcommit, hst, Status.report_err] at herr
    exact absurd rfl herr

/-- Settles O42: each packet command replaces its unit by what the packet makes of it, and that is `raise` where there is an
error. -/
theorem packetErrorsAreTransactional : Obligations.PacketErrorsAreTransactional := by
  refine ⟨fun s t nm sm uc hr hexec herr => ?_, fun s t hr hexec herr => ?_⟩
  · rw [exec_cPkt] at hexec
    cases hexec
    exact congrArg (fun u => { s with cu := u }) (cPkt_eq_raise hr herr)
  · rw [exec_dPkt] at hexec
    cases hexec
    exact congrArg (fun u => { s with du := u }) (dPkt_eq_raise hr herr)

end Sys2Proof.Machine
end
